-- ==== Sys2Proof/Word.lean ====
section
/-! DEFINITION. The words of the machine and their plainest pieces (spec/00_scope.md R7). -/

namespace Sys2Proof

/-- A byte, the unit of memory and of instruction text (R60, R90). -/
abbrev Byte := BitVec 8

/-- One 64-bit lane, general register or address. -/
abbrev Quad := BitVec 64

/-- The storage of one vector register: 512 bits, the greatest `MAXVL` of R6 (R21; log entry 6). -/
abbrev Vec := BitVec 512

end Sys2Proof
end

