-- ==== Sys2Proof/Config.lean ====
section
/-! DEFINITION. What an implementation fixes (spec/00_scope.md R6) and the free values: choices the
spec leaves open, as constants without a body. -/

namespace Sys2Proof

/-- The operating mode `MODE` (R6, R117, R260). R117 treats 32-bit protected mode and
compatibility mode as one. -/
inductive Mode where
  | real
  | virtual8086
  | prot32
  | long64
  deriving DecidableEq, Repr

/-- `LAW`, the width of a linear address in the canonical check: 48 or 57 (R6, R60). -/
inductive LinearWidth where
  | w48
  | w57
  deriving DecidableEq, Repr

/-- `SUPPRESS_SCOPE`: which memory faults a masked-off lane is exempt from (R6, R69). -/
inductive SuppressScope where
  | pfOnly
  | all
  deriving DecidableEq, Repr

/-- `XM_FLAGS`: which MXCSR flags a raised SIMD floating-point exception sets (R6, R214). -/
inductive XmFlags where
  | twoPhase
  | loose
  deriving DecidableEq, Repr

/-- The legal values of the four CPUID feature flags of R6, R2 and R35, which imply one another:
`HAS_AVX512VL -> HAS_AVX512F -> HAS_AVX -> HAS_SSE2`. Each value names the last flag that is 1. -/
inductive Features where
  | none
  | sse2
  | avx
  | avx512f
  | avx512vl
  deriving DecidableEq, Repr

/-- `KW`, the width of an opmask register: 16 or 64 (R6, R24). -/
inductive OpmaskWidth where
  | w16
  | w64
  deriving DecidableEq, Repr

/-- The named parameters of R6. `State` holds one value of this type and no step changes it, so every
statement over all states is a statement over all parameter values. `MODE` and `CPL` are fields of
`State` of their own, and `Access` is its field `access`; `MAXVL` follows from the features, `NVEC` from
the features and the mode (`Params.maxvl`, `Params.nvec`). -/
structure Params where
  features : Features
  kw : OpmaskWidth
  law : LinearWidth
  suppressScope : SuppressScope
  xmFlags : XmFlags
  deriving DecidableEq, Repr

/-- `HAS_SSE2` (CPUID.01H:EDX bit 26, R35). -/
def Params.hasSSE2 (p : Params) : Bool :=
  match p.features with
  | .none => false
  | .sse2 => true
  | .avx => true
  | .avx512f => true
  | .avx512vl => true

/-- `HAS_AVX` (CPUID.01H:ECX bit 28). -/
def Params.hasAVX (p : Params) : Bool :=
  match p.features with
  | .none => false
  | .sse2 => false
  | .avx => true
  | .avx512f => true
  | .avx512vl => true

/-- `HAS_AVX512F` (CPUID.07H.0:EBX bit 16). -/
def Params.hasAVX512F (p : Params) : Bool :=
  match p.features with
  | .none => false
  | .sse2 => false
  | .avx => false
  | .avx512f => true
  | .avx512vl => true

/-- `HAS_AVX512VL` (CPUID.07H.0:EBX bit 31). -/
def Params.hasAVX512VL (p : Params) : Bool := decide (p.features = .avx512vl)

/-- `MAXVL`, the width in bits of a vector register: 512 exactly with AVX512F, at least 256 exactly with
AVX, else 128 (R6, U1). -/
def Params.maxvl (p : Params) : Nat :=
  if p.hasAVX512F then 512 else if p.hasAVX then 256 else 128

/-- `NVEC`, the number of vector registers (R6): 32 in 64-bit mode with AVX512F, 16 in 64-bit mode
without it, 8 in the other modes. -/
def Params.nvec (p : Params) (m : Mode) : Nat :=
  if m = .long64 then (if p.hasAVX512F then 32 else 16) else 8

/-- `KW` as a number. -/
def OpmaskWidth.bits : OpmaskWidth → Nat
  | .w16 => 16
  | .w64 => 64

/-- R6's default column. `LAW` and `KW` are OPEN there: 48 and 64 are DESIGN CHOICES (log entries 5
and 6). -/
def Params.default : Params where
  features := .avx512vl
  kw := .w64
  law := .w48
  suppressScope := .all
  xmFlags := .twoPhase

/-- `LAW` as a number (R60). -/
def LinearWidth.bits : LinearWidth → Nat
  | .w48 => 48
  | .w57 => 57

/-- How many vector registers are stored: the greatest `NVEC` of R6 (log entry 6). -/
abbrev Config.vecCount : Nat := 32

/-- How many bits of an opmask register are stored: the greatest `KW` of R6 (log entry 6). -/
abbrev Config.opmaskBits : Nat := 64

/-- Free value (U5): which of the needed bytes that fault is the one a `#PF` reports, as an index
into their list, taken modulo its length (log entry 7). -/
opaque Config.pageFaultPick : List Nat → Nat

/-- Free value (U7): whether a legacy `SS` operand at this linear address that is both misaligned
and outside the space reports `#SS(0)` rather than `#GP(0)` (log entry 8). -/
opaque Config.misalignedReportsStack : Quad → Bool

/-- Free value (U8), read only under `XM_FLAGS` = loose: the bits to take from the candidate flags,
given the address of the instruction and MXCSR before it (log entry 9). -/
opaque Config.looseXmFlags : Quad → BitVec 32 → BitVec 6

/-- Free value (R65 "may raise"): whether a misaligned `m64bcst` access at this linear address
raises `#AC(0)` when alignment checking is on (log entry 10). -/
opaque Config.raisesAlignmentCheck : Quad → Bool

/-- Free value (U14): when an instruction has both a byte outside the space or `CS` and a byte that
paging refuses, whether the fetch at this address reports the page fault (log entry 11). -/
opaque Config.fetchReportsPageFault : Quad → Bool

end Sys2Proof
end

