-- ==== Sys2Proof/Syntax.lean ====
section
/-! DEFINITION. The instructions: one constructor per row of spec/opcode_table.json. A term holds
every bit of the encoding it stands for, so that decoding loses nothing (spec/30_encoding.md). -/

namespace Sys2Proof

/-- The six segments a memory operand can be addressed through (R32, R92). -/
inductive Seg where
  | cs
  | ss
  | ds
  | es
  | fs
  | gs
  deriving DecidableEq, Repr

/-- The bytes that may stand before the opcode part of an instruction (R92), and a REX byte that
another legacy prefix follows, which is ignored altogether (R94). -/
inductive Prefix where
  /-- `66` -/
  | opSize
  /-- `67` -/
  | addrSize
  /-- `2E 36 3E 26 64 65` -/
  | seg (s : Seg)
  /-- `F0` -/
  | lock
  /-- `F2` -/
  | repne
  /-- `F3` -/
  | rep
  /-- `0100WRXB` followed by a legacy prefix -/
  | droppedRex (wrxb : BitVec 4)
  deriving DecidableEq, Repr

/-- A REX byte immediately before `0F` (R94). -/
structure Rex where
  w : Bool
  r : Bool
  x : Bool
  b : Bool
  deriving DecidableEq, Repr

/-- The fields of a two-byte VEX prefix, inversion undone (R96). -/
structure Vex2 where
  r : Bool
  vvvv : BitVec 4
  deriving DecidableEq, Repr

/-- The fields of a three-byte VEX prefix, inversion undone (R97). `w` is ignored (WIG). -/
structure Vex3 where
  r : Bool
  x : Bool
  b : Bool
  w : Bool
  vvvv : BitVec 4
  deriving DecidableEq, Repr

/-- The fields of an EVEX prefix that every EVEX row has, inversion undone (R100): `r2` is `R'`,
`v2` is `V'`. -/
structure Evex where
  r : Bool
  x : Bool
  b : Bool
  r2 : Bool
  vvvv : BitVec 4
  z : Bool
  v2 : Bool
  aaa : BitVec 3
  deriving DecidableEq, Repr

/-- The four rounding modes (R27, R144). -/
inductive Rounding where
  /-- to nearest, ties to even -/
  | rn
  /-- toward minus infinity -/
  | rd
  /-- toward plus infinity -/
  | ru
  /-- toward zero -/
  | rz
  deriving DecidableEq, Repr

/-- A displacement as encoded (R110). -/
inductive Disp where
  | none
  | d8 (d : BitVec 8)
  | d32 (d : BitVec 32)
  deriving DecidableEq, Repr

/-- A SIB byte (R108). -/
structure Sib where
  scale : BitVec 2
  index : BitVec 3
  base : BitVec 3
  deriving DecidableEq, Repr

/-- The operand that ModRM.mod and ModRM.r/m, SIB and displacement name (R107 to R110). -/
inductive RmOperand where
  /-- `mod = 3`: a vector register. -/
  | reg (rm : BitVec 3)
  /-- a base register and a displacement, no SIB -/
  | base (rm : BitVec 3) (d : Disp)
  /-- `mod = 0, r/m = 101b`: RIP-relative in 64-bit mode, absolute in 32-bit mode -/
  | disp (d : BitVec 32)
  /-- SIB with a base register -/
  | sib (s : Sib) (d : Disp)
  /-- `mod = 0`, SIB with base 101b: index and displacement only -/
  | sibNoBase (scale : BitVec 2) (index : BitVec 3) (d : BitVec 32)
  deriving DecidableEq, Repr

/-- Whether the operand is in memory (`mod ≠ 3`, R107). -/
def RmOperand.isMem : RmOperand → Bool
  | .reg _ => false
  | _ => true

/-- The nine rows of spec/opcode_table.json, in its order (R4). -/
inductive Instr where
  /-- `66 0F 5C /r` SUBPD xmm1, xmm2/m128 (R95, R170) -/
  | subpd (pre : List Prefix) (rex : Option Rex) (reg : BitVec 3) (rm : RmOperand)
  /-- row VEX2.128: VSUBPD xmm1, xmm2, xmm3/m128 with a two-byte VEX prefix (R98, R180) -/
  | vsubpdVex2x128 (pre : List Prefix) (vex : Vex2) (reg : BitVec 3) (rm : RmOperand)
  /-- row VEX3.128: the same with a three-byte VEX prefix (R98, R180) -/
  | vsubpdVex3x128 (pre : List Prefix) (vex : Vex3) (reg : BitVec 3) (rm : RmOperand)
  /-- row VEX2.256: VSUBPD ymm1, ymm2, ymm3/m256 (R98, R181) -/
  | vsubpdVex2x256 (pre : List Prefix) (vex : Vex2) (reg : BitVec 3) (rm : RmOperand)
  /-- row VEX3.256 (R98, R181) -/
  | vsubpdVex3x256 (pre : List Prefix) (vex : Vex3) (reg : BitVec 3) (rm : RmOperand)
  /-- row EVEX.128 (R101, R190); `bcst` is EVEX.b of a memory form (R103) -/
  | vsubpdEvex128 (pre : List Prefix) (evex : Evex) (bcst : Bool) (reg : BitVec 3) (rm : RmOperand)
  /-- row EVEX.256 (R101, R191) -/
  | vsubpdEvex256 (pre : List Prefix) (evex : Evex) (bcst : Bool) (reg : BitVec 3) (rm : RmOperand)
  /-- row EVEX.512 (R101, R192) -/
  | vsubpdEvex512 (pre : List Prefix) (evex : Evex) (bcst : Bool) (reg : BitVec 3) (rm : RmOperand)
  /-- row EVEX.512.er: register form with EVEX.b = 1, embedded rounding `rc` (R103, R197) -/
  | vsubpdEvex512er (pre : List Prefix) (evex : Evex) (rc : Rounding) (reg rm : BitVec 3)
  deriving DecidableEq, Repr

end Sys2Proof
end

