-- ==== Sys2Proof/Decode.lean ====
section
/-! DEFINITION. The decoder (spec/30_encoding.md R90 to R119), total on every byte string, and the
encoder, written from the same layouts. -/

namespace Sys2Proof

/-! ### Prefix bytes (R92, R94) -/

/-- The byte of a legacy prefix or of a dropped REX (R92, R94). -/
def Prefix.byte : Prefix → Byte
  | .opSize => 0x66
  | .addrSize => 0x67
  | .seg .cs => 0x2E
  | .seg .ss => 0x36
  | .seg .ds => 0x3E
  | .seg .es => 0x26
  | .seg .fs => 0x64
  | .seg .gs => 0x65
  | .lock => 0xF0
  | .repne => 0xF2
  | .rep => 0xF3
  | .droppedRex wrxb => 4#4 ++ wrxb

/-- The legacy prefix a byte is, if it is one (R92). -/
def Prefix.ofByte? (b : Byte) : Option Prefix :=
  if b = 0x66 then some .opSize
  else if b = 0x67 then some .addrSize
  else if b = 0x2E then some (.seg .cs)
  else if b = 0x36 then some (.seg .ss)
  else if b = 0x3E then some (.seg .ds)
  else if b = 0x26 then some (.seg .es)
  else if b = 0x64 then some (.seg .fs)
  else if b = 0x65 then some (.seg .gs)
  else if b = 0xF0 then some .lock
  else if b = 0xF2 then some .repne
  else if b = 0xF3 then some .rep
  else none

/-- Bytes `40`..`4F`, which are REX in 64-bit mode only (R94, R117). -/
def isRexByte (m : Mode) (b : Byte) : Bool :=
  decide (m = .long64) && decide (b.extractLsb' 4 4 = 4#4)

def Rex.byte (p : Rex) : Byte :=
  4#4 ++ BitVec.ofBool p.w ++ BitVec.ofBool p.r ++ BitVec.ofBool p.x ++ BitVec.ofBool p.b

def Rex.ofByte (b : Byte) : Rex where
  w := b.getLsbD 3
  r := b.getLsbD 2
  x := b.getLsbD 1
  b := b.getLsbD 0

/-- R114 steps 1 and 2: the leading prefixes, in order, and the bytes after them. A REX byte is taken
here only when a legacy prefix follows it, which drops it (R94). -/
def splitPrefixes (m : Mode) : List Byte → List Prefix × List Byte
  | [] => ([], [])
  | b :: rest =>
    match Prefix.ofByte? b with
    | some p => (p :: (splitPrefixes m rest).1, (splitPrefixes m rest).2)
    | none =>
      if isRexByte m b && (rest.head?.bind Prefix.ofByte?).isSome then
        (.droppedRex (b.extractLsb' 0 4) :: (splitPrefixes m rest).1, (splitPrefixes m rest).2)
      else ([], b :: rest)

/-- R114 step 2: a REX byte that is kept. -/
def takeRex (m : Mode) : List Byte → Option Rex × List Byte
  | [] => (none, [])
  | b :: rest => if isRexByte m b then (some (Rex.ofByte b), rest) else (none, b :: rest)

/-- The prefixes that make a VEX or EVEX form `#UD` (R99, R105). -/
def Prefix.forbiddenBeforeVex : Prefix → Bool
  | .opSize => true
  | .lock => true
  | .repne => true
  | .rep => true
  | _ => false

/-! ### ModRM, SIB, displacement (R107, R108, R110) -/

/-- The four little-endian bytes of a 32-bit displacement (R61, R110). -/
def disp32Bytes (d : BitVec 32) : List Byte :=
  [d.extractLsb' 0 8, d.extractLsb' 8 8, d.extractLsb' 16 8, d.extractLsb' 24 8]

def takeDisp32 : List Byte → Option (BitVec 32 × List Byte)
  | a :: b :: c :: d :: rest => some (d ++ c ++ b ++ a, rest)
  | _ => none

def takeDisp8 : List Byte → Option (BitVec 8 × List Byte)
  | a :: rest => some (a, rest)
  | [] => none

def Disp.bytes : Disp → List Byte
  | .none => []
  | .d8 d => [d]
  | .d32 d => disp32Bytes d

/-- The displacement that `mod` = 1 or 2 announces (R110). -/
def takeDisp (mod : BitVec 2) (bytes : List Byte) : Option (Disp × List Byte) :=
  if mod = 0 then some (.none, bytes)
  else if mod = 1 then (takeDisp8 bytes).map fun p => (.d8 p.1, p.2)
  else (takeDisp32 bytes).map fun p => (.d32 p.1, p.2)

/-- The `mod` that announces a displacement (R110). -/
def Disp.mod : Disp → BitVec 2
  | .none => 0
  | .d8 _ => 1
  | .d32 _ => 2

def modRmByte (mod : BitVec 2) (reg rm : BitVec 3) : Byte := mod ++ reg ++ rm

def Sib.byte (s : Sib) : Byte := s.scale ++ s.index ++ s.base

def Sib.ofByte (b : Byte) : Sib where
  scale := b.extractLsb' 6 2
  index := b.extractLsb' 3 3
  base := b.extractLsb' 0 3

/-- ModRM and the SIB and displacement bytes it announces: the `reg` field, the operand and the bytes
that follow; `none` when the bytes run out. -/
def decodeRm : List Byte → Option (BitVec 3 × RmOperand × List Byte)
  | [] => none
  | m :: rest =>
    let mod := m.extractLsb' 6 2
    let reg := m.extractLsb' 3 3
    let rm := m.extractLsb' 0 3
    if mod = 3 then some (reg, .reg rm, rest)
    else if rm = 4 then
      match rest with
      | [] => none
      | sb :: rest =>
        if mod = 0 ∧ (Sib.ofByte sb).base = 5 then
          (takeDisp32 rest).map fun p =>
            (reg, .sibNoBase (Sib.ofByte sb).scale (Sib.ofByte sb).index p.1, p.2)
        else (takeDisp mod rest).map fun p => (reg, .sib (Sib.ofByte sb) p.1, p.2)
    else if mod = 0 ∧ rm = 5 then
      (takeDisp32 rest).map fun p => (reg, .disp p.1, p.2)
    else (takeDisp mod rest).map fun p => (reg, .base rm p.1, p.2)

/-- The ModRM, SIB and displacement bytes of an operand (R107 to R110). -/
def encodeRm (reg : BitVec 3) : RmOperand → List Byte
  | .reg rm => [modRmByte 3 reg rm]
  | .base rm d => modRmByte d.mod reg rm :: d.bytes
  | .disp d => modRmByte 0 reg 5 :: disp32Bytes d
  | .sib s d => modRmByte d.mod reg 4 :: s.byte :: d.bytes
  | .sibNoBase scale index d => modRmByte 0 reg 4 :: Sib.byte ⟨scale, index, 5⟩ :: disp32Bytes d

/-! ### Lengths (R115) -/

def Disp.length : Disp → Nat
  | .none => 0
  | .d8 _ => 1
  | .d32 _ => 4

/-- ModRM, SIB and displacement bytes (R115). -/
def RmOperand.length : RmOperand → Nat
  | .reg _ => 1
  | .base _ d => 1 + d.length
  | .disp _ => 5
  | .sib _ d => 2 + d.length
  | .sibNoBase _ _ _ => 6

def rexLength (rex : Option Rex) : Nat := if rex.isSome then 1 else 0

/-- `len`, the total length in bytes of an instruction (R115). -/
def Instr.length : Instr → Nat
  | .subpd pre rex _ rm => pre.length + rexLength rex + 2 + rm.length
  | .vsubpdVex2x128 pre _ _ rm => pre.length + 3 + rm.length
  | .vsubpdVex3x128 pre _ _ rm => pre.length + 4 + rm.length
  | .vsubpdVex2x256 pre _ _ rm => pre.length + 3 + rm.length
  | .vsubpdVex3x256 pre _ _ rm => pre.length + 4 + rm.length
  | .vsubpdEvex128 pre _ _ _ rm => pre.length + 5 + rm.length
  | .vsubpdEvex256 pre _ _ _ rm => pre.length + 5 + rm.length
  | .vsubpdEvex512 pre _ _ _ rm => pre.length + 5 + rm.length
  | .vsubpdEvex512er pre _ _ _ _ => pre.length + 6

/-! ### Outcomes of decoding -/

/-- Which of the three encoding classes a form belongs to (R90); EVEX with its vector length (R102). -/
inductive FormClass where
  | legacy
  | vex
  | evex (vl : Nat)
  deriving DecidableEq, Repr

/-- Why bytes are not one of the six forms. The spec says a model refuses them (R5, R118). -/
inductive Foreign where
  /-- `0F 5C` without `66`, `F2`, `F3` (R118) -/
  | subps
  /-- `F3 0F 5C` (R118) -/
  | subss
  /-- `F2 0F 5C` (R118) -/
  | subsd
  /-- VEX with another map, `pp` or opcode: VSUBPS, VSUBSS, VSUBSD among them (R114, R118) -/
  | otherVex
  /-- EVEX with another map, `pp` or opcode (R114, R118) -/
  | otherEvex
  /-- `C5`, `C4`, `62` outside 64-bit mode followed by a byte whose bits 7:6 are not 11b:
  LDS, LES, BOUND (R117) -/
  | ldsLesBound
  /-- a memory form with a `67` prefix in 32-bit mode: 16-bit addressing, which R117 does not
  describe -/
  | addressSize16
  /-- any other opcode (R114) -/
  | otherOpcode
  /-- the byte list ended inside the instruction; no window that `step` fetches does -/
  | truncated
  deriving DecidableEq, Repr

/-- What a byte string is (R114: "SUBPD/VSUBPD, #UD, #GP(0), or not this instruction"). The numbers
are how many bytes belong to the instruction as far as decoding went. -/
inductive Decoded where
  | instr (i : Instr)
  | ud (len : Nat)
  | tooLong (len : Nat)
  | foreign (why : Foreign) (len : Nat)
  /-- one of the six forms met in real-address or virtual-8086 mode, where operands are not
  described (R5) -/
  | otherMode (c : FormClass) (len : Nat)
  deriving DecidableEq, Repr

def Decoded.consumed : Decoded → Nat
  | .instr i => i.length
  | .ud len => len
  | .tooLong len => len
  | .foreign _ len => len
  | .otherMode _ len => len

/-! ### The decode procedure (R114) -/

/-- R114 step 5 and R224: an instruction over 15 bytes is `#GP(0)`, before any `#UD`. -/
def illegal (len : Nat) : Decoded := if len > 15 then .tooLong len else .ud len

/-- Whether ModRM has the 32- and 64-bit layout of R107 to R110 here. -/
def plainAddressing (m : Mode) (pre : List Prefix) : Bool :=
  match m with
  | .long64 => true
  | .prot32 => !pre.contains .addrSize
  | _ => false

/-- How many bytes ModRM, SIB and displacement take. Under 16-bit addressing (`67` in 32-bit mode;
real-address and virtual-8086 mode), which R117 does not describe, only the ModRM byte of a memory operand
counts: DESIGN CHOICE (log entry 17). It decides whether an instruction counts as over 15 bytes there, and
which of its bytes are fetch-checked. -/
def addressedLength (m : Mode) (pre : List Prefix) (rm : RmOperand) : Nat :=
  if rm.isMem && !plainAddressing m pre then 1 else rm.length

/-- How many bytes ModRM, SIB and displacement of an illegal encoding take. -/
def tailLength (m : Mode) (pre : List Prefix) (tail : List Byte) : Nat :=
  match decodeRm tail with
  | some (_, rm, _) => addressedLength m pre rm
  | none => 0

/-- R114 steps 4 and 5: read the operand, build the instruction (`none`: an illegal combination),
check the length. `len` is the length up to ModRM. The length check comes before everything else (R224 step
3) in every mode; of a memory operand with 16-bit addressing only the ModRM byte counts (log entry 17). -/
def withOperand (m : Mode) (pre : List Prefix) (c : FormClass) (len : Nat) (tail : List Byte)
    (mk : BitVec 3 → RmOperand → Option Instr) : Decoded :=
  match decodeRm tail with
  | none => .foreign .truncated len
  | some (reg, rm, _) =>
    let total := len + addressedLength m pre rm
    if total > 15 then .tooLong total
    else if m = .real ∨ m = .virtual8086 then .otherMode c total
    else if rm.isMem && !plainAddressing m pre then .foreign .addressSize16 total
    else
      match mk reg rm with
      | none => .ud total
      | some i => .instr i

/-- R114 step 3, legacy class, after `0F 5C`. -/
def decodeLegacy (m : Mode) (pre : List Prefix) (rex : Option Rex) (tail : List Byte) : Decoded :=
  let len := pre.length + rexLength rex + 2
  if pre.contains .lock then illegal (len + tailLength m pre tail)
  else if pre.contains .rep then .foreign .subss len
  else if pre.contains .repne then .foreign .subsd len
  else if !pre.contains .opSize then .foreign .subps len
  else withOperand m pre .legacy len tail fun reg rm => some (.subpd pre rex reg rm)

/-- Outside 64-bit mode `C5`, `C4`, `62` begin a VEX or EVEX form only when bits 7:6 of the next
byte are 11b (R117). -/
def startsVex (m : Mode) (b : Byte) : Bool :=
  decide (m = .long64) || decide (b.extractLsb' 6 2 = 3#2)

/-- An illegal VEX encoding, of which the operand counts when the opcode is `5C` (log entry 17): other VEX
opcodes need not have a ModRM byte. -/
def illegalVex (m : Mode) (pre : List Prefix) (len : Nat) (op : Byte) (tail : List Byte) : Decoded :=
  illegal (if op = 0x5C then len + tailLength m pre tail else len)

def Vex2.ofByte (b : Byte) : Vex2 where
  r := !b.getLsbD 7
  vvvv := ~~~ b.extractLsb' 3 4

/-- R114 step 3, VEX class, after `C5` (R96, R98, R99). -/
def decodeVex2 (m : Mode) (pre : List Prefix) (rex : Option Rex) : List Byte → Decoded
  | b1 :: op :: tail =>
    let len := pre.length + rexLength rex + 3
    if !startsVex m b1 then .foreign .ldsLesBound (len - 1)
    else if pre.any Prefix.forbiddenBeforeVex || rex.isSome then illegalVex m pre len op tail
    else if b1.extractLsb' 0 2 ≠ 1#2 ∨ op ≠ 0x5C then .foreign .otherVex len
    else
      withOperand m pre .vex len tail fun reg rm =>
        some (if b1.getLsbD 2 then .vsubpdVex2x256 pre (Vex2.ofByte b1) reg rm
          else .vsubpdVex2x128 pre (Vex2.ofByte b1) reg rm)
  | _ => .foreign .truncated 0

def Vex3.ofBytes (b1 b2 : Byte) : Vex3 where
  r := !b1.getLsbD 7
  x := !b1.getLsbD 6
  b := !b1.getLsbD 5
  w := b2.getLsbD 7
  vvvv := ~~~ b2.extractLsb' 3 4

/-- R114 step 3, VEX class, after `C4` (R97, R98, R99). -/
def decodeVex3 (m : Mode) (pre : List Prefix) (rex : Option Rex) : List Byte → Decoded
  | b1 :: b2 :: op :: tail =>
    let len := pre.length + rexLength rex + 4
    if !startsVex m b1 then .foreign .ldsLesBound (len - 2)
    else if pre.any Prefix.forbiddenBeforeVex || rex.isSome then illegalVex m pre len op tail
    else if b1.extractLsb' 0 5 ≠ 1#5 ∨ b2.extractLsb' 0 2 ≠ 1#2 ∨ op ≠ 0x5C then
      .foreign .otherVex len
    else
      withOperand m pre .vex len tail fun reg rm =>
        some (if b2.getLsbD 2 then .vsubpdVex3x256 pre (Vex3.ofBytes b1 b2) reg rm
          else .vsubpdVex3x128 pre (Vex3.ofBytes b1 b2) reg rm)
  | _ => .foreign .truncated 0

/-- The codes of `EVEX.RC` and `MXCSR.RC` (R27). -/
def Rounding.ofBits (b : BitVec 2) : Rounding :=
  if b = 0 then .rn else if b = 1 then .rd else if b = 2 then .ru else .rz

def Rounding.bits : Rounding → BitVec 2
  | .rn => 0
  | .rd => 1
  | .ru => 2
  | .rz => 3

def Evex.ofBytes (p0 p1 p2 : Byte) : Evex where
  r := !p0.getLsbD 7
  x := !p0.getLsbD 6
  b := !p0.getLsbD 5
  r2 := !p0.getLsbD 4
  vvvv := ~~~ p1.extractLsb' 3 4
  z := p2.getLsbD 7
  v2 := !p2.getLsbD 3
  aaa := p2.extractLsb' 0 3

/-- Which EVEX row `L'L` (`ll`), `b` and the operand select; `none` is `#UD` (R102, R103). -/
def evexInstr (pre : List Prefix) (e : Evex) (ll : BitVec 2) (b : Bool) (reg : BitVec 3)
    (rm : RmOperand) : Option Instr :=
  match rm, b with
  | .reg r, true => some (.vsubpdEvex512er pre e (Rounding.ofBits ll) reg r)
  | rm, b =>
    if ll = 0 then some (.vsubpdEvex128 pre e b reg rm)
    else if ll = 1 then some (.vsubpdEvex256 pre e b reg rm)
    else if ll = 2 then some (.vsubpdEvex512 pre e b reg rm)
    else none

/-- The `#UD` conditions of R114's first line for EVEX: a prefix, `P0[3:2]`, `P1[2]`, `mm` = 0. -/
def evexReserved (pre : List Prefix) (rex : Option Rex) (p0 p1 : Byte) : Bool :=
  pre.any Prefix.forbiddenBeforeVex || rex.isSome || decide (p0.extractLsb' 2 2 ≠ 0#2) ||
    !p1.getLsbD 2 || decide (p0.extractLsb' 0 2 = 0#2)

/-- The later `#UD` conditions that are no matter of the operand: `W` = 0, `z` with `aaa` = 0, and
in 32-bit mode a stored `V'` of 0 (R101, R104, R105, R117). -/
def evexIllegal (m : Mode) (p1 p2 : Byte) : Bool :=
  !p1.getLsbD 7 || (p2.getLsbD 7 && decide (p2.extractLsb' 0 3 = 0#3)) ||
    (decide (m ≠ .long64) && !p2.getLsbD 3)

/-- An illegal EVEX encoding: R114 reads ModRM before it looks at the opcode, and the operand that ModRM
announces counts whatever the opcode is (R115; log entry 17). -/
def illegalEvex (m : Mode) (pre : List Prefix) (len : Nat) (tail : List Byte) : Decoded :=
  illegal (len + tailLength m pre tail)

/-- R114 step 3, EVEX class, after `62` (R100 to R105): `P0`, `P1`, `P2`, opcode and ModRM are read first, so
they belong to whatever instruction this is. -/
def decodeEvex (m : Mode) (pre : List Prefix) (rex : Option Rex) : List Byte → Decoded
  | p0 :: p1 :: p2 :: op :: modRm :: rest =>
    let len := pre.length + rexLength rex + 5
    if !startsVex m p0 then .foreign .ldsLesBound (len - 3)
    else if evexReserved pre rex p0 p1 then illegalEvex m pre len (modRm :: rest)
    else if p0.extractLsb' 0 2 ≠ 1#2 ∨ p1.extractLsb' 0 2 ≠ 1#2 ∨ op ≠ 0x5C then
      .foreign .otherEvex (len + 1)
    else if evexIllegal m p1 p2 then illegalEvex m pre len (modRm :: rest)
    else
      withOperand m pre (.evex 512) len (modRm :: rest) fun reg rm =>
        evexInstr pre (Evex.ofBytes p0 p1 p2) (p2.extractLsb' 5 2) (p2.getLsbD 4) reg rm
  | _ => .foreign .truncated 0

/-- R114 step 3: the class by the first byte after prefixes and REX. -/
def decodeClass (m : Mode) (pre : List Prefix) (rex : Option Rex) : List Byte → Decoded
  | [] => .foreign .truncated 0
  | b :: rest =>
    let len := pre.length + rexLength rex + 1
    if b = 0x0F then
      match rest with
      | [] => .foreign .truncated 0
      | c :: tail => if c = 0x5C then decodeLegacy m pre rex tail else .foreign .otherOpcode (len + 1)
    else if b = 0xC5 then decodeVex2 m pre rex rest
    else if b = 0xC4 then decodeVex3 m pre rex rest
    else if b = 0x62 then decodeEvex m pre rex rest
    else .foreign .otherOpcode len

/-- The decode procedure R114, in a mode. Fifteen prefix bytes leave no room for an opcode: such an
instruction is too long whatever follows (R115; log entry 17), and its bytes are those that decoding goes on
to find. -/
def decode (m : Mode) (bytes : List Byte) : Decoded :=
  let sp := splitPrefixes m bytes
  let d := decodeClass m sp.1 (takeRex m sp.2).1 (takeRex m sp.2).2
  if sp.1.length ≥ 15 then .tooLong (max (sp.1.length + 1) d.consumed) else d

/-- The longest byte string that decides what bytes with at most 14 prefixes are: those, REX,
`62 P0 P1 P2 5C`, ModRM, SIB and disp32. -/
abbrev decodeWindow : Nat := 26

/-! ### The encoder (R95 to R105) -/

def rexBytes : Option Rex → List Byte
  | none => []
  | some p => [p.byte]

/-- The byte after `C5` (R96); `l` is `VEX.L`. -/
def Vex2.byte (p : Vex2) (l : Bool) : Byte :=
  BitVec.ofBool (!p.r) ++ ~~~ p.vvvv ++ BitVec.ofBool l ++ 1#2

/-- The first byte after `C4` (R97). -/
def Vex3.byte1 (p : Vex3) : Byte :=
  BitVec.ofBool (!p.r) ++ BitVec.ofBool (!p.x) ++ BitVec.ofBool (!p.b) ++ 1#5

/-- The second byte after `C4` (R97). -/
def Vex3.byte2 (p : Vex3) (l : Bool) : Byte :=
  BitVec.ofBool p.w ++ ~~~ p.vvvv ++ BitVec.ofBool l ++ 1#2

/-- `P0` (R100): `mm` = 01b. -/
def Evex.p0 (e : Evex) : Byte :=
  BitVec.ofBool (!e.r) ++ BitVec.ofBool (!e.x) ++ BitVec.ofBool (!e.b) ++ BitVec.ofBool (!e.r2) ++ 1#4

/-- `P1` (R100): `W` = 1, bit 2 = 1, `pp` = 01b. -/
def Evex.p1 (e : Evex) : Byte := 1#1 ++ ~~~ e.vvvv ++ 5#3

/-- `P2` (R100): `ll` is `L'L` or `RC`, `b` is `EVEX.b`. -/
def Evex.p2 (e : Evex) (ll : BitVec 2) (b : Bool) : Byte :=
  BitVec.ofBool e.z ++ ll ++ BitVec.ofBool b ++ BitVec.ofBool (!e.v2) ++ e.aaa

def preBytes (pre : List Prefix) : List Byte := pre.map Prefix.byte

def encodeVex2 (pre : List Prefix) (p : Vex2) (l : Bool) (reg : BitVec 3) (rm : RmOperand) : List Byte :=
  preBytes pre ++ 0xC5 :: p.byte l :: 0x5C :: encodeRm reg rm

def encodeVex3 (pre : List Prefix) (p : Vex3) (l : Bool) (reg : BitVec 3) (rm : RmOperand) : List Byte :=
  preBytes pre ++ 0xC4 :: p.byte1 :: p.byte2 l :: 0x5C :: encodeRm reg rm

def encodeEvex (pre : List Prefix) (e : Evex) (ll : BitVec 2) (b : Bool) (reg : BitVec 3)
    (rm : RmOperand) : List Byte :=
  preBytes pre ++ 0x62 :: e.p0 :: e.p1 :: e.p2 ll b :: 0x5C :: encodeRm reg rm

/-- The bytes of an instruction in address order. -/
def encode : Instr → List Byte
  | .subpd pre rex reg rm => preBytes pre ++ rexBytes rex ++ 0x0F :: 0x5C :: encodeRm reg rm
  | .vsubpdVex2x128 pre p reg rm => encodeVex2 pre p false reg rm
  | .vsubpdVex3x128 pre p reg rm => encodeVex3 pre p false reg rm
  | .vsubpdVex2x256 pre p reg rm => encodeVex2 pre p true reg rm
  | .vsubpdVex3x256 pre p reg rm => encodeVex3 pre p true reg rm
  | .vsubpdEvex128 pre e b reg rm => encodeEvex pre e 0 b reg rm
  | .vsubpdEvex256 pre e b reg rm => encodeEvex pre e 1 b reg rm
  | .vsubpdEvex512 pre e b reg rm => encodeEvex pre e 2 b reg rm
  | .vsubpdEvex512er pre e rc reg rm => encodeEvex pre e rc.bits true reg (.reg rm)

/-! ### The opcode table's words (log entry 22) -/

/-- The bytes of a table word, first byte in the most significant place, as the table's `match`,
`mask`, `fixed` and `fields` number them, then zeros. -/
def wordBytesHigh (n w : Nat) : List Byte :=
  (List.range n).map (fun k => BitVec.ofNat 8 (w >>> (8 * (n - 1 - k)))) ++ List.replicate 16 0

/-- The bytes of a word whose first byte is in the least significant place, then zeros. -/
def wordBytesLow (n w : Nat) : List Byte :=
  (List.range n).map (fun k => BitVec.ofNat 8 (w >>> (8 * k))) ++ List.replicate 16 0

/-- The bytes a table word stands for: the table's own numbering where that reads as an instruction,
else the numbering from the low end. -/
def tableBytes (nbits w : Nat) : List Byte :=
  match decode .long64 (wordBytesHigh (nbits / 8) w) with
  | .instr _ => wordBytesHigh (nbits / 8) w
  | _ => wordBytesLow (nbits / 8) w

/-- The instruction the decoder reads from a table word, in 64-bit mode (R116). -/
def decodeTableWord (nbits w : Nat) : Option Instr :=
  match decode .long64 (tableBytes nbits w) with
  | .instr i => some i
  | _ => none

end Sys2Proof
end

