-- ==== Sys2Proof/Machine/Numerics.lean ====
section
/-! DEFINITION. The lane operation: double precision subtraction (spec/40_numerics.md R140 to R159).
All of it is marked in the spec as general knowledge checked against hardware; the model follows the
reference definition R147 step by step (D5). -/

namespace Sys2Proof.Machine

open Sys2Proof

/-! ### The format (R140, R142) -/

def signOf (x : Quad) : Bool := x.getLsbD 63
def expOf (x : Quad) : Nat := (x.extractLsb' 52 11).toNat
def fracOf (x : Quad) : Nat := (x.extractLsb' 0 52).toNat

def isZero (x : Quad) : Bool := decide (expOf x = 0) && decide (fracOf x = 0)
def isDen (x : Quad) : Bool := decide (expOf x = 0) && decide (fracOf x ≠ 0)
def isNormal (x : Quad) : Bool := decide (1 ≤ expOf x) && decide (expOf x ≤ 2046)
def isInf (x : Quad) : Bool := decide (expOf x = 2047) && decide (fracOf x = 0)
def isSNaN (x : Quad) : Bool := decide (expOf x = 2047) && decide (fracOf x ≠ 0) && !x.getLsbD 51
def isQNaN (x : Quad) : Bool := decide (expOf x = 2047) && x.getLsbD 51
def isNaN (x : Quad) : Bool := isSNaN x || isQNaN x
def isFinite (x : Quad) : Bool := decide (expOf x ≠ 2047)

/-- A NaN made quiet: `frac[51]` set, the rest kept (R142). -/
def quiet (x : Quad) : Quad := x ||| 0x0008000000000000#64

/-- The value with its sign bit inverted (R142). -/
def negate (x : Quad) : Quad := x ^^^ 0x8000000000000000#64

/-- `MAXF`, the largest finite value (R140). -/
def maxFinite : Quad := 0x7FEFFFFFFFFFFFFF#64

/-- `+inf` (R140). -/
def plusInf : Quad := 0x7FF0000000000000#64

/-- The QNaN indefinite (R140). -/
def qnanIndefinite : Quad := 0xFFF8000000000000#64

/-- A value from its sign, biased exponent and fraction (R140). -/
def pack (s : Bool) (e f : Nat) : Quad := BitVec.ofBool s ++ BitVec.ofNat 11 e ++ BitVec.ofNat 52 f

/-- A positive value given the sign (R147 step 7, `s ++ w[62:0]`). -/
def withSign (s : Bool) (w : Quad) : Quad := BitVec.ofBool s ++ w.extractLsb' 0 63

/-- The zero of a sign. -/
def signedZero (s : Bool) : Quad := withSign s 0

/-! ### Exact values (R143) -/

/-- `M(x)`, the significand as an integer. -/
def significand (x : Quad) : Nat := if expOf x = 0 then fracOf x else 2 ^ 52 + fracOf x

/-- `|I(x)|`. -/
def magnitude (x : Quad) : Nat := significand x * 2 ^ (max (expOf x) 1 - 1)

/-- `I(x)`: the real value of a finite `x` is `I(x) * 2^-1074`. -/
def intValue (x : Quad) : Int := if signOf x then -(magnitude x : Int) else (magnitude x : Int)

/-- Denormals-are-zeros (R145). -/
def dazIn (x : Quad) (daz : Bool) : Quad :=
  if daz && isDen x then x &&& 0x8000000000000000#64 else x

/-! ### COND and FSUB64 (R147) -/

/-- What `COND` returns: the result before flush-to-zero and five conditions. -/
structure Cond where
  r : Quad
  inv : Bool
  den : Bool
  ovf : Bool
  tiny : Bool
  inx : Bool
  deriving DecidableEq, Repr

/-- A result with no condition but, possibly, a denormal operand. -/
def Cond.plain (r : Quad) (den : Bool) : Cond := ⟨r, false, den, false, false, false⟩

/-- The result of an overflow, by rounding mode and sign (R147 step 7, R151). -/
def overflowResult (rc : Rounding) (s : Bool) : Quad :=
  match rc, s with
  | .rn, s => withSign s plusInf
  | .rz, s => withSign s maxFinite
  | .rd, false => maxFinite
  | .rd, true => withSign true plusInf
  | .ru, false => plusInf
  | .ru, true => withSign true maxFinite

/-- Whether rounding adds one unit to the truncated significand `n`, the bits dropped being `rem` of
`2 * half` (R147 step 6). -/
def roundsUp (rc : Rounding) (s : Bool) (n rem half : Nat) : Bool :=
  decide (rem ≠ 0) &&
    match rc with
    | .rn => decide (rem > half) || (decide (rem = half) && decide (n % 2 = 1))
    | .rd => s
    | .ru => !s
    | .rz => false

/-- R147 steps 6 and 7 on a magnitude of more than 53 bits: round to 53 bits with the exponent
unbounded, then look for overflow. `sh` is how many bits are dropped. -/
def roundLong (m sh : Nat) (s : Bool) (rc : Rounding) (den : Bool) : Cond :=
  let n := m >>> sh
  let rem := m % 2 ^ sh
  let up := roundsUp rc s n rem (2 ^ (sh - 1))
  let n1 := if up then n + 1 else n
  let carry := decide (n1 = 2 ^ 53)
  let n2 := if carry then 2 ^ 52 else n1
  let e := (if carry then sh + 1 else sh) + 1
  if e ≥ 2047 then ⟨overflowResult rc s, false, den, true, false, decide (rem ≠ 0)⟩
  else ⟨pack s e (n2 - 2 ^ 52), false, den, false, false, decide (rem ≠ 0)⟩

/-- R147 steps 4 to 7: the exact difference `d * 2^-1074` of two finite operands as a double. `sa` and
`sb` are the operands' signs, which decide the sign of a zero (R150). -/
def roundDifference (d : Int) (sa sb : Bool) (rc : Rounding) (den : Bool) : Cond :=
  if d = 0 then
    if sa = !sb then .plain (signedZero sa) den
    else .plain (signedZero (decide (rc = .rd))) den
  else
    let s := decide (d < 0)
    let m := d.natAbs
    let l := m.log2 + 1
    if l ≤ 52 then ⟨pack s 0 m, false, den, false, true, false⟩
    else if l = 53 then .plain (pack s 1 (m - 2 ^ 52)) den
    else roundLong m (l - 53) s rc den

/-- `COND` after denormals-are-zeros (R147 steps 1 to 7, R148 to R151). -/
def condOf (a b : Quad) (rc : Rounding) : Cond :=
  if isNaN a || isNaN b then
    ⟨if isNaN a then quiet a else quiet b, isSNaN a || isSNaN b, false, false, false, false⟩
  else
    let den := isDen a || isDen b
    if isInf a && isInf b then
      if signOf a = signOf b then ⟨qnanIndefinite, true, false, false, false, false⟩
      else .plain a false
    else if isInf a then .plain a den
    else if isInf b then .plain (negate b) den
    else roundDifference (intValue a - intValue b) (signOf a) (signOf b) rc den

/-- `COND` (R147). -/
def cond (a b : Quad) (rc : Rounding) (daz : Bool) : Cond := condOf (dazIn a daz) (dazIn b daz) rc

/-- A set of the five exception flags these forms can set (R141). -/
structure FlagSet where
  ie : Bool
  de : Bool
  oe : Bool
  ue : Bool
  pe : Bool
  deriving DecidableEq, Repr

/-- `FSUB64` (R147): the result and the flags of a lane when every exception is masked, from its
`COND`. -/
def Cond.masked (c : Cond) (ftz : Bool) : Quad × FlagSet :=
  let flushed := c.tiny && ftz
  (if flushed then signedZero (signOf c.r) else c.r,
    { ie := c.inv, de := c.den, oe := c.ovf, ue := flushed, pe := c.ovf || c.inx || flushed })

/-- `FSUB64` (R147). -/
def fsub64 (a b : Quad) (rc : Rounding) (daz ftz : Bool) : Quad × FlagSet :=
  (cond a b rc daz).masked ftz

end Sys2Proof.Machine
end

