-- ==== Sys2Proof/Machine/State.lean ====
section
/-! DEFINITION. The state of the machine (spec/10_state.md), its reset, and the reasons a step can
stop (spec/60_exceptions.md R210, R228). -/

namespace Sys2Proof.Machine

open Sys2Proof

/-- Memory: the listed bytes by linear address, strictly rising, none of them zero. An unlisted byte
reads as zero: DESIGN CHOICE, unsafe (log entry 3; R39 "unspecified"). -/
abbrev Memory := List Host.Cell

/-- The two kinds of access (R62). -/
inductive AccessKind where
  | read
  | fetch
  deriving DecidableEq, Repr

/-- The error-code bits of a page fault that paging decides (R221): `P`, `RSVD`, `PK`, `SS`, `SGX`. -/
structure PageBits where
  p : Bool
  rsvd : Bool
  pk : Bool
  ss : Bool
  sgx : Bool
  deriving DecidableEq, Repr

/-- What denies an access: a segment's limit or rights (32-bit mode, R219), paging (R221), or that
the bytes are not ordinary memory (R71). -/
inductive Deny where
  | segment
  | page (bits : PageBits)
  | device
  deriving DecidableEq, Repr

/-- One denial: it holds for the bytes `first` to `last` of the linear space, for accesses of the
kind, through the segments and at the privilege levels listed. -/
structure AccessRule where
  kind : AccessKind
  segs : List Seg
  cpls : List (BitVec 2)
  first : Nat
  last : Nat
  deny : Deny
  deriving DecidableEq, Repr

/-- The segment bases (R32, R39). -/
structure SegBases where
  cs : Quad
  ss : Quad
  ds : Quad
  es : Quad
  fs : Quad
  gs : Quad
  deriving DecidableEq, Repr

/-- The machine's state (R20), with the parameters of R6 and the access check `Access` of R62 as
plain data (log entries 4 and 5). -/
structure State where
  /-- vector registers `V[n]` (R21); bits at and above `MAXVL` are not the machine's and are 0 -/
  v : Vector Vec Config.vecCount
  /-- opmask registers `K[n]` (R24); bits at and above `KW` are not the machine's and are 0 -/
  k : Vector (BitVec Config.opmaskBits) 8
  /-- R26 -/
  mxcsr : BitVec 32
  /-- the program counter (R30) -/
  rip : Quad
  /-- general registers (R31) -/
  x : Vector Quad 16
  seg : SegBases
  /-- R33 -/
  rflags : Quad
  /-- R34 -/
  cr0 : Quad
  /-- the faulting linear address of the last page fault (R221) -/
  cr2 : Quad
  /-- R34 -/
  cr4 : Quad
  /-- R34 -/
  xcr0 : Quad
  /-- the register whose bit `LME` software sets to enter long mode (R261); no form reads it -/
  efer : Quad
  /-- `MODE` (R6) -/
  mode : Mode
  /-- `CPL` (R6, R231) -/
  cpl : BitVec 2
  mem : Memory
  access : List AccessRule
  params : Params
  deriving DecidableEq, Repr

/-- The state after power-up or `RESET#` (R39, R260). Values the spec does not give: RDX (log entry
1), CR2 (log entry 2), memory (3), `access` (4), `params` (5), EFER (33). -/
def State.reset : State where
  v := Vector.replicate Config.vecCount 0
  k := Vector.replicate 8 0
  mxcsr := 0x00001F80
  rip := 0x0000FFF0
  x := Vector.replicate 16 0
  seg := { cs := 0xFFFF0000, ss := 0, ds := 0, es := 0, fs := 0, gs := 0 }
  rflags := 0x00000002
  cr0 := 0x60000010
  cr2 := 0
  cr4 := 0
  xcr0 := 1
  efer := 0
  mode := .real
  cpl := 0
  mem := []
  access := []
  params := Params.default

/-- The exceptions the six forms can raise (R210). The run ends with one of them (R228, D11): safe
to the extent that real hardware would go on in a handler. Each carries the state at that point: the
state before the instruction, but for the MXCSR flags of R214 and CR2 (log entries 15 and 16). -/
inductive Fault where
  /-- `#UD`, vector 6: raised by decoding (R105, R114, R119), by the enable checks (R216), and for an
  unmasked floating-point exception with `CR4.OSXMMEXCPT` = 0 (R215). Safe: the spec names it. -/
  | invalidOpcode (s : State)
  /-- `#NM`, vector 7: raised by the enable checks when `CR0.TS` = 1 (R217). Safe: the spec names it. -/
  | deviceNotAvailable (s : State)
  /-- `#SS(0)`, vector 12: raised by a data access through SS (R219). Safe: the spec names it. -/
  | stackSegment (s : State)
  /-- `#GP(0)`, vector 13: raised by alignment (R218), by a data access or a fetch (R219, R225) and by
  an instruction over 15 bytes (R115). Safe: the spec names it. -/
  | generalProtection (s : State)
  /-- `#PF(code)`, vector 14, with the error code and the CR2 value: raised by a data access or a
  fetch (R221). Safe: the spec names it; which of several faulting bytes it reports is free. -/
  | pageFault (code : BitVec 32) (cr2 : Quad) (s : State)
  /-- `#AC(0)`, vector 17: may be raised by a misaligned broadcast element with alignment checking on
  (R65, R210). Whether it is raised is a free value (log entry 10), so it is safe. -/
  | alignmentCheck (s : State)
  /-- `#XM`, vector 19: raised by an unmasked floating-point exception (R213, R215). Safe: the spec
  names it. -/
  | simdFloatingPoint (s : State)
  deriving DecidableEq, Repr

/-- What this spec gives no meaning to (R5, R267). A refusal claims nothing, so each is safe. -/
inductive Refusal where
  /-- An arm of `exec` without a meaning. No arm is one. -/
  | notModelled (mnemonic : String)
  /-- Raised by `step`: the bytes are not one of the six forms (R5, R118, R117). -/
  | notThisInstruction (why : Foreign)
  /-- Raised by the enable checks: the legacy form in real-address or virtual-8086 mode, once it is
  enabled there (R5, D28). -/
  | modeNotDescribed
  /-- Raised by a data access or a fetch that runs past the top of the address space (U6, D21). -/
  | addressWrap
  /-- Raised by a data access or a fetch of bytes that are not ordinary memory (R71, D26, U15). -/
  | deviceMemory
  deriving DecidableEq, Repr

end Sys2Proof.Machine
end

