-- ==== Sys2Proof/Machine/Ops.lean ====
section
/-! DEFINITION. The operations every meaning is built from: memory, registers, the access check, the
enable checks, raising an exception (spec/10_state.md, 20_memory.md, 60_exceptions.md). -/

namespace Sys2Proof.Machine

open Sys2Proof

/-! ### Stopping -/

/-- Why an instruction does not complete. -/
inductive Stop where
  | fault (f : Fault)
  | refuse (r : Refusal)
  deriving DecidableEq, Repr

def Stop.outcome : Stop → Host.Outcome State Fault Refusal
  | .fault f => .fault f
  | .refuse r => .refused r

/-- The outcome of a computation that ends in a next state or stops. -/
def outcome : Except Stop State → Host.Outcome State Fault Refusal
  | .ok s => .next s
  | .error st => st.outcome

/-- An exception before the state is attached (R210). -/
inductive Exc where
  | ud
  | nm
  | ss
  | gp
  | pf (code : BitVec 32) (addr : Quad)
  | ac
  | xm
  deriving DecidableEq, Repr

/-- Taking an exception (`raise`, R228): the run ends, and the state is kept as it is, the pc still at
the faulting instruction; a page fault records its address in CR2 (R221). Delivery to a handler and
the return from one are out of scope (R5, R227, R229). -/
def raise (e : Exc) (s : State) : Fault :=
  match e with
  | .ud => .invalidOpcode s
  | .nm => .deviceNotAvailable s
  | .ss => .stackSegment s
  | .gp => .generalProtection s
  | .pf code addr => .pageFault code addr { s with cr2 := addr }
  | .ac => .alignmentCheck s
  | .xm => .simdFloatingPoint s

/-- The exception vector a fault reports (R210). -/
def Fault.vector : Fault → Nat
  | .invalidOpcode _ => 6
  | .deviceNotAvailable _ => 7
  | .stackSegment _ => 12
  | .generalProtection _ => 13
  | .pageFault _ _ _ => 14
  | .alignmentCheck _ => 17
  | .simdFloatingPoint _ => 19

/-- The error code a fault reports, where it has one (R210). -/
def Fault.errorCode : Fault → Option (BitVec 32)
  | .invalidOpcode _ => none
  | .deviceNotAvailable _ => none
  | .stackSegment _ => some 0
  | .generalProtection _ => some 0
  | .pageFault code _ _ => some code
  | .alignmentCheck _ => some 0
  | .simdFloatingPoint _ => none

/-- `extra` of R228: the CR2 value of a page fault. -/
def Fault.extra : Fault → Option Quad
  | .pageFault _ cr2 _ => some cr2
  | _ => none

/-- The state at the point of the fault (R228). -/
def Fault.state : Fault → State
  | .invalidOpcode s => s
  | .deviceNotAvailable s => s
  | .stackSegment s => s
  | .generalProtection s => s
  | .pageFault _ _ s => s
  | .alignmentCheck s => s
  | .simdFloatingPoint s => s

/-! ### Memory (R60, R61) -/

/-- The byte at an address; an unlisted one is zero (log entry 3). -/
def Memory.read : Memory → Nat → Byte
  | [], _ => 0#8
  | (a, b) :: rest, n => if a = n then b else Memory.read rest n

/-- Memory with one byte changed, in canonical form. -/
def Memory.write : Memory → Nat → Byte → Memory
  | [], n, b => if b = 0#8 then [] else [(n, b)]
  | (a, c) :: rest, n, b =>
    if n < a then (if b = 0#8 then (a, c) :: rest else (n, b) :: (a, c) :: rest)
    else if n = a then (if b = 0#8 then rest else (n, b) :: rest)
    else (a, c) :: Memory.write rest n b

/-- Every listed address is at least `lo`, addresses rise strictly, no listed byte is zero. -/
def Memory.wfFrom : Nat → Memory → Bool
  | _, [] => true
  | lo, (a, b) :: rest => decide (lo ≤ a) && decide (b ≠ 0#8) && Memory.wfFrom (a + 1) rest

/-- The canonical form of memory. -/
def Memory.wf (m : Memory) : Bool := Memory.wfFrom 0 m

/-- The bytes of a list at consecutive addresses. -/
def Memory.writeBytes : Memory → Nat → List Byte → Memory
  | m, _, [] => m
  | m, n, b :: bs => Memory.writeBytes (Memory.write m n b) (n + 1) bs

/-- `n` bytes from an address upward. -/
def Memory.readBytes (m : Memory) (a : Nat) : Nat → List Byte
  | 0 => []
  | n + 1 => Memory.read m a :: Memory.readBytes m (a + 1) n

/-- Eight bytes as a 64-bit value, the byte at the lowest address in bits 7:0 (R61). -/
def Memory.readQuad (m : Memory) (a : Nat) : Quad :=
  m.read (a + 7) ++ m.read (a + 6) ++ m.read (a + 5) ++ m.read (a + 4) ++
    m.read (a + 3) ++ m.read (a + 2) ++ m.read (a + 1) ++ m.read a

/-! ### Registers (R21, R22, R24, R31) -/

/-- Lane `j` of a register: bits `64j+63:64j` (R22). -/
def lane (r : Vec) (j : Nat) : Quad := r.extractLsb' (64 * j) 64

/-- Lanes from lane 0 up, as one register; the bits above them are zero. -/
def packLanes : List Quad → Vec
  | [] => 0
  | q :: qs => packLanes qs <<< 64 ||| q.zeroExtend 512

def State.readV (s : State) (n : BitVec 5) : Vec := s.v[n.toNat]'n.isLt

def State.writeV (s : State) (n : BitVec 5) (r : Vec) : State :=
  { s with v := s.v.set n.toNat r n.isLt }

/-- An opmask register: its low `KW` bits (R24). -/
def State.readK (s : State) (n : BitVec 3) : BitVec Config.opmaskBits :=
  match s.params.kw with
  | .w16 => ((s.k[n.toNat]'n.isLt).truncate 16).zeroExtend 64
  | .w64 => s.k[n.toNat]'n.isLt

def State.readX (s : State) (n : BitVec 4) : Quad := s.x[n.toNat]'n.isLt

/-- `NVEC` here and now (R6). -/
def State.nvec (s : State) : Nat := s.params.nvec s.mode

/-- A register number in the mode: `n` modulo `NVEC`. Outside 64-bit mode only numbers 0 to 7 can be named,
and the bits that would extend them are ignored (R23, R117); in 64-bit mode no enabled form names a
register beyond `NVEC`. -/
def State.vreg (s : State) (n : BitVec 5) : BitVec 5 := BitVec.ofNat 5 (n.toNat % s.nvec)

/-- The address of the byte after an instruction of `len` bytes (R30): 64 bits in 64-bit mode,
else 32 bits. -/
def State.nextPc (s : State) (len : Nat) : Quad :=
  if s.mode = .long64 then s.rip + BitVec.ofNat 64 len
  else ((s.rip + BitVec.ofNat 64 len).truncate 32).zeroExtend 64

/-! ### Control bits (R33, R34, R36) -/

def State.cr0EM (s : State) : Bool := s.cr0.getLsbD 2
def State.cr0TS (s : State) : Bool := s.cr0.getLsbD 3
def State.cr0AM (s : State) : Bool := s.cr0.getLsbD 18
def State.rflagsAC (s : State) : Bool := s.rflags.getLsbD 18
def State.osfxsr (s : State) : Bool := s.cr4.getLsbD 9
def State.osxmmexcpt (s : State) : Bool := s.cr4.getLsbD 10
def State.osxsave (s : State) : Bool := s.cr4.getLsbD 18

/-- `SSE_USABLE` (R36). -/
def State.sseUsable (s : State) : Bool := s.params.hasSSE2 && !s.cr0EM && s.osfxsr

/-- `AVX_USABLE` (R36). -/
def State.avxUsable (s : State) : Bool :=
  s.params.hasAVX && s.osxsave && decide (s.xcr0.extractLsb' 1 2 = 3#2)

/-- `AVX512_USABLE(VL)` (R36). -/
def State.avx512Usable (s : State) (vl : Nat) : Bool :=
  s.params.hasAVX512F && (decide (vl = 512) || s.params.hasAVX512VL) && s.osxsave &&
    decide (s.xcr0.extractLsb' 1 2 = 3#2) && decide (s.xcr0.extractLsb' 5 3 = 7#3)

/-- Real-address or virtual-8086 mode. -/
def Mode.is8086 : Mode → Bool
  | .real => true
  | .virtual8086 => true
  | .prot32 => false
  | .long64 => false

/-- Whether a class of forms is enabled: no `#UD` of R216 but the encoding ones. -/
def State.usable (s : State) : FormClass → Bool
  | .legacy => s.sseUsable
  | .vex => s.avxUsable && !Mode.is8086 s.mode
  | .evex vl => s.avx512Usable vl && !Mode.is8086 s.mode

/-- The enable checks, after decoding and before any operand is touched (R216, R217, R224 steps 4
and 5). The legacy form in real-address or virtual-8086 mode is not described further (D28). -/
def enableCheck (c : FormClass) (s : State) : Except Stop Unit :=
  if !s.usable c then .error (.fault (raise .ud s))
  else if s.cr0TS then .error (.fault (raise .nm s))
  else if Mode.is8086 s.mode then .error (.refuse .modeNotDescribed)
  else .ok ()

/-! ### The access check (R60, R62, R219, R221) -/

/-- The number of bytes of the linear space (R60). -/
def spaceTop (m : Mode) : Nat := if m = .long64 then 2 ^ 64 else 2 ^ 32

/-- Bits `63:LAW-1` of the address are all equal (R60). -/
def canonical (law : LinearWidth) (a : Nat) : Bool :=
  decide (a < 2 ^ (law.bits - 1)) || decide (2 ^ 64 - 2 ^ (law.bits - 1) ≤ a)

/-- Whether a denial is about this access to this byte. -/
def AccessRule.covers (r : AccessRule) (s : State) (kind : AccessKind) (sg : Seg) (a : Nat) : Bool :=
  decide (r.kind = kind) && r.segs.contains sg && r.cpls.contains s.cpl &&
    decide (r.first ≤ a) && decide (a ≤ r.last)

/-- The byte is outside the canonical space (64-bit mode) or outside its segment (other modes): the
cause of `#SS(0)` or `#GP(0)` (R219, R225). In 64-bit mode no limit is checked (R32). -/
def outside (s : State) (kind : AccessKind) (sg : Seg) (a : Nat) : Bool :=
  if s.mode = .long64 then !canonical s.params.law a
  else s.access.any fun r => decide (r.deny = .segment) && r.covers s kind sg a

/-- The paging bits of the first denial by paging of this byte. -/
def pageDenial (s : State) (kind : AccessKind) (sg : Seg) (a : Nat) : Option PageBits :=
  s.access.findSome? fun r =>
    match r.deny with
    | .page bits => if r.covers s kind sg a then some bits else none
    | _ => none

/-- The byte is not ordinary memory (R71). -/
def isDevice (s : State) (kind : AccessKind) (sg : Seg) (a : Nat) : Bool :=
  s.access.any fun r => decide (r.deny = .device) && r.covers s kind sg a

/-- The error code of a page fault (R221): bit 0 `P`, bit 1 `W/R` = 0, bit 2 `U/S`, bit 3 `RSVD`, bit 4
`I/D`, bit 5 `PK`, bit 6 `SS`, bit 15 `SGX`. -/
def pageFaultCode (bits : PageBits) (cpl : BitVec 2) (kind : AccessKind) : BitVec 32 :=
  0#16 ++ BitVec.ofBool bits.sgx ++ 0#8 ++ BitVec.ofBool bits.ss ++ BitVec.ofBool bits.pk ++
    BitVec.ofBool (decide (kind = .fetch)) ++ BitVec.ofBool bits.rsvd ++
    BitVec.ofBool (decide (cpl = 3)) ++ 0#1 ++ BitVec.ofBool bits.p

/-- The page fault over these bytes, if paging refuses one: it reports one of the refused bytes,
which one being a free value (R221, U5). -/
def pageFault? (s : State) (kind : AccessKind) (sg : Seg) (bytes : List Nat) : Option Exc :=
  match bytes.filter fun a => (pageDenial s kind sg a).isSome with
  | [] => none
  | a :: bad =>
    let hit := (a :: bad).getD (Config.pageFaultPick (a :: bad) % (bad.length + 1)) a
    (pageDenial s kind sg hit).map fun bits =>
      .pf (pageFaultCode bits s.cpl kind) (BitVec.ofNat 64 hit)

/-- The exception for a data byte outside the space: `#SS(0)` exactly through SS (R219). -/
def outsideExc (sg : Seg) : Exc := if sg = .ss then .ss else .gp

/-- The checks on the bytes of a data read (R62, R69, R195; R224 steps 7 and 8). `gpBytes` are checked
for `#SS(0)` and `#GP(0)`, `needed` for the rest. -/
def dataCheck (s : State) (sg : Seg) (gpBytes needed : List Nat) : Except Stop Unit :=
  if (gpBytes ++ needed).any fun a => decide (spaceTop s.mode ≤ a) then .error (.refuse .addressWrap)
  else if gpBytes.any (outside s .read sg) then .error (.fault (raise (outsideExc sg) s))
  else
    match pageFault? s .read sg needed with
    | some e => .error (.fault (raise e s))
    | none => if needed.any (isDevice s .read sg) then .error (.refuse .deviceMemory) else .ok ()

/-! ### Bringing the machine to where a program runs (R40, R260, R261) -/

/-- `INIT`, a warm reset (R260): the reset values, but vector and opmask registers, MXCSR and XCR0 keep
theirs. Memory, `access` and `params` are not the processor's and stay (log entry 27). -/
def State.warmReset (s : State) : State :=
  { State.reset with
    v := s.v, k := s.k, mxcsr := s.mxcsr, xcr0 := s.xcr0,
    mem := s.mem, access := s.access, params := s.params }

/-- R261 step 1: 64-bit mode, with `CR0.PE`, `CR0.PG`, `CR4.PAE` and `EFER.LME` set. The places of those
bits (0, 31, 5, 8) are the family's: PRESUMED (log entry 33). -/
def State.enterLongMode (s : State) : State :=
  { s with
    mode := .long64,
    cr0 := s.cr0 ||| 0x80000001#64,
    cr4 := s.cr4 ||| 0x20#64,
    efer := s.efer ||| 0x100#64 }

/-- R261 steps 3 to 7: `CR0.EM` = 0 and `CR0.TS` = 0, `CR0.MP` = 1 (bit 1, PRESUMED, log entry 33),
`CR4.OSFXSR`, `OSXMMEXCPT` and `OSXSAVE` = 1, `XCR0` bits 0, 1, 2, 5, 6 and 7 = 1. -/
def State.enableForms (s : State) : State :=
  { s with
    cr0 := (s.cr0 &&& ~~~0xC#64) ||| 0x2#64,
    cr4 := s.cr4 ||| 0x40600#64,
    xcr0 := s.xcr0 ||| 0xE7#64 }

/-- The launch premises of R40 and D15, which software outside the six forms brings about (R261 steps 1
to 7), and no denial of instruction fetch. Everything else is as it was (log entry 21). -/
def State.launch (s : State) : State :=
  { s.enterLongMode.enableForms with
    access := s.access.filter fun r => decide (r.kind ≠ .fetch) }

end Sys2Proof.Machine
end

