-- ==== Sys2Proof/Machine/Flags.lean ====
section
/-! DEFINITION. MXCSR and the packed floating-point part of every form (spec/10_state.md R26 to R29,
spec/60_exceptions.md R212 to R215). -/

namespace Sys2Proof.Machine

open Sys2Proof

/-! ### MXCSR fields (R26, R27) -/

def mxDAZ (m : BitVec 32) : Bool := m.getLsbD 6
def mxIM (m : BitVec 32) : Bool := m.getLsbD 7
def mxDM (m : BitVec 32) : Bool := m.getLsbD 8
def mxOM (m : BitVec 32) : Bool := m.getLsbD 10
def mxUM (m : BitVec 32) : Bool := m.getLsbD 11
def mxPM (m : BitVec 32) : Bool := m.getLsbD 12
def mxRC (m : BitVec 32) : Rounding := Rounding.ofBits (m.extractLsb' 13 2)
def mxFTZ (m : BitVec 32) : Bool := m.getLsbD 15

/-! ### Sets of flags -/

def FlagSet.empty : FlagSet := ⟨false, false, false, false, false⟩

def FlagSet.union (f g : FlagSet) : FlagSet :=
  ⟨f.ie || g.ie, f.de || g.de, f.oe || g.oe, f.ue || g.ue, f.pe || g.pe⟩

def FlagSet.inter (f g : FlagSet) : FlagSet :=
  ⟨f.ie && g.ie, f.de && g.de, f.oe && g.oe, f.ue && g.ue, f.pe && g.pe⟩

def FlagSet.nonempty (f : FlagSet) : Bool := f.ie || f.de || f.oe || f.ue || f.pe

def FlagSet.unions (fs : List FlagSet) : FlagSet := fs.foldr FlagSet.union FlagSet.empty

/-- The flags at their bits of MXCSR: IE 0, DE 1, OE 3, UE 4, PE 5; ZE (bit 2) never (R26, R141). -/
def FlagSet.word (f : FlagSet) : BitVec 6 :=
  BitVec.ofBool f.pe ++ BitVec.ofBool f.ue ++ BitVec.ofBool f.oe ++ 0#1 ++ BitVec.ofBool f.de ++
    BitVec.ofBool f.ie

def FlagSet.ofWord (w : BitVec 6) : FlagSet :=
  ⟨w.getLsbD 0, w.getLsbD 1, w.getLsbD 3, w.getLsbD 4, w.getLsbD 5⟩

/-- MXCSR with flags OR-ed in; flags are sticky (R28, R156). -/
def orFlags (m : BitVec 32) (f : FlagSet) : BitVec 32 := m ||| f.word.zeroExtend 32

/-- The flags of a set whose exceptions MXCSR leaves unmasked (R212). -/
def unmasked (m : BitVec 32) (f : FlagSet) : FlagSet :=
  ⟨f.ie && !mxIM m, f.de && !mxDM m, f.oe && !mxOM m, f.ue && !mxUM m, f.pe && !mxPM m⟩

/-! ### PACKED_SUB (R213, R214, R215) -/

/-- The pre-computation flags of a lane (R213 phase 1). -/
def Cond.pre (c : Cond) : FlagSet := ⟨c.inv, c.den, false, false, false⟩

/-- The post-computation flags of a lane, `POST_j` (R213 phase 2). -/
def Cond.post (c : Cond) (m : BitVec 32) : FlagSet :=
  ⟨false, false, c.ovf, c.tiny && (!mxUM m || mxFTZ m),
    c.inx || (c.ovf && mxOM m) || (c.tiny && mxFTZ m && mxUM m)⟩

/-- One flag of a non-empty set, the lowest. -/
def FlagSet.lowest (f : FlagSet) : FlagSet :=
  if f.ie then ⟨true, false, false, false, false⟩
  else if f.de then ⟨false, true, false, false, false⟩
  else if f.oe then ⟨false, false, true, false, false⟩
  else if f.ue then ⟨false, false, false, true, false⟩
  else ⟨false, false, false, false, f.pe⟩

/-- The loose reading of `XM_FLAGS` (R214, U8): a free subset of the candidate flags that holds the
flag of an unmasked condition. -/
def looseFlags (s : State) (candidates : FlagSet) : FlagSet :=
  let pick := candidates.inter (FlagSet.ofWord (Config.looseXmFlags s.rip s.mxcsr))
  if (unmasked s.mxcsr pick).nonempty then pick
  else pick.union (unmasked s.mxcsr candidates).lowest

/-- `raise SIMD_FP` (R215) after the flags of R214, which are `twoPhase` under the default `XM_FLAGS`;
`candidates` are all flags of the active lanes. -/
def raiseSimd (s : State) (twoPhase candidates : FlagSet) : Stop :=
  let flags :=
    match s.params.xmFlags with
    | .twoPhase => twoPhase
    | .loose => looseFlags s candidates
  .fault (raise (if s.osxmmexcpt then .xm else .ud) { s with mxcsr := orFlags s.mxcsr flags })

/-- The conditions of the active lanes among the first `n` (R213). -/
def laneConds (n : Nat) (a b : Nat → Quad) (active : Nat → Bool) (rc : Rounding) (daz : Bool) :
    List Cond :=
  ((List.range n).filter active).map fun j => cond (a j) (b j) rc daz

/-- The floating-point exceptions of a packed subtraction: MXCSR after it, or the raise (R213). -/
def packedFlags (s : State) (cs : List Cond) : Except Stop (BitVec 32) :=
  let pre := FlagSet.unions (cs.map Cond.pre)
  let post := FlagSet.unions (cs.map fun c => c.post s.mxcsr)
  if (unmasked s.mxcsr pre).nonempty then .error (raiseSimd s pre (pre.union post))
  else if (unmasked s.mxcsr post).nonempty then
    .error (raiseSimd s (pre.union post) (pre.union post))
  else .ok (orFlags s.mxcsr (pre.union post))

/-- Lane `j` of the result when nothing is raised: the masked result of R147. -/
def laneResult (s : State) (a b : Nat → Quad) (rc : Rounding) (j : Nat) : Quad :=
  (fsub64 (a j) (b j) rc (mxDAZ s.mxcsr) (mxFTZ s.mxcsr)).1

/-- `PACKED_SUB(n, A, B, active, rc, sae)` (R213): MXCSR after it, or the raise. The results are
`laneResult`. Under suppress-all-exceptions no flag is written and nothing is raised (R198). -/
def packedSub (s : State) (n : Nat) (a b : Nat → Quad) (active : Nat → Bool) (rc : Rounding)
    (sae : Bool) : Except Stop (BitVec 32) :=
  if sae then .ok s.mxcsr
  else packedFlags s (laneConds n a b active rc (mxDAZ s.mxcsr))

end Sys2Proof.Machine
end

