-- ==== Sys2Proof/Machine/Operands.lean ====
section
/-! DEFINITION. Operand forms: register numbers, the effective address, the second source
(spec/30_encoding.md R93, R109 to R112, spec/20_memory.md R63, R69, R195). -/

namespace Sys2Proof.Machine

open Sys2Proof

/-! ### Register numbers (R112) -/

/-- A 4-bit number from an extension bit and a 3-bit field. -/
def num4 (hi : Bool) (lo : BitVec 3) : BitVec 4 := BitVec.ofBool hi ++ lo

/-- A 5-bit vector register number. -/
def num5 (top hi : Bool) (lo : BitVec 3) : BitVec 5 := BitVec.ofBool top ++ BitVec.ofBool hi ++ lo

/-- A vector register number from a 4-bit field such as `vvvv`. -/
def vvvvNum (top : Bool) (vvvv : BitVec 4) : BitVec 5 := BitVec.ofBool top ++ vvvv

/-- An extension bit, which only 64-bit mode reads (R117). -/
def State.ext (s : State) (bit : Bool) : Bool := decide (s.mode = .long64) && bit

/-! ### The effective address (R93, R109, R110, R111) -/

/-- The segment override, the last one winning (R93; D23, log entry 12). -/
def segOverride (pre : List Prefix) : Option Seg :=
  pre.foldl (fun acc p => match p with
    | .seg s => some s
    | _ => acc) none

/-- Whether addresses are 32 bits: a `67` prefix in 64-bit mode (R93), and always outside it (R117). -/
def addr32 (s : State) (pre : List Prefix) : Bool :=
  decide (s.mode ≠ .long64) || pre.contains .addrSize

/-- An address truncated to the address size and zero-extended (R93, R109). -/
def truncAddr (is32 : Bool) (a : Quad) : Quad :=
  if is32 then (a.truncate 32).zeroExtend 64 else a

/-- `g(i)`: the low `AS` bits of a general register (R109). -/
def addrReg (s : State) (is32 : Bool) (n : BitVec 4) : Quad := truncAddr is32 (s.readX n)

/-- The displacement, an 8-bit one scaled by `n` (R109, R110, R111). -/
def dispValue (n : Nat) : Disp → Quad
  | .none => 0
  | .d8 d => d.signExtend 64 * BitVec.ofNat 64 n
  | .d32 d => d.signExtend 64

/-- The scaled index; the number 0100b means none (R109). -/
def scaledIndex (s : State) (is32 : Bool) (x : Bool) (index : BitVec 3) (scale : BitVec 2) : Quad :=
  if num4 x index = 4 then 0 else addrReg s is32 (num4 x index) <<< scale.toNat

/-- SS for a base register RSP or RBP, else DS (R32, R109). -/
def defaultSeg (base : BitVec 4) : Seg := if base = 4 ∨ base = 5 then .ss else .ds

/-- The default segment and the address before truncation (R109). `x` and `b` are the extension bits of
the form, `n` the factor of an 8-bit displacement, `len` the length of the instruction. -/
def rawAddress (s : State) (is32 x b : Bool) (n len : Nat) : RmOperand → Seg × Quad
  | .reg _ => (.ds, 0)
  | .base rm d => (defaultSeg (num4 b rm), addrReg s is32 (num4 b rm) + dispValue n d)
  | .disp d =>
    (.ds, (if s.mode = .long64 then s.nextPc len else 0) + d.signExtend 64)
  | .sib sb d =>
    (defaultSeg (num4 b sb.base),
      addrReg s is32 (num4 b sb.base) + scaledIndex s is32 x sb.index sb.scale + dispValue n d)
  | .sibNoBase scale index d => (.ds, scaledIndex s is32 x index scale + d.signExtend 64)

/-- The segment and the effective address of a memory operand (R93, R109). -/
def effectiveAddress (s : State) (pre : List Prefix) (x b : Bool) (n len : Nat) (rm : RmOperand) :
    Seg × Quad :=
  let is32 := addr32 s pre
  let raw := rawAddress s is32 (s.ext x) (s.ext b) n len rm
  ((segOverride pre).getD raw.1, truncAddr is32 raw.2)

/-- `SegBase` (R32, R63): in 64-bit mode only FS and GS have one. -/
def segBase (s : State) (sg : Seg) : Quad :=
  match sg with
  | .fs => s.seg.fs
  | .gs => s.seg.gs
  | .cs => if s.mode = .long64 then 0 else s.seg.cs
  | .ss => if s.mode = .long64 then 0 else s.seg.ss
  | .ds => if s.mode = .long64 then 0 else s.seg.ds
  | .es => if s.mode = .long64 then 0 else s.seg.es

/-- The linear address (R63): modulo 2^64 in 64-bit mode, else modulo 2^32. -/
def linearAddress (s : State) (sg : Seg) (ea : Quad) : Quad :=
  truncAddr (decide (s.mode ≠ .long64)) (segBase s sg + ea)

/-! ### The second source -/

/-- Consecutive byte addresses. -/
def byteRange (a n : Nat) : List Nat := (List.range n).map (a + ·)

/-- The bytes of the operand that lanes which are not masked off need (R69, R195). -/
def neededBytes (a lanes : Nat) (bcst : Bool) (active : Nat → Bool) : List Nat :=
  if bcst then (if (List.range lanes).any active then byteRange a 8 else [])
  else ((List.range lanes).filter active).flatMap fun j => byteRange (a + 8 * j) 8

/-- All bytes of the operand (R64). -/
def wholeBytes (a lanes : Nat) (bcst : Bool) : List Nat := byteRange a (if bcst then 8 else 8 * lanes)

/-- `#AC(0)`, which a misaligned broadcast element may raise with alignment checking on (R65, R210): a
free choice (log entry 10). -/
def alignmentFault (s : State) (la : Quad) (bcst : Bool) (needed : List Nat) : Bool :=
  bcst && !needed.isEmpty && decide (la.toNat % 8 ≠ 0) && s.cr0AM && s.rflagsAC &&
    decide (s.cpl = 3) && Config.raisesAlignmentCheck la

/-- `MemReadMasked` (R195): the second-source lanes of a memory form, or the fault. -/
def readLanes (s : State) (sg : Seg) (la : Quad) (lanes : Nat) (bcst : Bool) (active : Nat → Bool) :
    Except Stop (Nat → Quad) :=
  let needed := neededBytes la.toNat lanes bcst active
  let gpBytes :=
    match s.params.suppressScope with
    | .all => needed
    | .pfOnly => wholeBytes la.toNat lanes bcst
  match dataCheck s sg gpBytes needed with
  | .error st => .error st
  | .ok () =>
    if alignmentFault s la bcst needed then .error (.fault (raise .ac s))
    else .ok fun j => s.mem.readQuad (if bcst then la.toNat else la.toNat + 8 * j)

/-- The alignment check of the legacy form (R65, R218; R224 step 6): a 16-byte operand must be
16-byte aligned, else `#GP(0)`. In 64-bit mode a misaligned operand through SS that is non-canonical
besides reports a free choice of `#GP(0)` and `#SS(0)` (U7, log entry 8). -/
def legacyAlignment (s : State) (sg : Seg) (la : Quad) : Except Stop Unit :=
  if la.toNat % 16 = 0 then .ok ()
  else if decide (s.mode = .long64) && decide (sg = .ss) &&
      (byteRange la.toNat 16).any (outside s .read sg) && Config.misalignedReportsStack la then
    .error (.fault (raise .ss s))
  else .error (.fault (raise .gp s))

/-- The lanes of a vector register. -/
def regLanes (s : State) (n : BitVec 5) : Nat → Quad := lane (s.readV (s.vreg n))

/-- The second source of the legacy form (R170 step 3). -/
def legacySource (s : State) (pre : List Prefix) (x b : Bool) (len : Nat) (rm : RmOperand) :
    Except Stop (Nat → Quad) :=
  match rm with
  | .reg r => .ok (regLanes s (num5 false b r))
  | rm =>
    let ea := effectiveAddress s pre x b 1 len rm
    let la := linearAddress s ea.1 ea.2
    match legacyAlignment s ea.1 la with
    | .error st => .error st
    | .ok () => readLanes s ea.1 la 2 false fun _ => true

/-- The second source of a VEX form of `lanes` lanes (R180 and R181 step 3). -/
def vexSource (s : State) (pre : List Prefix) (x b : Bool) (lanes len : Nat) (rm : RmOperand) :
    Except Stop (Nat → Quad) :=
  match rm with
  | .reg r => .ok (regLanes s (num5 false b r))
  | rm =>
    let ea := effectiveAddress s pre x b 1 len rm
    readLanes s ea.1 (linearAddress s ea.1 ea.2) lanes false fun _ => true

/-- The factor of an 8-bit displacement in an EVEX form (R111): 8 with broadcast, else `VL/8`. -/
def dispFactor (lanes : Nat) (bcst : Bool) : Nat := if bcst then 8 else 8 * lanes

/-- The second source of an EVEX form (R193 step 4). -/
def evexSource (s : State) (pre : List Prefix) (x b : Bool) (lanes : Nat) (bcst : Bool)
    (active : Nat → Bool) (len : Nat) (rm : RmOperand) : Except Stop (Nat → Quad) :=
  match rm with
  | .reg r => .ok (regLanes s (num5 x b r))
  | rm =>
    let ea := effectiveAddress s pre x b (dispFactor lanes bcst) len rm
    readLanes s ea.1 (linearAddress s ea.1 ea.2) lanes bcst active

end Sys2Proof.Machine
end

