-- ==== Sys2Proof/Machine/Sse.lean ====
section
/-! DEFINITION. How an instruction ends, and the legacy form (spec/41_subpd_sse.md R170 to R172). -/

namespace Sys2Proof.Machine

open Sys2Proof

/-- The last steps of every form: write all `MAXVL` bits of the destination register and MXCSR in one update,
advance the pc past the instruction (R38, R30). Lanes at and above `MAXVL` are dropped. -/
def commit (s : State) (d : BitVec 5) (lanes : List Quad) (mxcsr : BitVec 32) (len : Nat) : State :=
  { s.writeV (s.vreg d) (packLanes (lanes.take (s.params.maxvl / 64))) with
    mxcsr := mxcsr,
    rip := s.nextPc len }

/-- The eight lanes of the legacy destination: two results, the others kept (R170 step 5, R171). -/
def legacyLanes (s : State) (d : BitVec 5) (a b : Nat → Quad) : List Quad :=
  (List.range 8).map fun j =>
    if j < 2 then laneResult s a b (mxRC s.mxcsr) j else regLanes s d j

/-- SUBPD xmm1, xmm2/m128 (R170). -/
def execSubpd (pre : List Prefix) (rex : Option Rex) (reg : BitVec 3) (rm : RmOperand) (s : State) :
    Host.Outcome State Fault Refusal :=
  let len := (Instr.subpd pre rex reg rm).length
  let d := num5 false (rex.any Rex.r) reg
  outcome do
    enableCheck .legacy s
    let b ← legacySource s pre (rex.any Rex.x) (rex.any Rex.b) len rm
    let mx ← packedSub s 2 (regLanes s d) b (fun _ => true) (mxRC s.mxcsr) false
    return commit s d (legacyLanes s d (regLanes s d) b) mx len

end Sys2Proof.Machine
end

