-- ==== Sys2Proof/Machine/Vex.lean ====
section
/-! DEFINITION. The VEX forms (spec/42_vsubpd_vex.md R180 to R183). -/

namespace Sys2Proof.Machine

open Sys2Proof

/-- The result lanes of an unmasked form; `commit` zeroes the bits above them (R180, R181 step 5). -/
def plainLanes (s : State) (lanes : Nat) (a b : Nat → Quad) : List Quad :=
  (List.range lanes).map (laneResult s a b (mxRC s.mxcsr))

/-- The procedure of R180 and R181 for `lanes` lanes: `d` the destination, `s1` the first source. -/
def vexSub (lanes : Nat) (pre : List Prefix) (d s1 : BitVec 5) (x b : Bool) (len : Nat)
    (rm : RmOperand) (s : State) : Except Stop State := do
  enableCheck .vex s
  let src ← vexSource s pre x b lanes len rm
  let mx ← packedSub s lanes (regLanes s s1) src (fun _ => true) (mxRC s.mxcsr) false
  return commit s d (plainLanes s lanes (regLanes s s1) src) mx len

/-- VSUBPD xmm1, xmm2, xmm3/m128, two-byte VEX prefix (R180). -/
def execVsubpdVex2x128 (pre : List Prefix) (p : Vex2) (reg : BitVec 3) (rm : RmOperand) (s : State) :
    Host.Outcome State Fault Refusal :=
  outcome (vexSub 2 pre (num5 false p.r reg) (vvvvNum false p.vvvv) false false
    (Instr.vsubpdVex2x128 pre p reg rm).length rm s)

/-- VSUBPD xmm1, xmm2, xmm3/m128, three-byte VEX prefix (R180). -/
def execVsubpdVex3x128 (pre : List Prefix) (p : Vex3) (reg : BitVec 3) (rm : RmOperand) (s : State) :
    Host.Outcome State Fault Refusal :=
  outcome (vexSub 2 pre (num5 false p.r reg) (vvvvNum false p.vvvv) p.x p.b
    (Instr.vsubpdVex3x128 pre p reg rm).length rm s)

/-- VSUBPD ymm1, ymm2, ymm3/m256, two-byte VEX prefix (R181). -/
def execVsubpdVex2x256 (pre : List Prefix) (p : Vex2) (reg : BitVec 3) (rm : RmOperand) (s : State) :
    Host.Outcome State Fault Refusal :=
  outcome (vexSub 4 pre (num5 false p.r reg) (vvvvNum false p.vvvv) false false
    (Instr.vsubpdVex2x256 pre p reg rm).length rm s)

/-- VSUBPD ymm1, ymm2, ymm3/m256, three-byte VEX prefix (R181). -/
def execVsubpdVex3x256 (pre : List Prefix) (p : Vex3) (reg : BitVec 3) (rm : RmOperand) (s : State) :
    Host.Outcome State Fault Refusal :=
  outcome (vexSub 4 pre (num5 false p.r reg) (vvvvNum false p.vvvv) p.x p.b
    (Instr.vsubpdVex3x256 pre p reg rm).length rm s)

end Sys2Proof.Machine
end

