-- ==== Sys2Proof/Machine/Evex.lean ====
section
/-! DEFINITION. The EVEX forms (spec/43_vsubpd_evex.md R190 to R200). -/

namespace Sys2Proof.Machine

open Sys2Proof

/-- Whether a lane is computed (R194): no writemask, or its bit of `K[aaa]` is 1. -/
def activeLane (s : State) (aaa : BitVec 3) (j : Nat) : Bool :=
  decide (aaa = 0) || (s.readK aaa).getLsbD j

/-- The lanes written (R193 step 6, R194): an active lane its result; another keeps its old value under
merging-masking and is 0 under zeroing-masking. -/
def maskedLanes (s : State) (lanes : Nat) (e : Evex) (d : BitVec 5) (rc : Rounding)
    (a b : Nat → Quad) : List Quad :=
  (List.range lanes).map fun j =>
    if activeLane s e.aaa j then laneResult s a b rc j
    else if e.z then 0 else regLanes s d j

/-- `EVEX_SUB(KL, VL)` (R193). `er` is the embedded rounding mode of the register form with `b` = 1
(R197), which suppresses all exceptions (R198). -/
def evexSub (lanes : Nat) (pre : List Prefix) (e : Evex) (bcst : Bool) (er : Option Rounding)
    (reg : BitVec 3) (len : Nat) (rm : RmOperand) (s : State) : Except Stop State := do
  enableCheck (.evex (64 * lanes)) s
  let d := num5 e.r2 e.r reg
  let a := regLanes s (vvvvNum e.v2 e.vvvv)
  let rc := er.getD (mxRC s.mxcsr)
  let b ← evexSource s pre e.x e.b lanes bcst (activeLane s e.aaa) len rm
  let mx ← packedSub s lanes a b (activeLane s e.aaa) rc er.isSome
  return commit s d (maskedLanes s lanes e d rc a b) mx len

/-- VSUBPD xmm1, xmm2, xmm3/m128/m64bcst under a writemask (R190). -/
def execVsubpdEvex128 (pre : List Prefix) (e : Evex) (bcst : Bool) (reg : BitVec 3) (rm : RmOperand)
    (s : State) : Host.Outcome State Fault Refusal :=
  outcome (evexSub 2 pre e bcst none reg (Instr.vsubpdEvex128 pre e bcst reg rm).length rm s)

/-- VSUBPD ymm1, ymm2, ymm3/m256/m64bcst under a writemask (R191). -/
def execVsubpdEvex256 (pre : List Prefix) (e : Evex) (bcst : Bool) (reg : BitVec 3) (rm : RmOperand)
    (s : State) : Host.Outcome State Fault Refusal :=
  outcome (evexSub 4 pre e bcst none reg (Instr.vsubpdEvex256 pre e bcst reg rm).length rm s)

/-- VSUBPD zmm1, zmm2, zmm3/m512/m64bcst under a writemask (R192). -/
def execVsubpdEvex512 (pre : List Prefix) (e : Evex) (bcst : Bool) (reg : BitVec 3) (rm : RmOperand)
    (s : State) : Host.Outcome State Fault Refusal :=
  outcome (evexSub 8 pre e bcst none reg (Instr.vsubpdEvex512 pre e bcst reg rm).length rm s)

/-- VSUBPD zmm1, zmm2, zmm3 with embedded rounding (R192, R197, R198). -/
def execVsubpdEvex512er (pre : List Prefix) (e : Evex) (rc : Rounding) (reg rm : BitVec 3)
    (s : State) : Host.Outcome State Fault Refusal :=
  outcome (evexSub 8 pre e false (some rc) reg (Instr.vsubpdEvex512er pre e rc reg rm).length
    (.reg rm) s)

end Sys2Proof.Machine
end

