-- ==== Sys2Proof/Machine/Dispatch.lean ====
section
/-! DEFINITION. What each instruction does: one arm per row of the opcode table. -/

namespace Sys2Proof.Machine

open Sys2Proof

def exec (i : Instr) (s : State) : Host.Outcome State Fault Refusal :=
  match i with
  | .subpd pre rex reg rm => Sys2Proof.Machine.execSubpd pre rex reg rm s
  | .vsubpdVex2x128 pre vex reg rm => Sys2Proof.Machine.execVsubpdVex2x128 pre vex reg rm s
  | .vsubpdVex3x128 pre vex reg rm => Sys2Proof.Machine.execVsubpdVex3x128 pre vex reg rm s
  | .vsubpdVex2x256 pre vex reg rm => Sys2Proof.Machine.execVsubpdVex2x256 pre vex reg rm s
  | .vsubpdVex3x256 pre vex reg rm => Sys2Proof.Machine.execVsubpdVex3x256 pre vex reg rm s
  | .vsubpdEvex128 pre evex bcst reg rm => Sys2Proof.Machine.execVsubpdEvex128 pre evex bcst reg rm s
  | .vsubpdEvex256 pre evex bcst reg rm => Sys2Proof.Machine.execVsubpdEvex256 pre evex bcst reg rm s
  | .vsubpdEvex512 pre evex bcst reg rm => Sys2Proof.Machine.execVsubpdEvex512 pre evex bcst reg rm s
  | .vsubpdEvex512er pre evex rc reg rm => Sys2Proof.Machine.execVsubpdEvex512er pre evex rc reg rm s

end Sys2Proof.Machine
end

