-- ==== Sys2Proof/Machine/Fetch.lean ====
section
/-! DEFINITION. Fetching an instruction (spec/20_memory.md R79, spec/60_exceptions.md R225) and what a
step does with what decoding found. -/

namespace Sys2Proof.Machine

open Sys2Proof

/-- The linear address of the first byte of the instruction: `CS.base` plus the pc, the base being 0 in
64-bit mode (R32, R39, R79). -/
def fetchAddress (s : State) : Quad := linearAddress s .cs s.rip

/-- The bytes decoding may look at, from the pc upward: enough for any instruction, however many prefixes it
has, since an unlisted byte is no prefix. Past the end of the space there is nothing; an instruction that
reaches there is refused by `fetchCheck`. -/
def fetchWindow (s : State) : List Byte :=
  s.mem.readBytes (fetchAddress s).toNat (s.mem.length + decodeWindow)

/-- The checks on the `n` bytes of an instruction (R224 steps 1 and 2, R225). When one byte is outside
the space or CS and another is refused by paging, which is reported is a free value (U14, log
entry 11). -/
def fetchCheck (s : State) (n : Nat) : Except Stop Unit :=
  let bytes := byteRange (fetchAddress s).toNat n
  if bytes.any fun a => decide (spaceTop s.mode ≤ a) then .error (.refuse .addressWrap)
  else
    match bytes.any (outside s .fetch .cs), pageFault? s .fetch .cs bytes with
    | true, none => .error (.fault (raise .gp s))
    | true, some e =>
      .error (.fault (raise (if Config.fetchReportsPageFault s.rip then e else .gp) s))
    | false, some e => .error (.fault (raise e s))
    | false, none =>
      if bytes.any (isDevice s .fetch .cs) then .error (.refuse .deviceMemory) else .ok ()

/-- What follows decoding (R114, R224 steps 3 and 4): the instruction's meaning, or the exception or
refusal of bytes that are none. -/
def runDecoded (s : State) : Decoded → Host.Outcome State Fault Refusal
  | .instr i => exec i s
  | .ud _ => .fault (raise .ud s)
  | .tooLong _ => .fault (raise .gp s)
  | .foreign why _ => .refused (.notThisInstruction why)
  | .otherMode c _ =>
    match enableCheck c s with
    | .error st => st.outcome
    | .ok () => .refused .modeNotDescribed

/-- One step: fetch and decode at the pc, check the bytes the instruction has, run it (R224, R267). -/
def stepOnce (s : State) : Host.Outcome State Fault Refusal :=
  let d := decode s.mode (fetchWindow s)
  match fetchCheck s d.consumed with
  | .error st => st.outcome
  | .ok () => runDecoded s d

/-- Store bytes where the next instruction is fetched. -/
def State.placeCode (s : State) (bytes : List Byte) : State :=
  { s with mem := s.mem.writeBytes (fetchAddress s).toNat bytes }

/-- How a program run went (R267). -/
inductive RunResult where
  | ended (s : State)
  | running (s : State)
  | fault (f : Fault)
  | refused (r : Refusal)
  deriving DecidableEq, Repr

end Sys2Proof.Machine
end

