-- ==== Sys2Proof/Machine/Step.lean ====
section
/-! DEFINITION. One step of the machine, a program's run, and how the host places an instruction. -/

namespace Sys2Proof.Machine

open Sys2Proof

/-- One step (R267). -/
def step (s : State) : Host.Outcome State Fault Refusal := stepOnce s

/-- A run of a program that ends at address `stop` = `BASE` + its length, for at most so many steps
(R267, D16): it ends normally when the pc is there, else at the first fault or refusal. -/
def runProgram (stop : Quad) : Nat → State → RunResult
  | 0, s => if s.rip = stop then .ended s else .running s
  | n + 1, s =>
    if s.rip = stop then .ended s
    else
      match step s with
      | .next s' => runProgram stop n s'
      | .fault f => .fault f
      | .refused r => .refused r

/-- `s` with the instruction of a table word stored where `step` fetches next, at the launch of R40: the
table's words are 64-bit mode's (R116), and out of reset none of the six forms can run before the
software of R261 has (log entry 21). -/
def State.withFetchWord (s : State) (nbits w : Nat) : State :=
  s.launch.placeCode ((tableBytes nbits w).take 15)

end Sys2Proof.Machine
end

