-- ==== Sys2Proof/WellFormed.lean ====
section
/-! DEFINITION. The checks on an instruction: which terms stand for an encoding in a mode
(spec/30_encoding.md). -/

namespace Sys2Proof

/-- A dropped REX byte is followed by a legacy prefix (R94). -/
def droppedRexOk : List Prefix → Bool
  | [] => true
  | .droppedRex _ :: rest =>
    (match rest with
      | [] => false
      | .droppedRex _ :: _ => false
      | _ :: _ => true) && droppedRexOk rest
  | _ :: rest => droppedRexOk rest

/-- Prefixes a legal form may have: no LOCK, no repeat prefix (R92), REX only in 64-bit mode (R94). -/
def prefixesOk (m : Mode) (pre : List Prefix) : Bool :=
  droppedRexOk pre && pre.all fun p =>
    match p with
    | .lock => false
    | .repne => false
    | .rep => false
    | .droppedRex _ => decide (m = .long64)
    | _ => true

/-- The operand shapes that ModRM and SIB can name (R107 to R110). -/
def RmOperand.ok : RmOperand → Bool
  | .reg _ => true
  | .base rm d => decide (rm ≠ 4) && (decide (rm ≠ 5) || decide (d ≠ .none))
  | .disp _ => true
  | .sib s d => decide (s.base ≠ 5) || decide (d ≠ .none)
  | .sibNoBase _ _ _ => true

/-- 16-bit addressing is not described (R117). -/
def addressingOk (m : Mode) (pre : List Prefix) (rm : RmOperand) : Bool :=
  !rm.isMem || plainAddressing m pre

/-- What every form asks: a mode whose decoding is described, prefixes, operand, length (R90, R115). -/
def commonOk (m : Mode) (pre : List Prefix) (rm : RmOperand) (len : Nat) : Bool :=
  (decide (m = .long64) || decide (m = .prot32)) && prefixesOk m pre && rm.ok &&
    addressingOk m pre rm && decide (len ≤ 15)

/-- `66` is mandatory in the legacy form (R92); REX only in 64-bit mode (R94). -/
def legacyOk (m : Mode) (pre : List Prefix) (rex : Option Rex) : Bool :=
  pre.contains .opSize && (decide (m = .long64) || rex.isNone)

/-- `66` before a VEX or EVEX byte is `#UD` (R99, R105). -/
def noOpSize (pre : List Prefix) : Bool := !pre.contains .opSize

/-- Outside 64-bit mode bits 7:6 of the byte after `C5` are 11b (R117). -/
def Vex2.ok (m : Mode) (p : Vex2) : Bool :=
  decide (m = .long64) || (!p.r && !p.vvvv.getLsbD 3)

/-- Outside 64-bit mode bits 7:6 of the byte after `C4` are 11b (R117). -/
def Vex3.ok (m : Mode) (p : Vex3) : Bool := decide (m = .long64) || (!p.r && !p.x)

/-- Zeroing needs a writemask (R104); outside 64-bit mode stored `R`, `X` and `V'` are 1 (R117). -/
def Evex.ok (m : Mode) (e : Evex) : Bool :=
  (!e.z || decide (e.aaa ≠ 0)) && (decide (m = .long64) || (!e.r && !e.x && !e.v2))

/-- A register form with `b` = 1 is the embedded-rounding row (R103). -/
def bcstOk (bcst : Bool) (rm : RmOperand) : Bool := !bcst || rm.isMem

/-- The terms that stand for an encoding in mode `m`. -/
def wellFormed (m : Mode) (i : Instr) : Bool :=
  match i with
  | .subpd pre rex _ rm => commonOk m pre rm i.length && legacyOk m pre rex
  | .vsubpdVex2x128 pre p _ rm => commonOk m pre rm i.length && noOpSize pre && p.ok m
  | .vsubpdVex3x128 pre p _ rm => commonOk m pre rm i.length && noOpSize pre && p.ok m
  | .vsubpdVex2x256 pre p _ rm => commonOk m pre rm i.length && noOpSize pre && p.ok m
  | .vsubpdVex3x256 pre p _ rm => commonOk m pre rm i.length && noOpSize pre && p.ok m
  | .vsubpdEvex128 pre e b _ rm =>
    commonOk m pre rm i.length && noOpSize pre && e.ok m && bcstOk b rm
  | .vsubpdEvex256 pre e b _ rm =>
    commonOk m pre rm i.length && noOpSize pre && e.ok m && bcstOk b rm
  | .vsubpdEvex512 pre e b _ rm =>
    commonOk m pre rm i.length && noOpSize pre && e.ok m && bcstOk b rm
  | .vsubpdEvex512er pre e _ _ rm =>
    commonOk m pre (.reg rm) i.length && noOpSize pre && e.ok m

end Sys2Proof
end

