-- ==== Sys2Proof/Safety.lean ====
section
/-! DEFINITION. What counts as a safe run, and the words in which statements speak of a step: what it
leaves alone, when an operand is readable, when a lane is quiet, the invariant. -/

namespace Sys2Proof

/-- The class whose enable conditions a form has (R36, R216). -/
def Instr.cls : Instr → FormClass
  | .subpd _ _ _ _ => .legacy
  | .vsubpdVex2x128 _ _ _ _ => .vex
  | .vsubpdVex3x128 _ _ _ _ => .vex
  | .vsubpdVex2x256 _ _ _ _ => .vex
  | .vsubpdVex3x256 _ _ _ _ => .vex
  | .vsubpdEvex128 _ _ _ _ _ => .evex 128
  | .vsubpdEvex256 _ _ _ _ _ => .evex 256
  | .vsubpdEvex512 _ _ _ _ _ => .evex 512
  | .vsubpdEvex512er _ _ _ _ _ => .evex 512

/-- The prefixes of an instruction, in order (R92, R94). -/
def Instr.prefixes : Instr → List Prefix
  | .subpd pre _ _ _ => pre
  | .vsubpdVex2x128 pre _ _ _ => pre
  | .vsubpdVex3x128 pre _ _ _ => pre
  | .vsubpdVex2x256 pre _ _ _ => pre
  | .vsubpdVex3x256 pre _ _ _ => pre
  | .vsubpdEvex128 pre _ _ _ _ => pre
  | .vsubpdEvex256 pre _ _ _ _ => pre
  | .vsubpdEvex512 pre _ _ _ _ => pre
  | .vsubpdEvex512er pre _ _ _ _ => pre

/-- The number of the destination register, before the mode counts it (R112). -/
def Instr.dest : Instr → BitVec 5
  | .subpd _ rex reg _ => Machine.num5 false (rex.any Rex.r) reg
  | .vsubpdVex2x128 _ p reg _ => Machine.num5 false p.r reg
  | .vsubpdVex3x128 _ p reg _ => Machine.num5 false p.r reg
  | .vsubpdVex2x256 _ p reg _ => Machine.num5 false p.r reg
  | .vsubpdVex3x256 _ p reg _ => Machine.num5 false p.r reg
  | .vsubpdEvex128 _ e _ reg _ => Machine.num5 e.r2 e.r reg
  | .vsubpdEvex256 _ e _ reg _ => Machine.num5 e.r2 e.r reg
  | .vsubpdEvex512 _ e _ reg _ => Machine.num5 e.r2 e.r reg
  | .vsubpdEvex512er _ e _ reg _ => Machine.num5 e.r2 e.r reg

end Sys2Proof

namespace Sys2Proof.Machine

open Sys2Proof

/-! ### What a step leaves alone -/

/-- Two states agree on everything but vector registers, MXCSR and the pc: opmask and general
registers, segment bases, RFLAGS, CR0, CR2, CR4, XCR0, EFER, mode, CPL, every byte of memory, the access
check and the parameters (R20, R24, R31, R33, R34, R66, R231). -/
structure SameElsewhere (s t : State) : Prop where
  k : t.k = s.k
  x : t.x = s.x
  seg : t.seg = s.seg
  rflags : t.rflags = s.rflags
  cr0 : t.cr0 = s.cr0
  cr2 : t.cr2 = s.cr2
  cr4 : t.cr4 = s.cr4
  xcr0 : t.xcr0 = s.xcr0
  efer : t.efer = s.efer
  mode : t.mode = s.mode
  cpl : t.cpl = s.cpl
  mem : t.mem = s.mem
  bytes : ∀ a, t.mem.read a = s.mem.read a
  access : t.access = s.access
  params : t.params = s.params

/-- `t` is `s` after an instruction of `len` bytes that gave register `d` the lanes `new` and MXCSR the
value `mx`: every lane of `d` that the machine has (those below `MAXVL`), every other register, MXCSR, the
pc, and all else. -/
structure ResultIs (s t : State) (d : BitVec 5) (new : Nat → Quad) (mx : BitVec 32) (len : Nat) :
    Prop where
  lanes : ∀ j, j < 8 → lane (t.readV d) j = if 64 * j < s.params.maxvl then new j else 0
  others : ∀ n, n ≠ d → t.readV n = s.readV n
  mxcsr : t.mxcsr = mx
  pc : t.rip = s.nextPc len
  elsewhere : SameElsewhere s t

/-! ### When a form completes -/

/-- The form is enabled in a mode whose operands are described, and `CR0.TS` = 0 (R36, R216, R217). -/
def Enabled (c : FormClass) (s : State) : Prop :=
  s.usable c = true ∧ s.cr0TS = false ∧ Mode.is8086 s.mode = false

/-- No condition of the lane is unmasked: neither phase of R213 raises because of it. -/
def QuietLane (s : State) (c : Cond) : Prop :=
  (unmasked s.mxcsr (c.pre.union (c.post s.mxcsr))).nonempty = false

/-- No computed lane has an unmasked condition (R213). -/
def QuietLanes (s : State) (n : Nat) (a b : Nat → Quad) (active : Nat → Bool) (rc : Rounding) :
    Prop :=
  ∀ j, j < n → active j = true → QuietLane s (cond (a j) (b j) rc (mxDAZ s.mxcsr))

/-- MXCSR OR-ed with the flags of every computed lane (R156). -/
def flagsAfter (s : State) (n : Nat) (a b : Nat → Quad) (active : Nat → Bool) (rc : Rounding) :
    BitVec 32 :=
  orFlags s.mxcsr (FlagSet.unions (((List.range n).filter active).map fun j =>
    (fsub64 (a j) (b j) rc (mxDAZ s.mxcsr) (mxFTZ s.mxcsr)).2))

/-- The byte is below the top of the space and inside the canonical space or its segment (R60, R219). -/
def Inside (s : State) (sg : Seg) (a : Nat) : Prop :=
  a < spaceTop s.mode ∧ outside s .read sg a = false

/-- The byte can be read: inside, not refused by paging, ordinary memory (R62, R71, R221). -/
def ReadableByte (s : State) (sg : Seg) (a : Nat) : Prop :=
  Inside s sg a ∧ pageDenial s .read sg a = none ∧ isDevice s .read sg a = false

/-- Every byte the operand needs is readable, every byte that `SUPPRESS_SCOPE` has checked is inside, and
alignment checking does not concern the access (R65, R69, R195). -/
def Readable (s : State) (sg : Seg) (la : Quad) (lanes : Nat) (bcst : Bool) (active : Nat → Bool) :
    Prop :=
  (∀ a ∈ neededBytes la.toNat lanes bcst active, ReadableByte s sg a) ∧
  (s.params.suppressScope = .pfOnly → ∀ a ∈ wholeBytes la.toNat lanes bcst, Inside s sg a) ∧
  (neededBytes la.toNat lanes bcst active ≠ [] → bcst = true → s.cr0AM = true → s.rflagsAC = true →
    s.cpl = 3 → la.toNat % 8 = 0)

/-- The lanes of a memory operand at a linear address (R61, R68, R195). -/
def memLanes (s : State) (la : Quad) (bcst : Bool) (j : Nat) : Quad :=
  s.mem.readQuad (if bcst then la.toNat else la.toNat + 8 * j)

/-- The segment and linear address of a memory operand (R63, R109). -/
def operandAddress (s : State) (pre : List Prefix) (x b : Bool) (n len : Nat) (rm : RmOperand) :
    Seg × Quad :=
  let ea := effectiveAddress s pre x b n len rm
  (ea.1, linearAddress s ea.1 ea.2)

/-! ### Results -/

/-- Running `i` completes: register `d` (as the mode numbers it) has the lanes `new`, MXCSR is `mx`, the pc
is past the instruction, and nothing else has changed. -/
def Completes (i : Instr) (s : State) (d : BitVec 5) (new : Nat → Quad) (mx : BitVec 32) : Prop :=
  ∃ t, exec i s = .next t ∧ ResultIs s t (s.vreg d) new mx i.length

/-- No lane is masked off. -/
def allLanes : Nat → Bool := fun _ => true

/-- Lanes below `n` are differences, the rest 0 (R180, R181 step 5). -/
def plainResult (s : State) (n : Nat) (a b : Nat → Quad) (j : Nat) : Quad :=
  if j < n then (fsub64 (a j) (b j) (mxRC s.mxcsr) (mxDAZ s.mxcsr) (mxFTZ s.mxcsr)).1 else 0

/-- Lanes below `n`: computed ones are differences, the others 0 under zeroing-masking and the old lane of
`d` under merging-masking; the rest 0 (R193 step 6, R194). -/
def maskedResult (s : State) (n : Nat) (e : Evex) (d : BitVec 5) (rc : Rounding) (a b : Nat → Quad)
    (j : Nat) : Quad :=
  if j < n then
    if activeLane s e.aaa j then (fsub64 (a j) (b j) rc (mxDAZ s.mxcsr) (mxFTZ s.mxcsr)).1
    else if e.z then 0 else lane (s.readV (s.vreg d)) j
  else 0

/-- The four VEX forms and what their fields are: lanes, prefixes, destination, first source, the bits that
extend index and base, the `r/m` operand (R98, R112). -/
inductive VexForm : Instr → Nat → List Prefix → BitVec 5 → BitVec 5 → Bool → Bool → RmOperand → Prop
  where
  | vex2x128 (pre : List Prefix) (p : Vex2) (reg : BitVec 3) (rm : RmOperand) :
    VexForm (.vsubpdVex2x128 pre p reg rm) 2 pre (num5 false p.r reg) (vvvvNum false p.vvvv) false
      false rm
  | vex3x128 (pre : List Prefix) (p : Vex3) (reg : BitVec 3) (rm : RmOperand) :
    VexForm (.vsubpdVex3x128 pre p reg rm) 2 pre (num5 false p.r reg) (vvvvNum false p.vvvv) p.x
      p.b rm
  | vex2x256 (pre : List Prefix) (p : Vex2) (reg : BitVec 3) (rm : RmOperand) :
    VexForm (.vsubpdVex2x256 pre p reg rm) 4 pre (num5 false p.r reg) (vvvvNum false p.vvvv) false
      false rm
  | vex3x256 (pre : List Prefix) (p : Vex3) (reg : BitVec 3) (rm : RmOperand) :
    VexForm (.vsubpdVex3x256 pre p reg rm) 4 pre (num5 false p.r reg) (vvvvNum false p.vvvv) p.x
      p.b rm

/-- The three EVEX forms without embedded rounding: lanes, prefixes, EVEX fields, broadcast, `ModRM.reg`,
the `r/m` operand (R101 to R103). -/
inductive EvexForm : Instr → Nat → List Prefix → Evex → Bool → BitVec 3 → RmOperand → Prop where
  | evex128 (pre : List Prefix) (e : Evex) (bcst : Bool) (reg : BitVec 3) (rm : RmOperand) :
    EvexForm (.vsubpdEvex128 pre e bcst reg rm) 2 pre e bcst reg rm
  | evex256 (pre : List Prefix) (e : Evex) (bcst : Bool) (reg : BitVec 3) (rm : RmOperand) :
    EvexForm (.vsubpdEvex256 pre e bcst reg rm) 4 pre e bcst reg rm
  | evex512 (pre : List Prefix) (e : Evex) (bcst : Bool) (reg : BitVec 3) (rm : RmOperand) :
    EvexForm (.vsubpdEvex512 pre e bcst reg rm) 8 pre e bcst reg rm

/-! ### Raised floating-point exceptions -/

/-- `PRE`: the pre-computation flags of the computed lanes (R213 phase 1). -/
def preFlags (s : State) (n : Nat) (a b : Nat → Quad) (active : Nat → Bool) (rc : Rounding) :
    FlagSet :=
  FlagSet.unions (((List.range n).filter active).map fun j =>
    (cond (a j) (b j) rc (mxDAZ s.mxcsr)).pre)

/-- `POST`: the post-computation flags of the computed lanes (R213 phase 2). -/
def postFlags (s : State) (n : Nat) (a b : Nat → Quad) (active : Nat → Bool) (rc : Rounding) :
    FlagSet :=
  FlagSet.unions (((List.range n).filter active).map fun j =>
    (cond (a j) (b j) rc (mxDAZ s.mxcsr)).post s.mxcsr)

/-- The flags a raise sets under the two-phase rule (R214). -/
def raisedFlags (s : State) (n : Nat) (a b : Nat → Quad) (active : Nat → Bool) (rc : Rounding) :
    FlagSet :=
  if (unmasked s.mxcsr (preFlags s n a b active rc)).nonempty then preFlags s n a b active rc
  else (preFlags s n a b active rc).union (postFlags s n a b active rc)

/-- The fault of an unmasked floating-point exception that sets these flags: `#XM`, or `#UD` with
`CR4.OSXMMEXCPT` = 0; the flags are all that changes (R215). -/
def simdFault (s : State) (f : FlagSet) : Fault :=
  if s.osxmmexcpt then .simdFloatingPoint { s with mxcsr := orFlags s.mxcsr f }
  else .invalidOpcode { s with mxcsr := orFlags s.mxcsr f }

/-- `i` raises a floating-point exception for these lanes: with the flags of the two-phase rule, or under the
loose reading of `XM_FLAGS` with some flags within `PRE + POST`, one of them that of an unmasked condition (R214,
U8). -/
def RaisesSimd (i : Instr) (s : State) (n : Nat) (a b : Nat → Quad) (active : Nat → Bool) (rc : Rounding) :
    Prop :=
  match s.params.xmFlags with
  | .twoPhase => exec i s = .fault (simdFault s (raisedFlags s n a b active rc))
  | .loose =>
    ∃ f : FlagSet, exec i s = .fault (simdFault s f) ∧ (unmasked s.mxcsr f).nonempty = true ∧
      f.inter ((preFlags s n a b active rc).union (postFlags s n a b active rc)) = f

/-! ### Runs -/

/-- The `n` bytes at the pc can be fetched: inside the space and CS, not refused by paging, ordinary memory
(R79, R225, R71). -/
def Fetchable (s : State) (n : Nat) : Prop :=
  ∀ a ∈ byteRange (fetchAddress s).toNat n,
    a < spaceTop s.mode ∧ outside s .fetch .cs a = false ∧ pageDenial s .fetch .cs a = none ∧
      isDevice s .fetch .cs a = false

/-- A run that met neither a fault nor a refusal. -/
def RunResult.clean : RunResult → Bool
  | .ended _ => true
  | .running _ => true
  | .fault _ => false
  | .refused _ => false

/-- The state a run stops in, where it has one. -/
def RunResult.state? : RunResult → Option State
  | .ended s => some s
  | .running s => some s
  | .fault f => some f.state
  | .refused _ => none

/-- What holds of every state a run can reach: memory in canonical form; no vector register has a bit at or
above `MAXVL`, no opmask register one at or above `KW` (R6, R21, R24, log entry 6); MXCSR bits 31:16 zero
(R26, U3); outside 64-bit mode the pc is 32 bits (R30). -/
structure Inv (s : State) : Prop where
  memory : s.mem.wf = true
  vectors : ∀ n, s.readV n >>> s.params.maxvl = 0
  opmasks : ∀ n : Fin 8, s.k[n] >>> s.params.kw.bits = 0
  mxcsrReserved : s.mxcsr.extractLsb' 16 16 = 0#16
  eip : s.mode ≠ .long64 → s.rip.toNat < 2 ^ 32

end Sys2Proof.Machine
end

