-- ==== Sys2Proof/Certificates/Slice0/Obligations.lean ====
section
/-! DEFINITION. The statements for the provers. Each formalises rules of spec/ named in its docstring.
Where a statement holds in every mode, 32-bit protected mode is among them by the model's choice (log entry
13); in real-address and virtual-8086 mode no form is `Enabled`. -/

open Sys2Proof Sys2Proof.Machine

/-! ### The lane operation (spec/40_numerics.md) -/

/-- R148: a NaN operand. The first source quieted if it is a NaN, else the second; sign and low 51 fraction
bits kept; `IE` iff an operand is signalling; no other flag. -/
def Obligations.NanOperandResult : Prop :=
  ∀ (a b : Quad) (rc : Rounding) (daz ftz : Bool), (isNaN a || isNaN b) = true →
    fsub64 a b rc daz ftz =
      (if isNaN a then quiet a else quiet b, ⟨isSNaN a || isSNaN b, false, false, false, false⟩) ∧
    isQNaN (fsub64 a b rc daz ftz).1 = true ∧
    signOf (fsub64 a b rc daz ftz).1 = signOf (if isNaN a then a else b) ∧
    (fsub64 a b rc daz ftz).1.extractLsb' 0 51 = (if isNaN a then a else b).extractLsb' 0 51

/-- R149: infinite operands, no NaN operand. A denormal finite operand still signals `DE`. -/
def Obligations.InfinityResult : Prop :=
  ∀ (rc : Rounding) (daz ftz : Bool),
    fsub64 plusInf plusInf rc daz ftz = (qnanIndefinite, ⟨true, false, false, false, false⟩) ∧
    fsub64 (negate plusInf) (negate plusInf) rc daz ftz =
      (qnanIndefinite, ⟨true, false, false, false, false⟩) ∧
    fsub64 plusInf (negate plusInf) rc daz ftz = (plusInf, FlagSet.empty) ∧
    fsub64 (negate plusInf) plusInf rc daz ftz = (negate plusInf, FlagSet.empty) ∧
    ∀ x y, isInf x = true → isFinite y = true →
      fsub64 x y rc daz ftz = (x, ⟨false, isDen y && !daz, false, false, false⟩) ∧
      fsub64 y x rc daz ftz = (negate x, ⟨false, isDen y && !daz, false, false, false⟩)

/-- R150: an exact zero difference of finite operands (after denormals-are-zeros): the sign of the first
source when it and the negated second have one sign, else `+0`, and `-0` in mode RD. The zero itself sets no
flag. -/
def Obligations.ExactZeroResult : Prop :=
  ∀ (a b : Quad) (rc : Rounding) (daz ftz : Bool), isFinite a = true → isFinite b = true →
    intValue (dazIn a daz) = intValue (dazIn b daz) →
    (fsub64 a b rc daz ftz).1 =
      (if signOf a = !signOf b then signedZero (signOf a)
        else if rc = .rd then signedZero true else signedZero false) ∧
    (fsub64 a b rc daz ftz).2 = ⟨false, !daz && (isDen a || isDen b), false, false, false⟩

/-- R155: the conditions of one lane exclude one another, and its flag set is one of nine. -/
def Obligations.LaneFlagSets : Prop :=
  ∀ (a b : Quad) (rc : Rounding) (daz ftz : Bool),
    let c := cond a b rc daz
    let f := (fsub64 a b rc daz ftz).2
    (c.inv = true → c.den = false ∧ c.ovf = false ∧ c.tiny = false ∧ c.inx = false) ∧
    (c.ovf = true → c.tiny = false) ∧ (c.tiny = true → c.inx = false) ∧
    f ∈ ([⟨false, false, false, false, false⟩, ⟨true, false, false, false, false⟩,
      ⟨false, true, false, false, false⟩, ⟨false, false, false, false, true⟩,
      ⟨false, true, false, false, true⟩, ⟨false, false, true, false, true⟩,
      ⟨false, true, true, false, true⟩, ⟨false, false, false, true, true⟩,
      ⟨false, true, false, true, true⟩] : List FlagSet)

/-- R160 item 3: with `DAZ` and `FTZ` clear, a finite difference that is neither inexact nor an overflow is
delivered exactly. -/
def Obligations.ExactWhenNotInexact : Prop :=
  ∀ (a b : Quad) (rc : Rounding), isFinite a = true → isFinite b = true →
    (cond a b rc false).inx = false → (cond a b rc false).ovf = false →
    isFinite (fsub64 a b rc false false).1 = true ∧
    intValue (fsub64 a b rc false false).1 = intValue a - intValue b

/-- R144, R159: in the directed modes the result is the closest double on the allowed side of the exact
difference: no finite double lies strictly between. -/
def Obligations.DirectedRoundingIsTight : Prop :=
  ∀ (a b : Quad) (rc : Rounding), isFinite a = true → isFinite b = true →
    (cond a b rc false).ovf = false →
    let d := intValue a - intValue b
    let r := intValue (fsub64 a b rc false false).1
    match rc with
    | .rd => r ≤ d ∧ ∀ x, isFinite x = true → intValue x ≤ d → intValue x ≤ r
    | .ru => d ≤ r ∧ ∀ x, isFinite x = true → d ≤ intValue x → r ≤ intValue x
    | .rz => r.natAbs ≤ d.natAbs ∧ 0 ≤ r * d ∧
        ∀ x, isFinite x = true → (intValue x).natAbs ≤ d.natAbs → (intValue x).natAbs ≤ r.natAbs
    | .rn => True

/-- R144, R159: in mode RN no finite double is closer to the exact difference than the result, and when
another is as close the result has an even fraction. -/
def Obligations.NearestRounding : Prop :=
  ∀ (a b : Quad), isFinite a = true → isFinite b = true → (cond a b .rn false).ovf = false →
    let d := intValue a - intValue b
    let r := (fsub64 a b .rn false false).1
    isFinite r = true ∧
    ∀ x, isFinite x = true →
      (intValue r - d).natAbs ≤ (intValue x - d).natAbs ∧
      ((intValue r - d).natAbs = (intValue x - d).natAbs → intValue x ≠ intValue r → fracOf r % 2 = 0)

/-- R147 step 7, R151: which differences overflow in each mode (in units of 2^-1074; `MAXF` is
`(2^53 - 1) * 2^2045`), and what a masked overflow delivers, with `OE` and `PE`. -/
def Obligations.OverflowResult : Prop :=
  ∀ (a b : Quad) (rc : Rounding) (daz ftz : Bool), isFinite a = true → isFinite b = true →
    let d := intValue (dazIn a daz) - intValue (dazIn b daz)
    let maxf : Int := (2 ^ 53 - 1) * 2 ^ 2045
    ((cond a b rc daz).ovf = true ↔
      match rc with
      | .rn => maxf + 2 ^ 2044 ≤ (d.natAbs : Int)
      | .rz => maxf + 2 ^ 2045 ≤ (d.natAbs : Int)
      | .rd => maxf + 2 ^ 2045 ≤ d ∨ d < -maxf
      | .ru => maxf < d ∨ d ≤ -maxf - 2 ^ 2045) ∧
    ((cond a b rc daz).ovf = true →
      (fsub64 a b rc daz ftz).1 =
        (match rc, decide (d < 0) with
        | .rn, false => 0x7FF0000000000000#64
        | .rn, true => 0xFFF0000000000000#64
        | .rd, false => 0x7FEFFFFFFFFFFFFF#64
        | .rd, true => 0xFFF0000000000000#64
        | .ru, false => 0x7FF0000000000000#64
        | .ru, true => 0xFFEFFFFFFFFFFFFF#64
        | .rz, false => 0x7FEFFFFFFFFFFFFF#64
        | .rz, true => 0xFFEFFFFFFFFFFFFF#64) ∧
      (fsub64 a b rc daz ftz).2.oe = true ∧ (fsub64 a b rc daz ftz).2.pe = true)

/-- R160 item 6: when the result is a NaN, when `IE` is set, and that a NaN result is quiet. -/
def Obligations.NanResultIff : Prop :=
  ∀ (a b : Quad) (rc : Rounding) (daz ftz : Bool),
    let likeInf := isInf a && isInf b && decide (signOf a = signOf b)
    isNaN (fsub64 a b rc daz ftz).1 = (isNaN a || isNaN b || likeInf) ∧
    (fsub64 a b rc daz ftz).2.ie = (isSNaN a || isSNaN b || likeInf) ∧
    isSNaN (fsub64 a b rc daz ftz).1 = false

/-- R160 item 7: with `FTZ` = 1 no result is a denormal. -/
def Obligations.FlushedNeverDenormal : Prop :=
  ∀ (a b : Quad) (rc : Rounding) (daz : Bool), isDen (fsub64 a b rc daz true).1 = false

/-- R152: a tiny difference (non-zero, below `2^-1022`, which is `2^52` units). Without flush-to-zero it is
delivered exactly and sets neither `UE` nor `PE`; with it, a zero of the sign of the difference with `UE` and
`PE`. -/
def Obligations.TinyResult : Prop :=
  ∀ (a b : Quad) (rc : Rounding) (daz ftz : Bool), isFinite a = true → isFinite b = true →
    let d := intValue (dazIn a daz) - intValue (dazIn b daz)
    d ≠ 0 → d.natAbs < 2 ^ 52 →
    (cond a b rc daz).tiny = true ∧
    (ftz = false → isDen (fsub64 a b rc daz ftz).1 = true ∧ intValue (fsub64 a b rc daz ftz).1 = d ∧
      (fsub64 a b rc daz ftz).2.ue = false ∧ (fsub64 a b rc daz ftz).2.pe = false) ∧
    (ftz = true → (fsub64 a b rc daz ftz).1 = signedZero (decide (d < 0)) ∧
      (fsub64 a b rc daz ftz).2.ue = true ∧ (fsub64 a b rc daz ftz).2.pe = true)

/-- R160 item 4 (Sterbenz), with `DAZ` and `FTZ` clear: close operands of one sign subtract exactly. -/
def Obligations.SterbenzExact : Prop :=
  ∀ (a b : Quad) (rc : Rounding), isFinite a = true → isFinite b = true → signOf a = signOf b →
    (intValue b).natAbs ≤ 2 * (intValue a).natAbs → (intValue a).natAbs ≤ 2 * (intValue b).natAbs →
    intValue (fsub64 a b rc false false).1 = intValue a - intValue b ∧
    (fsub64 a b rc false false).2.pe = false ∧ (fsub64 a b rc false false).2.oe = false

/-- R160 item 5, with `FTZ` clear: subtracting `+0` gives the operand back, but `-0` for `+0` in mode RD, and
under `DAZ` the zero of its sign for a denormal (a positive one is a `+0` then, so in mode RD `-0` by R150);
`+0` minus an operand is its negation. Either way `DE` is set exactly for a denormal without `DAZ`, and no
other flag. -/
def Obligations.SubtractZero : Prop :=
  ∀ (x : Quad) (rc : Rounding) (daz : Bool), isNaN x = false →
    (fsub64 x 0 rc daz false).1 =
      (if dazIn x daz = 0 ∧ rc = .rd then signedZero true else dazIn x daz) ∧
    (isZero x = false → (isDen x && daz) = false → (fsub64 0 x rc daz false).1 = negate x) ∧
    (fsub64 x 0 rc daz false).2 = ⟨false, isDen x && !daz, false, false, false⟩ ∧
    (fsub64 0 x rc daz false).2 = ⟨false, isDen x && !daz, false, false, false⟩

/-- R154: `DE` is signalled exactly when `DAZ` = 0, an operand is a denormal and neither is a NaN, an infinite
other operand included. -/
def Obligations.DenormalFlagIff : Prop :=
  ∀ (a b : Quad) (rc : Rounding) (daz ftz : Bool),
    (fsub64 a b rc daz ftz).2.de = (!daz && (isDen a || isDen b) && !(isNaN a || isNaN b))

/-- R160 item 1: in modes RN and RZ, swapping finite unequal operands negates the result and keeps the
flags. -/
def Obligations.SwapNegates : Prop :=
  ∀ (a b : Quad) (rc : Rounding) (daz ftz : Bool), isFinite a = true → isFinite b = true →
    intValue (dazIn a daz) ≠ intValue (dazIn b daz) → rc = .rn ∨ rc = .rz →
    (fsub64 b a rc daz ftz).1 = negate (fsub64 a b rc daz ftz).1 ∧
    (fsub64 b a rc daz ftz).2 = (fsub64 a b rc daz ftz).2

/-! ### Packed exceptions (spec/60_exceptions.md R212 to R215) -/

/-- R213 with consequence (b): without suppression a packed subtraction completes exactly when no computed
lane has an unmasked condition, and then MXCSR is OR-ed with the `FSUB64` flags of the computed lanes. -/
def Obligations.PackedCompletesIffQuiet : Prop :=
  ∀ (s : State) (n : Nat) (a b : Nat → Quad) (active : Nat → Bool) (rc : Rounding) (mx : BitVec 32),
    packedSub s n a b active rc false = .ok mx ↔
      QuietLanes s n a b active rc ∧ mx = flagsAfter s n a b active rc

/-- R213, R214, R215, U8: when some computed lane has an unmasked condition, a form with a register source, or
with a readable memory source (16-byte aligned for SUBPD), raises `#XM` (`#UD` with `CR4.OSXMMEXCPT` = 0), with
the flags of the two-phase rule set, or those the loose reading of `XM_FLAGS` allows (log entry 9), and nothing
else changed. That this holds too where masked-off bytes of an EVEX operand run past the top of the space
(`SUPPRESS_SCOPE` = all) is the model's reading of U6 and D21 (log entry 19). -/
def Obligations.UnmaskedConditionRaises : Prop :=
  ∀ (s : State),
    (∀ (pre : List Prefix) (rex : Option Rex) (reg r : BitVec 3), Enabled .legacy s →
      let a := regLanes s (num5 false (rex.any Rex.r) reg)
      let b := regLanes s (num5 false (rex.any Rex.b) r)
      ¬ QuietLanes s 2 a b allLanes (mxRC s.mxcsr) →
      RaisesSimd (.subpd pre rex reg (.reg r)) s 2 a b allLanes (mxRC s.mxcsr)) ∧
    (∀ (pre : List Prefix) (rex : Option Rex) (reg : BitVec 3) (rm : RmOperand),
      rm.isMem = true → Enabled .legacy s →
      let i := Instr.subpd pre rex reg rm
      let src := operandAddress s pre (rex.any Rex.x) (rex.any Rex.b) 1 i.length rm
      let a := regLanes s (num5 false (rex.any Rex.r) reg)
      let b := memLanes s src.2 false
      src.2.toNat % 16 = 0 → Readable s src.1 src.2 2 false allLanes →
      ¬ QuietLanes s 2 a b allLanes (mxRC s.mxcsr) →
      RaisesSimd i s 2 a b allLanes (mxRC s.mxcsr)) ∧
    (∀ (i : Instr) (n : Nat) (pre : List Prefix) (d s1 : BitVec 5) (x bb : Bool) (r : BitVec 3),
      VexForm i n pre d s1 x bb (.reg r) → Enabled .vex s →
      let a := regLanes s s1
      let b := regLanes s (num5 false bb r)
      ¬ QuietLanes s n a b allLanes (mxRC s.mxcsr) →
      RaisesSimd i s n a b allLanes (mxRC s.mxcsr)) ∧
    (∀ (i : Instr) (n : Nat) (pre : List Prefix) (d s1 : BitVec 5) (x bb : Bool) (rm : RmOperand),
      VexForm i n pre d s1 x bb rm → rm.isMem = true → Enabled .vex s →
      let src := operandAddress s pre x bb 1 i.length rm
      let a := regLanes s s1
      let b := memLanes s src.2 false
      Readable s src.1 src.2 n false allLanes →
      ¬ QuietLanes s n a b allLanes (mxRC s.mxcsr) →
      RaisesSimd i s n a b allLanes (mxRC s.mxcsr)) ∧
    (∀ (i : Instr) (n : Nat) (pre : List Prefix) (e : Evex) (reg r : BitVec 3),
      EvexForm i n pre e false reg (.reg r) → Enabled i.cls s →
      let a := regLanes s (vvvvNum e.v2 e.vvvv)
      let b := regLanes s (num5 e.x e.b r)
      ¬ QuietLanes s n a b (activeLane s e.aaa) (mxRC s.mxcsr) →
      RaisesSimd i s n a b (activeLane s e.aaa) (mxRC s.mxcsr)) ∧
    (∀ (i : Instr) (n : Nat) (pre : List Prefix) (e : Evex) (bcst : Bool) (reg : BitVec 3)
      (rm : RmOperand),
      EvexForm i n pre e bcst reg rm → rm.isMem = true → Enabled i.cls s →
      let src := operandAddress s pre e.x e.b (dispFactor n bcst) i.length rm
      let a := regLanes s (vvvvNum e.v2 e.vvvv)
      let b := memLanes s src.2 bcst
      Readable s src.1 src.2 n bcst (activeLane s e.aaa) →
      ¬ QuietLanes s n a b (activeLane s e.aaa) (mxRC s.mxcsr) →
      RaisesSimd i s n a b (activeLane s e.aaa) (mxRC s.mxcsr))

/-! ### What each form does when it completes, with its frame (R170 to R200) -/

/-- R170, R171: SUBPD with a register source, enabled and with quiet lanes, completes: two differences, the
upper lanes kept. -/
def Obligations.SubpdRegisterCompletes : Prop :=
  ∀ (pre : List Prefix) (rex : Option Rex) (reg r : BitVec 3) (s : State), Enabled .legacy s →
    let d := num5 false (rex.any Rex.r) reg
    let a := regLanes s d
    let b := regLanes s (num5 false (rex.any Rex.b) r)
    QuietLanes s 2 a b allLanes (mxRC s.mxcsr) →
    Completes (.subpd pre rex reg (.reg r)) s d (fun j => if j < 2 then plainResult s 2 a b j else a j)
      (flagsAfter s 2 a b allLanes (mxRC s.mxcsr))

/-- R170, R171, R65: SUBPD with a memory source that is readable and 16-byte aligned completes. -/
def Obligations.SubpdMemoryCompletes : Prop :=
  ∀ (pre : List Prefix) (rex : Option Rex) (reg : BitVec 3) (rm : RmOperand) (s : State),
    rm.isMem = true → Enabled .legacy s →
    let i := Instr.subpd pre rex reg rm
    let d := num5 false (rex.any Rex.r) reg
    let src := operandAddress s pre (rex.any Rex.x) (rex.any Rex.b) 1 i.length rm
    let a := regLanes s d
    let b := memLanes s src.2 false
    src.2.toNat % 16 = 0 → Readable s src.1 src.2 2 false allLanes →
    QuietLanes s 2 a b allLanes (mxRC s.mxcsr) →
    Completes i s d (fun j => if j < 2 then plainResult s 2 a b j else a j)
      (flagsAfter s 2 a b allLanes (mxRC s.mxcsr))

/-- R180, R181: the four VEX forms with a register source complete: two or four differences, the upper lanes
zero. -/
def Obligations.VexRegisterCompletes : Prop :=
  ∀ (i : Instr) (n : Nat) (pre : List Prefix) (d s1 : BitVec 5) (x bb : Bool) (r : BitVec 3)
    (s : State), VexForm i n pre d s1 x bb (.reg r) → Enabled .vex s →
    let a := regLanes s s1
    let b := regLanes s (num5 false bb r)
    QuietLanes s n a b allLanes (mxRC s.mxcsr) →
    Completes i s d (plainResult s n a b) (flagsAfter s n a b allLanes (mxRC s.mxcsr))

/-- R180, R181, R65: the four VEX forms with a readable memory source complete, aligned or not. -/
def Obligations.VexMemoryCompletes : Prop :=
  ∀ (i : Instr) (n : Nat) (pre : List Prefix) (d s1 : BitVec 5) (x bb : Bool) (rm : RmOperand)
    (s : State), VexForm i n pre d s1 x bb rm → rm.isMem = true → Enabled .vex s →
    let src := operandAddress s pre x bb 1 i.length rm
    let a := regLanes s s1
    let b := memLanes s src.2 false
    Readable s src.1 src.2 n false allLanes →
    QuietLanes s n a b allLanes (mxRC s.mxcsr) →
    Completes i s d (plainResult s n a b) (flagsAfter s n a b allLanes (mxRC s.mxcsr))

/-- R190 to R194: the three EVEX forms with a register source complete: computed lanes get differences, others
zero or their old value, lanes above the length zero. -/
def Obligations.EvexRegisterCompletes : Prop :=
  ∀ (i : Instr) (n : Nat) (pre : List Prefix) (e : Evex) (reg r : BitVec 3) (s : State),
    EvexForm i n pre e false reg (.reg r) → Enabled i.cls s →
    let d := num5 e.r2 e.r reg
    let a := regLanes s (vvvvNum e.v2 e.vvvv)
    let b := regLanes s (num5 e.x e.b r)
    QuietLanes s n a b (activeLane s e.aaa) (mxRC s.mxcsr) →
    Completes i s d (maskedResult s n e d (mxRC s.mxcsr) a b)
      (flagsAfter s n a b (activeLane s e.aaa) (mxRC s.mxcsr))

/-- R190 to R196: the three EVEX forms with a memory source, broadcast or not, complete when the bytes the
computed lanes need are readable. That this holds too where masked-off bytes alone run past the top of the
space (`SUPPRESS_SCOPE` = all) is the model's reading of U6 and D21 (log entry 19). -/
def Obligations.EvexMemoryCompletes : Prop :=
  ∀ (i : Instr) (n : Nat) (pre : List Prefix) (e : Evex) (bcst : Bool) (reg : BitVec 3)
    (rm : RmOperand) (s : State),
    EvexForm i n pre e bcst reg rm → rm.isMem = true → Enabled i.cls s →
    let d := num5 e.r2 e.r reg
    let src := operandAddress s pre e.x e.b (dispFactor n bcst) i.length rm
    let a := regLanes s (vvvvNum e.v2 e.vvvv)
    let b := memLanes s src.2 bcst
    Readable s src.1 src.2 n bcst (activeLane s e.aaa) →
    QuietLanes s n a b (activeLane s e.aaa) (mxRC s.mxcsr) →
    Completes i s d (maskedResult s n e d (mxRC s.mxcsr) a b)
      (flagsAfter s n a b (activeLane s e.aaa) (mxRC s.mxcsr))

/-- R197, R198: the embedded-rounding form completes whatever its operands and the MXCSR masks are: the
masked result in the mode of the instruction, MXCSR as it was. -/
def Obligations.EmbeddedRoundingCompletes : Prop :=
  ∀ (pre : List Prefix) (e : Evex) (rc : Rounding) (reg r : BitVec 3) (s : State),
    Enabled (.evex 512) s →
    let d := num5 e.r2 e.r reg
    Completes (.vsubpdEvex512er pre e rc reg r) s d
      (maskedResult s 8 e d rc (regLanes s (vvvvNum e.v2 e.vvvv)) (regLanes s (num5 e.x e.b r)))
      s.mxcsr

/-- R199 item 1: under `SUPPRESS_SCOPE` = all, an EVEX memory form with every lane masked off completes
wherever its operand is: no fault, no flag; merging keeps the low lanes, zeroing clears them. Where the
operand runs past the top of the space this is the model's reading of U6 and D21 (log entry 19). -/
def Obligations.AllMaskedOffCompletes : Prop :=
  ∀ (i : Instr) (n : Nat) (pre : List Prefix) (e : Evex) (bcst : Bool) (reg : BitVec 3)
    (rm : RmOperand) (s : State),
    EvexForm i n pre e bcst reg rm → rm.isMem = true → Enabled i.cls s →
    s.params.suppressScope = .all → (∀ j, j < n → activeLane s e.aaa j = false) →
    let d := num5 e.r2 e.r reg
    Completes i s d (fun j => if j < n ∧ e.z = false then regLanes s d j else 0) s.mxcsr

/-! ### What stops a form (spec/60_exceptions.md) -/

/-- R216, R217, R224 steps 4 and 5: every form raises `#UD` when its class is not usable (the VEX and EVEX
classes never are in real-address and virtual-8086 mode), else `#NM` when `CR0.TS` = 1, with nothing changed;
SUBPD that passes both in one of those modes is refused (D28, log entry 14). -/
def Obligations.EnableChecks : Prop :=
  ∀ (i : Instr) (s : State),
    (s.usable i.cls = false → exec i s = .fault (.invalidOpcode s)) ∧
    (s.usable i.cls = true → s.cr0TS = true → exec i s = .fault (.deviceNotAvailable s)) ∧
    (s.mode = .real ∨ s.mode = .virtual8086 →
      (i.cls ≠ .legacy → s.usable i.cls = false) ∧
      (i.cls = .legacy → s.usable .legacy = true → s.cr0TS = false →
        exec i s = .refused .modeNotDescribed))

/-- R65, R218, R224: a misaligned operand of SUBPD raises `#GP(0)` whatever its contents, the enables being
on; only through SS in 64-bit mode, with a non-canonical byte besides, may it be `#SS(0)` instead (U7). -/
def Obligations.SubpdMisaligned : Prop :=
  ∀ (pre : List Prefix) (rex : Option Rex) (reg : BitVec 3) (rm : RmOperand) (s : State),
    rm.isMem = true → Enabled .legacy s →
    let i := Instr.subpd pre rex reg rm
    let src := operandAddress s pre (rex.any Rex.x) (rex.any Rex.b) 1 i.length rm
    src.2.toNat % 16 ≠ 0 →
    exec i s = .fault (.generalProtection s) ∨
    (s.mode = .long64 ∧ src.1 = .ss ∧
      (∃ a ∈ byteRange src.2.toNat 16, canonical s.params.law a = false) ∧
      exec i s = .fault (.stackSegment s))

/-- R219, R195, R170 step 3: a memory form one of whose checked bytes is outside the canonical space (or, in
32-bit mode, the segment) raises `#SS(0)` through SS and `#GP(0)` otherwise, unless a checked byte lies past the
top of the space (log entry 19). The form is SUBPD with a 16-byte aligned operand, VEX or EVEX; checked are the needed bytes,
or all of them under `SUPPRESS_SCOPE` = pf_only. That this comes before an `#AC(0)` that a misaligned broadcast
may raise is the model's choice (log entry 10), since R224 gives `#AC(0)` no place. -/
def Obligations.OutsideOperandFaults : Prop :=
  (∀ (pre : List Prefix) (rex : Option Rex) (reg : BitVec 3) (rm : RmOperand) (s : State),
    rm.isMem = true → Enabled .legacy s →
    let i := Instr.subpd pre rex reg rm
    let src := operandAddress s pre (rex.any Rex.x) (rex.any Rex.b) 1 i.length rm
    src.2.toNat % 16 = 0 →
    (∃ a ∈ wholeBytes src.2.toNat 2 false, outside s .read src.1 a = true) →
    exec i s = .fault (if src.1 = .ss then .stackSegment s else .generalProtection s)) ∧
  (∀ (i : Instr) (n : Nat) (pre : List Prefix) (d s1 : BitVec 5) (x bb : Bool) (rm : RmOperand)
    (s : State), VexForm i n pre d s1 x bb rm → rm.isMem = true → Enabled .vex s →
    let src := operandAddress s pre x bb 1 i.length rm
    (∀ a ∈ wholeBytes src.2.toNat n false, a < spaceTop s.mode) →
    (∃ a ∈ wholeBytes src.2.toNat n false, outside s .read src.1 a = true) →
    exec i s = .fault (if src.1 = .ss then .stackSegment s else .generalProtection s)) ∧
  (∀ (i : Instr) (n : Nat) (pre : List Prefix) (e : Evex) (bcst : Bool) (reg : BitVec 3)
    (rm : RmOperand) (s : State),
    EvexForm i n pre e bcst reg rm → rm.isMem = true → Enabled i.cls s →
    let src := operandAddress s pre e.x e.b (dispFactor n bcst) i.length rm
    let needed := neededBytes src.2.toNat n bcst (activeLane s e.aaa)
    let checked :=
      if s.params.suppressScope = .pfOnly then wholeBytes src.2.toNat n bcst else needed
    (∀ a ∈ checked, a < spaceTop s.mode) →
    (∃ a ∈ checked, outside s .read src.1 a = true) →
    exec i s = .fault (if src.1 = .ss then .stackSegment s else .generalProtection s))

/-- R221, R195, R69, U5: a memory form (SUBPD with an aligned operand, VEX, EVEX) whose checked bytes are inside,
and a needed byte of which paging refuses, raises `#PF` for one of the refused needed bytes: its error code, and
its address in CR2 (in the fault's state: log entry 16). In a SUBPD or VEX form every byte is needed and checked;
in an EVEX form the needed bytes are checked, under `SUPPRESS_SCOPE` = pf_only all of them. That this holds where
masked-off bytes run past the top of the space is the model's reading (log entry 19), and that it comes before
an `#AC(0)` that a misaligned broadcast may raise its choice (log entry 10). -/
def Obligations.NeededByteRefusedByPaging : Prop :=
  (∀ (pre : List Prefix) (rex : Option Rex) (reg : BitVec 3) (rm : RmOperand) (s : State),
    rm.isMem = true → Enabled .legacy s →
    let i := Instr.subpd pre rex reg rm
    let src := operandAddress s pre (rex.any Rex.x) (rex.any Rex.b) 1 i.length rm
    let whole := wholeBytes src.2.toNat 2 false
    src.2.toNat % 16 = 0 → (∀ a ∈ whole, Inside s src.1 a) →
    (∃ a ∈ whole, (pageDenial s .read src.1 a).isSome = true) →
    ∃ a ∈ whole, ∃ bits, pageDenial s .read src.1 a = some bits ∧
      exec i s = .fault (.pageFault (pageFaultCode bits s.cpl .read) (BitVec.ofNat 64 a)
        { s with cr2 := BitVec.ofNat 64 a })) ∧
  (∀ (i : Instr) (n : Nat) (pre : List Prefix) (d s1 : BitVec 5) (x bb : Bool) (rm : RmOperand)
    (s : State), VexForm i n pre d s1 x bb rm → rm.isMem = true → Enabled .vex s →
    let src := operandAddress s pre x bb 1 i.length rm
    let whole := wholeBytes src.2.toNat n false
    (∀ a ∈ whole, Inside s src.1 a) →
    (∃ a ∈ whole, (pageDenial s .read src.1 a).isSome = true) →
    ∃ a ∈ whole, ∃ bits, pageDenial s .read src.1 a = some bits ∧
      exec i s = .fault (.pageFault (pageFaultCode bits s.cpl .read) (BitVec.ofNat 64 a)
        { s with cr2 := BitVec.ofNat 64 a })) ∧
  (∀ (i : Instr) (n : Nat) (pre : List Prefix) (e : Evex) (bcst : Bool) (reg : BitVec 3)
    (rm : RmOperand) (s : State),
    EvexForm i n pre e bcst reg rm → rm.isMem = true → Enabled i.cls s →
    let src := operandAddress s pre e.x e.b (dispFactor n bcst) i.length rm
    let needed := neededBytes src.2.toNat n bcst (activeLane s e.aaa)
    let checked :=
      if s.params.suppressScope = .pfOnly then wholeBytes src.2.toNat n bcst else needed
    (∀ a ∈ checked, Inside s src.1 a) →
    (∃ a ∈ needed, (pageDenial s .read src.1 a).isSome = true) →
    ∃ a ∈ needed, ∃ bits, pageDenial s .read src.1 a = some bits ∧
      exec i s = .fault (.pageFault (pageFaultCode bits s.cpl .read) (BitVec.ofNat 64 a)
        { s with cr2 := BitVec.ofNat 64 a }))

/-- R221: the bits of a page fault's error code. -/
def Obligations.PageFaultCodeBits : Prop :=
  ∀ (b : PageBits) (cpl : BitVec 2) (kind : AccessKind) (i : Nat),
    (pageFaultCode b cpl kind).getLsbD i =
      match i with
      | 0 => b.p
      | 2 => decide (cpl = 3)
      | 3 => b.rsvd
      | 4 => decide (kind = .fetch)
      | 5 => b.pk
      | 6 => b.ss
      | 15 => b.sgx
      | _ => false

/-- R228, R214, R221: faults are precise. The state a step's fault carries differs from the state before only in
MXCSR, which a floating-point exception alone OR-s flags into, and in CR2, which a page fault alone writes, with
the address it reports (CR2 in that state is the model's reading of R221, log entry 16). -/
def Obligations.FaultsArePrecise : Prop :=
  ∀ (s : State) (f : Fault), step s = .fault f →
    f.state = { s with mxcsr := f.state.mxcsr, cr2 := f.state.cr2 } ∧
    (∃ fl, f.state.mxcsr = orFlags s.mxcsr fl) ∧
    (f.vector = 19 ∨ f.vector = 6 ∨ f.state.mxcsr = s.mxcsr) ∧
    f.state.cr2 = f.extra.getD s.cr2

/-- R115, R224 steps 1 to 3: once its bytes are fetchable, an instruction over 15 bytes raises `#GP(0)`, and an
illegal encoding `#UD`, with nothing changed. -/
def Obligations.IllegalEncodingFaults : Prop :=
  ∀ (s : State) (n : Nat), Fetchable s n →
    (decode s.mode (fetchWindow s) = .tooLong n → step s = .fault (.generalProtection s)) ∧
    (decode s.mode (fetchWindow s) = .ud n → step s = .fault (.invalidOpcode s))

/-- R79, R225, R224 steps 1 and 2: when a byte that decoding found to belong to the instruction is outside the
canonical space or CS the step raises `#GP(0)`, and when paging refuses one, `#PF` with the `I/D` bit and that
byte's address in CR2, before anything else: whatever the bytes are, an illegal or over-long encoding included.
Where both hold it is one of the two (U14, log entry 11). The state, and the pc in it, is the one before. -/
def Obligations.FetchFaults : Prop :=
  ∀ (s : State),
    let bytes := byteRange (fetchAddress s).toNat (decode s.mode (fetchWindow s)).consumed
    (∀ a ∈ bytes, a < spaceTop s.mode) →
    let beyond := ∃ a ∈ bytes, outside s .fetch .cs a = true
    let refused := ∃ a ∈ bytes, (pageDenial s .fetch .cs a).isSome = true
    let gp := step s = .fault (.generalProtection s)
    let pf := ∃ a ∈ bytes, ∃ bits, pageDenial s .fetch .cs a = some bits ∧
      (pageFaultCode bits s.cpl .fetch).getLsbD 4 = true ∧
      step s = .fault (.pageFault (pageFaultCode bits s.cpl .fetch) (BitVec.ofNat 64 a)
        { s with cr2 := BitVec.ofNat 64 a })
    (beyond → ¬ refused → gp) ∧ (refused → ¬ beyond → pf) ∧ (beyond → refused → gp ∨ pf)

/-- What a step refuses. Fetchable bytes that are none of the six forms (R5, R114, R118); SUBPD in real-address
or virtual-8086 mode once enabled (D28, log entry 14); an instruction past the top of the address space (U6,
D21) or in device memory (R71); and, of an enabled VEX or EVEX form, an operand a checked byte of which lies
past the top (U6, D21, log entry 19), of any enabled memory form one whose needed bytes are all accessible but
not all ordinary memory (R71, log entry 20). -/
def Obligations.Refusals : Prop :=
  ∀ (s : State),
    let d := decode s.mode (fetchWindow s)
    let code := byteRange (fetchAddress s).toNat d.consumed
    (∀ why n, d = .foreign why n → Fetchable s n → step s = .refused (.notThisInstruction why)) ∧
    (∀ n, d = .otherMode .legacy n → Fetchable s n → s.usable .legacy = true → s.cr0TS = false →
      step s = .refused .modeNotDescribed) ∧
    ((∃ a ∈ code, spaceTop s.mode ≤ a) → step s = .refused .addressWrap) ∧
    ((∀ a ∈ code, a < spaceTop s.mode ∧ outside s .fetch .cs a = false ∧
        pageDenial s .fetch .cs a = none) →
      (∃ a ∈ code, isDevice s .fetch .cs a = true) → step s = .refused .deviceMemory) ∧
    (∀ (pre : List Prefix) (rex : Option Rex) (reg : BitVec 3) (rm : RmOperand),
      rm.isMem = true → Enabled .legacy s →
      let i := Instr.subpd pre rex reg rm
      let src := operandAddress s pre (rex.any Rex.x) (rex.any Rex.b) 1 i.length rm
      let whole := wholeBytes src.2.toNat 2 false
      src.2.toNat % 16 = 0 →
      (∀ a ∈ whole, Inside s src.1 a ∧ pageDenial s .read src.1 a = none) →
      (∃ a ∈ whole, isDevice s .read src.1 a = true) → exec i s = .refused .deviceMemory) ∧
    (∀ (i : Instr) (n : Nat) (pre : List Prefix) (d s1 : BitVec 5) (x bb : Bool) (rm : RmOperand),
      VexForm i n pre d s1 x bb rm → rm.isMem = true → Enabled .vex s →
      let src := operandAddress s pre x bb 1 i.length rm
      let whole := wholeBytes src.2.toNat n false
      ((∃ a ∈ whole, spaceTop s.mode ≤ a) → exec i s = .refused .addressWrap) ∧
      ((∀ a ∈ whole, Inside s src.1 a ∧ pageDenial s .read src.1 a = none) →
        (∃ a ∈ whole, isDevice s .read src.1 a = true) → exec i s = .refused .deviceMemory)) ∧
    (∀ (i : Instr) (n : Nat) (pre : List Prefix) (e : Evex) (bcst : Bool) (reg : BitVec 3)
      (rm : RmOperand),
      EvexForm i n pre e bcst reg rm → rm.isMem = true → Enabled i.cls s →
      let src := operandAddress s pre e.x e.b (dispFactor n bcst) i.length rm
      let needed := neededBytes src.2.toNat n bcst (activeLane s e.aaa)
      let checked :=
        if s.params.suppressScope = .pfOnly then wholeBytes src.2.toNat n bcst else needed
      ((∃ a ∈ checked, spaceTop s.mode ≤ a) → exec i s = .refused .addressWrap) ∧
      ((∀ a ∈ checked, Inside s src.1 a) → (∀ a ∈ needed, pageDenial s .read src.1 a = none) →
        (∃ a ∈ needed, isDevice s .read src.1 a = true) → exec i s = .refused .deviceMemory))

/-! ### Steps and runs -/

/-- R224, R267: when the bytes at the pc decode to an instruction (a well-formed one, by `DecodeSound`) and are
fetchable, the step is that instruction's meaning: nothing is done around it. -/
def Obligations.StepRunsDecoded : Prop :=
  ∀ (s : State) (i : Instr), decode s.mode (fetchWindow s) = .instr i → Fetchable s i.length →
    step s = exec i s

/-- R267, R79: an instruction stored at the pc is fetched, decoded and run: encoder, memory (in the model's
canonical form, log entry 3), decoder and step fit together, in every mode that has the instruction. -/
def Obligations.PlacedInstructionRuns : Prop :=
  ∀ (s : State) (i : Instr), s.mem.wf = true → wellFormed s.mode i = true → Fetchable s i.length →
    step (s.placeCode (encode i)) = exec i (s.placeCode (encode i))

/-- R20, R24, R28, R30, R31, R33, R66, R156: what any step that completes changes. It ran the instruction that
the bytes at the pc decode to. Of the vector registers that instruction's destination alone changes, which is
one the mode has; in MXCSR only the flags IE, DE, OE, UE, PE, never from 1 to 0; the pc, by the length of the
instruction, 4 to 15 bytes. Opmasks, general registers, segment bases, RFLAGS, control registers, mode,
privilege level and every byte of memory stay. -/
def Obligations.StepFrame : Prop :=
  ∀ (s t : State), step s = .next t →
    ∃ i, decode s.mode (fetchWindow s) = .instr i ∧ exec i s = .next t ∧ SameElsewhere s t ∧
      (s.vreg i.dest).toNat < s.nvec ∧ (∀ n, n ≠ s.vreg i.dest → t.readV n = s.readV n) ∧
      (∃ f, t.mxcsr = orFlags s.mxcsr f) ∧
      4 ≤ i.length ∧ i.length ≤ 15 ∧ t.rip = s.nextPc i.length

/-- Every step keeps the invariant: canonical memory (log entry 3), no register bit at or above `MAXVL` or `KW`
(R6, R21, R24, log entry 6), MXCSR bits 31:16 zero (R26), a 32-bit pc outside 64-bit mode (R30). -/
def Obligations.InvKeptByStep : Prop :=
  ∀ (s t : State), Inv s → step s = .next t → Inv t

/-- The reset state meets the invariant. -/
def Obligations.InvAtReset : Prop := Inv State.reset

/-- R267, R66, R28: however a run of any number of steps goes, the state it stops in has the memory, opmasks,
general registers and control state it began with (CR2 apart, log entry 16), and no MXCSR flag has been
cleared. -/
def Obligations.RunKeepsMemory : Prop :=
  ∀ (stop : Quad) (n : Nat) (s t : State), (runProgram stop n s).state? = some t →
    SameElsewhere s { t with cr2 := s.cr2 } ∧ ∃ f, t.mxcsr = orFlags s.mxcsr f

/-! ### Decoding (spec/30_encoding.md) -/

/-- R90 to R112: decoding the encoding of a well-formed instruction gives it back, whatever follows it.
Dropped REX bytes and several segment overrides are well formed by the model's choice (log entries 12, 23). -/
def Obligations.DecodeEncode : Prop :=
  ∀ (m : Mode) (i : Instr) (tail : List Byte), wellFormed m i = true →
    decode m (encode i ++ tail) = .instr i

/-- R114: what decodes is well formed, and its encoding is the very bytes it was decoded from. -/
def Obligations.DecodeSound : Prop :=
  ∀ (m : Mode) (bytes : List Byte) (i : Instr), decode m bytes = .instr i →
    wellFormed m i = true ∧ encode i = bytes.take i.length

/-- R90, R115: the lengths of the six forms. -/
def Obligations.LengthBounds : Prop :=
  ∀ (m : Mode) (i : Instr), wellFormed m i = true →
    4 ≤ i.length ∧ i.length ≤ 15 ∧ ((∃ vl, i.cls = .evex vl) → 6 ≤ i.length)

/-- R92, R94, R99, R105, R119: in 64-bit mode LOCK in any form, `66`, `F2` or `F3` in a VEX or EVEX form, at any
place among its prefixes, and a REX byte immediately before its first VEX or EVEX byte, are `#UD`. If the
instruction is then over 15 bytes it is `#GP(0)` instead, by R224 steps 3 and 4 as the model reads them (log
entry 17; R114 alone would find the `#UD` first). -/
def Obligations.ForbiddenPrefixes : Prop :=
  ∀ (i : Instr) (tail : List Byte), wellFormed .long64 i = true →
    let verdict := if i.length < 15 then Decoded.ud (i.length + 1) else .tooLong (i.length + 1)
    let insert (k : Nat) (b : Byte) := (encode i).take k ++ b :: ((encode i).drop k ++ tail)
    (∀ (p : Prefix) (k : Nat), p = .lock ∨ (i.cls ≠ .legacy ∧ p.forbiddenBeforeVex = true) →
      k ≤ i.prefixes.length → decode .long64 (insert k p.byte) = verdict) ∧
    (∀ r : Rex, i.cls ≠ .legacy → decode .long64 (insert i.prefixes.length r.byte) = verdict)

/-- R105, R114, R119: the illegal EVEX encodings are `#UD`, the operand that ModRM announces belonging to them:
whatever the opcode, reserved bits or map 0; and, with the map, `pp` and opcode of VSUBPD, `W` = 0, zeroing
without a writemask, or a length of 11b that is a length. That SIB and displacement count is log entry 17. -/
def Obligations.EvexIllegal : Prop :=
  ∀ (p0 p1 p2 op : Byte) (reg : BitVec 3) (rm : RmOperand) (tail : List Byte), rm.ok = true →
    ((p0.extractLsb' 2 2 ≠ 0#2 ∨ p1.getLsbD 2 = false ∨ p0.extractLsb' 0 2 = 0#2) ∨
      (p0.extractLsb' 0 2 = 1#2 ∧ p1.extractLsb' 0 2 = 1#2 ∧ op = 0x5C#8 ∧
        (p1.getLsbD 7 = false ∨ (p2.getLsbD 7 = true ∧ p2.extractLsb' 0 3 = 0#3) ∨
          (p2.extractLsb' 5 2 = 3#2 ∧ (rm.isMem = true ∨ p2.getLsbD 4 = false))))) →
    decode .long64 (0x62#8 :: p0 :: p1 :: p2 :: op :: (encodeRm reg rm ++ tail)) = .ud (5 + rm.length)

/-- R118: the neighbours of opcode `0F 5C` are refused, not executed and not faulted; of an EVEX one the ModRM
byte has been read (R114). -/
def Obligations.NeighboursRefused : Prop :=
  ∀ (m : Mode) (tail : List Byte) (b b1 b2 p0 p1 p2 modRm : Byte),
    decode m (0x0F#8 :: 0x5C#8 :: tail) = .foreign .subps 2 ∧
    decode m (0xF3#8 :: 0x0F#8 :: 0x5C#8 :: tail) = .foreign .subss 3 ∧
    decode m (0xF2#8 :: 0x0F#8 :: 0x5C#8 :: tail) = .foreign .subsd 3 ∧
    decode m (0x66#8 :: 0xF3#8 :: 0x0F#8 :: 0x5C#8 :: tail) = .foreign .subss 4 ∧
    decode m (0x66#8 :: 0xF2#8 :: 0x0F#8 :: 0x5C#8 :: tail) = .foreign .subsd 4 ∧
    (b.extractLsb' 0 2 ≠ 1#2 →
      decode .long64 (0xC5#8 :: b :: 0x5C#8 :: tail) = .foreign .otherVex 3) ∧
    (b1.extractLsb' 0 5 = 1#5 → b2.extractLsb' 0 2 ≠ 1#2 →
      decode .long64 (0xC4#8 :: b1 :: b2 :: 0x5C#8 :: tail) = .foreign .otherVex 4) ∧
    (p0.extractLsb' 0 4 = 1#4 → p1.getLsbD 2 = true → p1.extractLsb' 0 2 ≠ 1#2 →
      decode .long64 (0x62#8 :: p0 :: p1 :: p2 :: 0x5C#8 :: modRm :: tail) = .foreign .otherEvex 6)

/-- R114 "It is total": 26 bytes decide what any bytes are, and the window a step fetches is long enough: more
bytes from the pc decode to the same (log entry 18). -/
def Obligations.WindowSuffices : Prop :=
  (∀ (m : Mode) (bytes : List Byte), decodeWindow ≤ bytes.length →
    ∀ n, decode m bytes ≠ .foreign .truncated n) ∧
  (∀ (s : State) (k : Nat), s.mem.length + decodeWindow ≤ k →
    decode s.mode (s.mem.readBytes (fetchAddress s).toNat k) = decode s.mode (fetchWindow s))

/-- Words written out from R95 to R105 and the examples of R170 to R199 decode to the instruction they stand
for. -/
def Obligations.WrittenWordsDecode : Prop :=
  decode .long64 [0x66, 0x0F, 0x5C, 0xC1] = .instr (.subpd [.opSize] none 0 (.reg 1)) ∧
  decode .long64 [0xC5, 0xF1, 0x5C, 0xC2] = .instr (.vsubpdVex2x128 [] ⟨false, 1⟩ 0 (.reg 2)) ∧
  decode .long64 [0xC4, 0xE1, 0xF5, 0x5C, 0xC2] =
    .instr (.vsubpdVex3x256 [] ⟨false, false, false, true, 1⟩ 0 (.reg 2)) ∧
  decode .long64 [0x62, 0xF1, 0xF5, 0x0A, 0x5C, 0x40, 0x01] =
    .instr (.vsubpdEvex128 [] ⟨false, false, false, false, 1, false, false, 2⟩ false 0
      (.base 0 (.d8 1))) ∧
  decode .long64 [0x62, 0xF1, 0xF5, 0xF9, 0x5C, 0xC2] =
    .instr (.vsubpdEvex512er [] ⟨false, false, false, false, 1, true, false, 1⟩ .rz 0 2)

/-! ### Addresses and memory -/

/-- R61: eight bytes are one value, byte `i` in bits `8i+7:8i`. -/
def Obligations.LittleEndian : Prop :=
  ∀ (m : Memory) (a i : Nat), i < 8 → (m.readQuad a).extractLsb' (8 * i) 8 = m.read (a + i)

/-- R111: in an EVEX form an 8-bit displacement addresses what the 32-bit displacement `N` times as large
does. -/
def Obligations.CompressedDisplacement : Prop :=
  ∀ (s : State) (pre : List Prefix) (x b bcst : Bool) (n len len' : Nat) (d : BitVec 8),
    n = 2 ∨ n = 4 ∨ n = 8 →
    let big := Disp.d32 (d.signExtend 32 * BitVec.ofNat 32 (if bcst then 8 else 8 * n))
    (∀ rm, operandAddress s pre x b (dispFactor n bcst) len (.base rm (.d8 d)) =
      operandAddress s pre x b (dispFactor n bcst) len' (.base rm big)) ∧
    (∀ sb, operandAddress s pre x b (dispFactor n bcst) len (.sib sb (.d8 d)) =
      operandAddress s pre x b (dispFactor n bcst) len' (.sib sb big))

/-- R109, R93, R32 in 64-bit mode: a RIP-relative operand is addressed from the next instruction through DS,
whatever the base extension bit; a CS, DS, ES or SS override adds no base, an FS or GS override adds that
base; `67` keeps only the low 32 bits of the offset. -/
def Obligations.RipRelativeAddress : Prop :=
  ∀ (s : State) (x b : Bool) (n len : Nat) (d : BitVec 32), s.mode = .long64 →
    let ea := s.rip + BitVec.ofNat 64 len + d.signExtend 64
    operandAddress s [] x b n len (.disp d) = (.ds, ea) ∧
    operandAddress s [.seg .cs] x b n len (.disp d) = (.cs, ea) ∧
    operandAddress s [.seg .ds] x b n len (.disp d) = (.ds, ea) ∧
    operandAddress s [.seg .es] x b n len (.disp d) = (.es, ea) ∧
    operandAddress s [.seg .ss] x b n len (.disp d) = (.ss, ea) ∧
    operandAddress s [.seg .fs] x b n len (.disp d) = (.fs, s.seg.fs + ea) ∧
    operandAddress s [.seg .gs] x b n len (.disp d) = (.gs, s.seg.gs + ea) ∧
    operandAddress s [.addrSize] x b n len (.disp d) = (.ds, (ea.truncate 32).zeroExtend 64)

/-- R109, R93, R32, R63, in integers: a memory operand's segment and address are computed from its prefixes,
ModRM, SIB and displacement. A base register, SIB with index 0100b as no index (`X` = 1 with 100b is R12, an
index) and with no base; RIP-relative; with `67` (and in 32-bit mode) registers and result of 32 bits; an 8-bit
displacement times `n`. The segment is that of the one segment prefix, wherever it stands among the prefixes,
else SS exactly for base RSP or RBP, else DS; in 64-bit mode only FS and GS have a base. In 32-bit mode (R117's
outline, log entry 13) `x` and `b` are not read and a lone displacement is not RIP-relative. -/
def Obligations.EffectiveAddress : Prop :=
  ∀ (s : State) (pre : List Prefix) (override : Option Seg) (x b : Bool) (n len : Nat),
    s.mode = .long64 ∨ s.mode = .prot32 →
    (match override with
      | none => ∀ sg, .seg sg ∉ pre
      | some sg => ∃ p p', pre = p ++ .seg sg :: p' ∧ ∀ sg', .seg sg' ∉ p ++ p') →
    let long : Bool := decide (s.mode = .long64)
    let size : Int := if long && !pre.contains .addrSize then 2 ^ 64 else 2 ^ 32
    let num (hi : Bool) (low : BitVec 3) : Nat := (if long && hi then 8 else 0) + low.toNat
    let g (r : Nat) : Int := (s.readX (BitVec.ofNat 4 r)).toNat % size
    let index (i : BitVec 3) (scale : BitVec 2) : Int :=
      if num x i = 4 then 0 else g (num x i) * 2 ^ scale.toNat
    let disp (d : Disp) : Int :=
      match d with
      | .none => 0
      | .d8 d => d.toInt * n
      | .d32 d => d.toInt
    let base (sg : Seg) : Int :=
      match sg with
      | .fs => s.seg.fs.toNat
      | .gs => s.seg.gs.toNat
      | .cs => if long then 0 else s.seg.cs.toNat
      | .ss => if long then 0 else s.seg.ss.toNat
      | .ds => if long then 0 else s.seg.ds.toNat
      | .es => if long then 0 else s.seg.es.toNat
    let operand (stack : Bool) (ea : Int) : Seg × Quad :=
      let sg := override.getD (if stack then .ss else .ds)
      (sg, BitVec.ofInt 64 ((base sg + ea % size) % (if long then 2 ^ 64 else 2 ^ 32)))
    let stack (r : Nat) : Bool := decide (r = 4) || decide (r = 5)
    (∀ rm d, operandAddress s pre x b n len (.base rm d) =
      operand (stack (num b rm)) (g (num b rm) + disp d)) ∧
    (∀ sb d, operandAddress s pre x b n len (.sib sb d) =
      operand (stack (num b sb.base)) (g (num b sb.base) + index sb.index sb.scale + disp d)) ∧
    (∀ scale i d, operandAddress s pre x b n len (.sibNoBase scale i d) =
      operand false (index i scale + d.toInt)) ∧
    (∀ d, operandAddress s pre x b n len (.disp d) =
      operand false ((if long then (s.rip.toNat + len : Int) else 0) + d.toInt))

/-! ### Encodings that mean the same, and what is not read -/

/-- R98, R93, R182 items 4 and 5: the two- and three-byte VEX prefixes, `W`, and the allowed legacy prefixes make
no difference but the length, nor does `X` without a SIB byte. The second source is the same register; or memory
at one address; or memory by the same ModRM, SIB and displacement, not RIP-relative, under the same segment
prefix and address size, with the same `B`, and the same `X` where there is a SIB byte. -/
def Obligations.VexEncodingsAgree : Prop :=
  ∀ (i i' : Instr) (n : Nat) (pre pre' : List Prefix) (d s1 : BitVec 5) (x x' bb bb' : Bool)
    (rm rm' : RmOperand) (s t : State),
    VexForm i n pre d s1 x bb rm → VexForm i' n pre' d s1 x' bb' rm' →
    (∃ r r', rm = .reg r ∧ rm' = .reg r' ∧ num5 false bb r = num5 false bb' r') ∨
      (rm.isMem = true ∧ rm'.isMem = true ∧
        operandAddress s pre x bb 1 i.length rm = operandAddress s pre' x' bb' 1 i'.length rm') ∨
      (rm.isMem = true ∧ rm' = rm ∧ bb' = bb ∧ segOverride pre' = segOverride pre ∧
        pre'.contains .addrSize = pre.contains .addrSize ∧
        ((∃ r dsp, rm = .base r dsp) ∨ (x' = x ∧ ∀ dsp, rm ≠ .disp dsp))) →
    exec i s = .next t → exec i' s = .next { t with rip := s.nextPc i'.length }

/-- R199 item 10: an EVEX.128 or EVEX.256 form without writemask and broadcast computes exactly what the VEX form
with the same registers, or the same register sources and memory at the same address, does, where that is
enabled. -/
def Obligations.EvexAgreesWithVex : Prop :=
  ∀ (i i' : Instr) (n : Nat) (pre pre' : List Prefix) (e : Evex) (reg : BitVec 3) (rm rm' : RmOperand)
    (x bb : Bool) (s t : State),
    EvexForm i n pre e false reg rm → e.aaa = 0 →
    VexForm i' n pre' (num5 e.r2 e.r reg) (vvvvNum e.v2 e.vvvv) x bb rm' →
    (∃ r r', rm = .reg r ∧ rm' = .reg r' ∧ num5 e.x e.b r = num5 false bb r') ∨
      (rm.isMem = true ∧ rm'.isMem = true ∧
        operandAddress s pre e.x e.b (dispFactor n false) i.length rm =
          operandAddress s pre' x bb 1 i'.length rm') →
    Enabled .vex s → exec i s = .next t → exec i' s = .next { t with rip := s.nextPc i'.length }

/-- R183: the VEX.128 form with `d` = `s1` and the same second source, two registers or memory at one address,
computes the two lanes and the flags of SUBPD. Upper lanes of `d`: SUBPD keeps those the machine has, the VEX
form zeroes them. Nothing else differs but the pc, which each form moves past itself. -/
def Obligations.SubpdAgreesWithVex : Prop :=
  ∀ (i' : Instr) (pre pre' : List Prefix) (rex : Option Rex) (reg : BitVec 3) (rm rm' : RmOperand)
    (x bb : Bool) (s t : State),
    let i := Instr.subpd pre rex reg rm
    let d := num5 false (rex.any Rex.r) reg
    VexForm i' 2 pre' d d x bb rm' →
    (∃ r r', rm = .reg r ∧ rm' = .reg r' ∧ num5 false (rex.any Rex.b) r = num5 false bb r') ∨
      (rm.isMem = true ∧ rm'.isMem = true ∧
        operandAddress s pre (rex.any Rex.x) (rex.any Rex.b) 1 i.length rm =
          operandAddress s pre' x bb 1 i'.length rm') →
    Enabled .vex s → exec i s = .next t →
    ∃ u, exec i' s = .next u ∧ u.mxcsr = t.mxcsr ∧ u.rip = s.nextPc i'.length ∧ SameElsewhere t u ∧
      (∀ n, n ≠ s.vreg d → u.readV n = t.readV n) ∧
      ∀ j, j < 8 →
        if j < 2 then lane (u.readV (s.vreg d)) j = lane (t.readV (s.vreg d)) j
        else lane (u.readV (s.vreg d)) j = 0 ∧
          (64 * j < s.params.maxvl → lane (t.readV (s.vreg d)) j = lane (s.readV (s.vreg d)) j)

/-- R24, R194, R199 item 6: an EVEX form that completes reads no opmask register but its writemask, and of that
no bit at or above the number of lanes. -/
def Obligations.OpmaskHighBitsIgnored : Prop :=
  ∀ (i : Instr) (n : Nat) (pre : List Prefix) (e : Evex) (bcst : Bool) (reg : BitVec 3)
    (rm : RmOperand) (s t : State) (k' : Vector (BitVec Config.opmaskBits) 8),
    EvexForm i n pre e bcst reg rm →
    (∀ j, j < n → activeLane { s with k := k' } e.aaa j = activeLane s e.aaa j) →
    exec i s = .next t → exec i { s with k := k' } = .next { t with k := k' }

/-- R28, R33, R157: no form that completes reads the MXCSR flags or any bit of RFLAGS but AC: setting flags
before it sets them after it, and RFLAGS passes through. -/
def Obligations.FlagsNotRead : Prop :=
  ∀ (i : Instr) (s t : State) (f : FlagSet) (rf : Quad), rf.getLsbD 18 = s.rflags.getLsbD 18 →
    exec i s = .next t →
    exec i { s with mxcsr := orFlags s.mxcsr f, rflags := rf } =
      .next { t with mxcsr := orFlags t.mxcsr f, rflags := rf }

/-! ### Reset (R39, R260) -/

/-- R39, R260: the values the rule gives after power-up or `RESET#`; RDX and memory, to which it gives none,
are left out. -/
def Obligations.ResetValues : Prop :=
  (∀ n, State.reset.readV n = 0) ∧ (∀ n, State.reset.readK n = 0) ∧
  State.reset.mxcsr = 0x1F80#32 ∧ State.reset.rip = 0xFFF0#64 ∧
  (∀ n, n ≠ 2 → State.reset.readX n = 0) ∧ State.reset.rflags = 2 ∧
  State.reset.cr0 = 0x60000010#64 ∧ State.reset.cr4 = 0 ∧ State.reset.xcr0 = 1 ∧
  State.reset.seg = { cs := 0xFFFF0000, ss := 0, ds := 0, es := 0, fs := 0, gs := 0 } ∧
  State.reset.mode = .real ∧ State.reset.cpl = 0 ∧
  fetchAddress State.reset = 0xFFFFFFF0#64

/-- R260: none of the six forms can execute in the reset state: each raises `#UD`. -/
def Obligations.NothingRunsAtReset : Prop :=
  ∀ i : Instr, exec i State.reset = .fault (.invalidOpcode State.reset)

/-- R260: after `INIT` the vector registers, opmask registers, MXCSR and XCR0 keep their values and the rest of
the processor is as after `RESET#`; in that state too every form raises `#UD`. -/
def Obligations.WarmResetKeeps : Prop :=
  ∀ s : State,
    s.warmReset.v = s.v ∧ s.warmReset.k = s.k ∧ s.warmReset.mxcsr = s.mxcsr ∧
    s.warmReset.xcr0 = s.xcr0 ∧ s.warmReset.rip = 0xFFF0#64 ∧ s.warmReset.mode = .real ∧
    s.warmReset.cr0 = 0x60000010#64 ∧ s.warmReset.cr4 = 0 ∧ s.warmReset.rflags = 2 ∧
    ∀ i : Instr, exec i s.warmReset = .fault (.invalidOpcode s.warmReset)
end

