-- ==== Sys2Proof/Laws/Decode.lean ====
section
/-! SUPPORT. The decoder's parts against the encoder's. -/

namespace Sys2Proof

theorem takeDisp32_disp32Bytes (d : BitVec 32) (tail : List Byte) :
    takeDisp32 (disp32Bytes d ++ tail) = some (d, tail) := by
  simp only [disp32Bytes, List.cons_append, List.nil_append, takeDisp32, Option.some.injEq, Prod.mk.injEq,
    and_true]
  apply BitVec.eq_of_getLsbD_eq
  intro i hi
  simp only [BitVec.getLsbD_append, BitVec.getLsbD_extractLsb']
  by_cases h1 : i < 8
  · simp [h1]
  · by_cases h2 : i - 8 < 8
    · simp [h1, h2, show 8 + (i - 8) = i by omega]
    · by_cases h3 : i - 8 - 8 < 8
      · simp [h1, h2, h3, show 16 + (i - 8 - 8) = i by omega]
      · simp [h1, h2, h3, show 24 + (i - 8 - 8 - 8) = i by omega, show i - 8 - 8 - 8 < 8 by omega]

theorem takeDisp_bytes (d : Disp) (tail : List Byte) :
    takeDisp d.mod (d.bytes ++ tail) = some (d, tail) := by
  cases d with
  | none => rfl
  | d8 d => rfl
  | d32 d => simp [takeDisp, Disp.mod, Disp.bytes, takeDisp32_disp32Bytes]

theorem modRm_mod (mod : BitVec 2) (reg rm : BitVec 3) : (modRmByte mod reg rm).extractLsb' 6 2 = mod := by
  revert mod reg rm; decide +kernel
theorem modRm_reg (mod : BitVec 2) (reg rm : BitVec 3) : (modRmByte mod reg rm).extractLsb' 3 3 = reg := by
  revert mod reg rm; decide +kernel
theorem modRm_rm (mod : BitVec 2) (reg rm : BitVec 3) : (modRmByte mod reg rm).extractLsb' 0 3 = rm := by
  revert mod reg rm; decide +kernel

theorem sib_ofByte_byte (s : Sib) : Sib.ofByte s.byte = s := by
  have h : ∀ (a : BitVec 2) (b c : BitVec 3), Sib.ofByte (Sib.byte ⟨a, b, c⟩) = ⟨a, b, c⟩ := by
    decide +kernel
  exact h s.scale s.index s.base

theorem disp_mod_ne (d : Disp) : d.mod ≠ 3#2 := by cases d <;> simp [Disp.mod]
theorem disp_mod_eq_zero (d : Disp) : d.mod = 0#2 ↔ d = .none := by cases d <;> simp [Disp.mod]

/-- ModRM, SIB and displacement read back what was written (R107 to R110). -/
theorem decodeRm_encodeRm (reg : BitVec 3) (rm : RmOperand) (tail : List Byte) (h : rm.ok = true) :
    decodeRm (encodeRm reg rm ++ tail) = some (reg, rm, tail) := by
  cases rm with
  | reg r => simp [encodeRm, decodeRm, modRm_mod, modRm_reg, modRm_rm]
  | base r d =>
    simp only [RmOperand.ok, Bool.and_eq_true, decide_eq_true_eq, Bool.or_eq_true, ne_eq] at h
    have hm := disp_mod_ne d
    have h4 : ¬r = 4#3 := h.1
    have h5 : ¬(d.mod = 0#2 ∧ r = 5#3) := by rw [disp_mod_eq_zero]; tauto
    simp [encodeRm, decodeRm, modRm_mod, modRm_reg, modRm_rm, takeDisp_bytes]
    rw [if_neg hm, if_neg h4, if_neg h5]
  | disp d => simp [encodeRm, decodeRm, modRm_mod, modRm_reg, modRm_rm, takeDisp32_disp32Bytes]
  | sib s d =>
    simp only [RmOperand.ok, decide_eq_true_eq, Bool.or_eq_true, ne_eq] at h
    have hm := disp_mod_ne d
    have h5 : ¬(d.mod = 0#2 ∧ s.base = 5#3) := by rw [disp_mod_eq_zero]; tauto
    simp [encodeRm, decodeRm, modRm_mod, modRm_reg, modRm_rm, takeDisp_bytes, sib_ofByte_byte]
    rw [if_neg hm, if_neg h5]
  | sibNoBase sc ix d =>
    simp [encodeRm, decodeRm, modRm_mod, modRm_reg, modRm_rm, takeDisp32_disp32Bytes, sib_ofByte_byte]

/-- The payload bytes give the fields back (R96, R97, R100). -/
theorem vex2_ofByte_byte (p : Vex2) (l : Bool) : Vex2.ofByte (p.byte l) = p := by
  have h : ∀ (r l : Bool) (v : BitVec 4), Vex2.ofByte (Vex2.byte ⟨r, v⟩ l) = ⟨r, v⟩ := by decide +kernel
  exact h p.r l p.vvvv

theorem vex3_ofBytes_bytes (p : Vex3) (l : Bool) : Vex3.ofBytes p.byte1 (p.byte2 l) = p := by
  have h : ∀ (r x b w l : Bool) (v : BitVec 4), Vex3.ofBytes (Vex3.byte1 ⟨r, x, b, w, v⟩)
      (Vex3.byte2 ⟨r, x, b, w, v⟩ l) = ⟨r, x, b, w, v⟩ := by decide +kernel
  exact h p.r p.x p.b p.w l p.vvvv

theorem evex_ofBytes_bytes (e : Evex) (ll : BitVec 2) (b : Bool) :
    Evex.ofBytes e.p0 e.p1 (e.p2 ll b) = e := by
  have h0 : ∀ r x b r2 : Bool, (Evex.p0 ⟨r, x, b, r2, 0, false, false, 0⟩).getLsbD 7 = !r ∧
      (Evex.p0 ⟨r, x, b, r2, 0, false, false, 0⟩).getLsbD 6 = !x ∧
      (Evex.p0 ⟨r, x, b, r2, 0, false, false, 0⟩).getLsbD 5 = !b ∧
      (Evex.p0 ⟨r, x, b, r2, 0, false, false, 0⟩).getLsbD 4 = !r2 := by decide +kernel
  have h1 : ∀ v : BitVec 4,
      ~~~ (Evex.p1 ⟨false, false, false, false, v, false, false, 0⟩).extractLsb' 3 4 = v := by
    decide +kernel
  have h2 : ∀ (z v2 b : Bool) (ll : BitVec 2) (a : BitVec 3),
      (Evex.p2 ⟨false, false, false, false, 0, z, v2, a⟩ ll b).getLsbD 7 = z ∧
      (Evex.p2 ⟨false, false, false, false, 0, z, v2, a⟩ ll b).getLsbD 3 = !v2 ∧
      (Evex.p2 ⟨false, false, false, false, 0, z, v2, a⟩ ll b).extractLsb' 0 3 = a := by decide +kernel
  have e0 := h0 e.r e.x e.b e.r2
  have e1 := h1 e.vvvv
  have e2 := h2 e.z e.v2 b ll e.aaa
  rcases e with ⟨r, x, b', r2, vvvv, z, v2, aaa⟩
  simp only [Evex.p0, Evex.p1, Evex.p2] at e0 e1 e2 ⊢
  simp only [Evex.ofBytes, e0, e1, e2, Bool.not_not]

/-! ### Prefixes (R92, R94) -/

theorem ofByte?_byte (p : Prefix) (h : ∀ w, p ≠ .droppedRex w) : Prefix.ofByte? p.byte = some p := by
  cases p with
  | droppedRex w => exact absurd rfl (h w)
  | seg s => cases s <;> decide
  | _ => decide

theorem ofByte?_rex (w : BitVec 4) : Prefix.ofByte? (4#4 ++ w : Byte) = none := by
  revert w; decide
theorem isRexByte_rex (w : BitVec 4) : isRexByte .long64 (4#4 ++ w : Byte) = true := by
  revert w; decide
theorem rex_low (w : BitVec 4) : (4#4 ++ w : Byte).extractLsb' 0 4 = w := by
  revert w; decide

/-- Reading back the prefixes of a well-formed instruction, when no further prefix follows them. -/
theorem splitPrefixes_preBytes {m : Mode} {pre : List Prefix} {rest : List Byte}
    (h : droppedRexOk pre = true) (hm : ∀ w, .droppedRex w ∈ pre → m = .long64)
    (hr : splitPrefixes m rest = ([], rest)) :
    splitPrefixes m (preBytes pre ++ rest) = (pre, rest) := by
  induction pre with
  | nil => exact hr
  | cons p pre ih =>
    have hm' : ∀ w, .droppedRex w ∈ pre → m = .long64 := fun w hw => hm w (List.mem_cons_of_mem _ hw)
    by_cases hp : ∀ w, p ≠ .droppedRex w
    · have h' : droppedRexOk pre = true := by
        cases p with
        | droppedRex w => exact absurd rfl (hp w)
        | _ => exact h
      have := ih h' hm'
      simp only [preBytes, List.map_cons, List.cons_append] at this ⊢
      rw [splitPrefixes, ofByte?_byte p hp, this]
    · simp only [not_forall, ne_eq, not_not] at hp
      obtain ⟨w, rfl⟩ := hp
      obtain rfl := hm w List.mem_cons_self
      simp only [droppedRexOk, Bool.and_eq_true] at h
      have := ih h.2 hm'
      cases pre with
      | nil => exact absurd h.1 (by simp)
      | cons q pre =>
        have hq : ∀ v, q ≠ .droppedRex v := by
          rintro v rfl
          exact absurd h.1 (by simp)
        simp only [preBytes, List.map_cons, List.cons_append] at this ⊢
        rw [splitPrefixes, this]
        show (match Prefix.ofByte? (4#4 ++ w) with
          | some p => _
          | none => if isRexByte .long64 (4#4 ++ w) && (Prefix.ofByte? q.byte).isSome then
              (Prefix.droppedRex ((4#4 ++ w : Byte).extractLsb' 0 4) :: q :: pre, rest) else _) = _
        rw [ofByte?_rex, isRexByte_rex, ofByte?_byte q hq, rex_low]
        rfl

end Sys2Proof
end

