-- ==== Sys2Proof/Laws/State.lean ====
section
/-! SUPPORT. One lemma per field per update of the state, each true by rfl. -/

namespace Sys2Proof.Machine

open Sys2Proof

/-! ### writeV -/

@[simp] theorem writeV_k (s : State) (n : BitVec 5) (r : Vec) : (s.writeV n r).k = s.k := rfl
@[simp] theorem writeV_mxcsr (s : State) (n : BitVec 5) (r : Vec) : (s.writeV n r).mxcsr = s.mxcsr := rfl
@[simp] theorem writeV_rip (s : State) (n : BitVec 5) (r : Vec) : (s.writeV n r).rip = s.rip := rfl
@[simp] theorem writeV_x (s : State) (n : BitVec 5) (r : Vec) : (s.writeV n r).x = s.x := rfl
@[simp] theorem writeV_seg (s : State) (n : BitVec 5) (r : Vec) : (s.writeV n r).seg = s.seg := rfl
@[simp] theorem writeV_rflags (s : State) (n : BitVec 5) (r : Vec) : (s.writeV n r).rflags = s.rflags := rfl
@[simp] theorem writeV_cr0 (s : State) (n : BitVec 5) (r : Vec) : (s.writeV n r).cr0 = s.cr0 := rfl
@[simp] theorem writeV_cr2 (s : State) (n : BitVec 5) (r : Vec) : (s.writeV n r).cr2 = s.cr2 := rfl
@[simp] theorem writeV_cr4 (s : State) (n : BitVec 5) (r : Vec) : (s.writeV n r).cr4 = s.cr4 := rfl
@[simp] theorem writeV_xcr0 (s : State) (n : BitVec 5) (r : Vec) : (s.writeV n r).xcr0 = s.xcr0 := rfl
@[simp] theorem writeV_efer (s : State) (n : BitVec 5) (r : Vec) : (s.writeV n r).efer = s.efer := rfl
@[simp] theorem writeV_mode (s : State) (n : BitVec 5) (r : Vec) : (s.writeV n r).mode = s.mode := rfl
@[simp] theorem writeV_cpl (s : State) (n : BitVec 5) (r : Vec) : (s.writeV n r).cpl = s.cpl := rfl
@[simp] theorem writeV_mem (s : State) (n : BitVec 5) (r : Vec) : (s.writeV n r).mem = s.mem := rfl
@[simp] theorem writeV_access (s : State) (n : BitVec 5) (r : Vec) : (s.writeV n r).access = s.access := rfl
@[simp] theorem writeV_params (s : State) (n : BitVec 5) (r : Vec) : (s.writeV n r).params = s.params := rfl

theorem readV_writeV_same (s : State) (n : BitVec 5) (r : Vec) : (s.writeV n r).readV n = r := by
  simp [State.readV, State.writeV]

theorem readV_writeV_other (s : State) (n m : BitVec 5) (r : Vec) (h : m ≠ n) :
    (s.writeV n r).readV m = s.readV m := by
  have : n.toNat ≠ m.toNat := fun e => h (BitVec.eq_of_toNat_eq e.symm)
  simp [State.readV, State.writeV, this]

/-- Reading the registers determines the register file. -/
theorem v_ext (s t : State) (h : ∀ n, s.readV n = t.readV n) : s.v = t.v := by
  apply Vector.ext
  intro i hi
  have := h (BitVec.ofNat 5 i)
  simpa [State.readV, Nat.mod_eq_of_lt hi] using this

/-! ### commit -/

@[simp] theorem commit_v (s : State) (d : BitVec 5) (l : List Quad) (m : BitVec 32) (n : Nat) :
    (commit s d l m n).v =
      (s.writeV (s.vreg d) (packLanes (l.take (s.params.maxvl / 64)))).v := rfl
@[simp] theorem commit_k (s : State) (d : BitVec 5) (l : List Quad) (m : BitVec 32) (n : Nat) :
    (commit s d l m n).k = s.k := rfl
@[simp] theorem commit_mxcsr (s : State) (d : BitVec 5) (l : List Quad) (m : BitVec 32) (n : Nat) :
    (commit s d l m n).mxcsr = m := rfl
@[simp] theorem commit_rip (s : State) (d : BitVec 5) (l : List Quad) (m : BitVec 32) (n : Nat) :
    (commit s d l m n).rip = s.nextPc n := rfl
@[simp] theorem commit_x (s : State) (d : BitVec 5) (l : List Quad) (m : BitVec 32) (n : Nat) :
    (commit s d l m n).x = s.x := rfl
@[simp] theorem commit_seg (s : State) (d : BitVec 5) (l : List Quad) (m : BitVec 32) (n : Nat) :
    (commit s d l m n).seg = s.seg := rfl
@[simp] theorem commit_rflags (s : State) (d : BitVec 5) (l : List Quad) (m : BitVec 32) (n : Nat) :
    (commit s d l m n).rflags = s.rflags := rfl
@[simp] theorem commit_cr0 (s : State) (d : BitVec 5) (l : List Quad) (m : BitVec 32) (n : Nat) :
    (commit s d l m n).cr0 = s.cr0 := rfl
@[simp] theorem commit_cr2 (s : State) (d : BitVec 5) (l : List Quad) (m : BitVec 32) (n : Nat) :
    (commit s d l m n).cr2 = s.cr2 := rfl
@[simp] theorem commit_cr4 (s : State) (d : BitVec 5) (l : List Quad) (m : BitVec 32) (n : Nat) :
    (commit s d l m n).cr4 = s.cr4 := rfl
@[simp] theorem commit_xcr0 (s : State) (d : BitVec 5) (l : List Quad) (m : BitVec 32) (n : Nat) :
    (commit s d l m n).xcr0 = s.xcr0 := rfl
@[simp] theorem commit_efer (s : State) (d : BitVec 5) (l : List Quad) (m : BitVec 32) (n : Nat) :
    (commit s d l m n).efer = s.efer := rfl
@[simp] theorem commit_mode (s : State) (d : BitVec 5) (l : List Quad) (m : BitVec 32) (n : Nat) :
    (commit s d l m n).mode = s.mode := rfl
@[simp] theorem commit_cpl (s : State) (d : BitVec 5) (l : List Quad) (m : BitVec 32) (n : Nat) :
    (commit s d l m n).cpl = s.cpl := rfl
@[simp] theorem commit_mem (s : State) (d : BitVec 5) (l : List Quad) (m : BitVec 32) (n : Nat) :
    (commit s d l m n).mem = s.mem := rfl
@[simp] theorem commit_access (s : State) (d : BitVec 5) (l : List Quad) (m : BitVec 32) (n : Nat) :
    (commit s d l m n).access = s.access := rfl
@[simp] theorem commit_params (s : State) (d : BitVec 5) (l : List Quad) (m : BitVec 32) (n : Nat) :
    (commit s d l m n).params = s.params := rfl

theorem readV_commit_same (s : State) (d : BitVec 5) (l : List Quad) (m : BitVec 32) (n : Nat) :
    (commit s d l m n).readV (s.vreg d) = packLanes (l.take (s.params.maxvl / 64)) :=
  readV_writeV_same s (s.vreg d) (packLanes (l.take (s.params.maxvl / 64)))

theorem readV_commit_other (s : State) (d r : BitVec 5) (l : List Quad) (m : BitVec 32) (n : Nat)
    (h : r ≠ s.vreg d) : (commit s d l m n).readV r = s.readV r :=
  readV_writeV_other s (s.vreg d) r (packLanes (l.take (s.params.maxvl / 64))) h

theorem commit_sameElsewhere (s : State) (d : BitVec 5) (l : List Quad) (m : BitVec 32) (n : Nat) :
    SameElsewhere s (commit s d l m n) :=
  ⟨rfl, rfl, rfl, rfl, rfl, rfl, rfl, rfl, rfl, rfl, rfl, rfl, fun _ => rfl, rfl, rfl⟩

/-! ### raise -/

@[simp] theorem raise_ud_state (s : State) : (raise .ud s).state = s := rfl
@[simp] theorem raise_nm_state (s : State) : (raise .nm s).state = s := rfl
@[simp] theorem raise_ss_state (s : State) : (raise .ss s).state = s := rfl
@[simp] theorem raise_gp_state (s : State) : (raise .gp s).state = s := rfl
@[simp] theorem raise_ac_state (s : State) : (raise .ac s).state = s := rfl
@[simp] theorem raise_xm_state (s : State) : (raise .xm s).state = s := rfl
@[simp] theorem raise_pf_state (code : BitVec 32) (a : Quad) (s : State) :
    (raise (.pf code a) s).state = { s with cr2 := a } := rfl

/-! ### enterLongMode, enableForms, launch, warmReset, placeCode -/

@[simp] theorem enterLongMode_cr0 (s : State) : s.enterLongMode.cr0 = s.cr0 ||| 0x80000001#64 := rfl
@[simp] theorem enterLongMode_cr4 (s : State) : s.enterLongMode.cr4 = s.cr4 ||| 0x20#64 := rfl
@[simp] theorem enterLongMode_efer (s : State) : s.enterLongMode.efer = s.efer ||| 0x100#64 := rfl
@[simp] theorem enterLongMode_xcr0 (s : State) : s.enterLongMode.xcr0 = s.xcr0 := rfl
@[simp] theorem enterLongMode_mode (s : State) : s.enterLongMode.mode = .long64 := rfl
@[simp] theorem enableForms_cr0 (s : State) :
    s.enableForms.cr0 = (s.cr0 &&& ~~~0xC#64) ||| 0x2#64 := rfl
@[simp] theorem enableForms_cr4 (s : State) : s.enableForms.cr4 = s.cr4 ||| 0x40600#64 := rfl
@[simp] theorem enableForms_xcr0 (s : State) : s.enableForms.xcr0 = s.xcr0 ||| 0xE7#64 := rfl
@[simp] theorem enableForms_efer (s : State) : s.enableForms.efer = s.efer := rfl
@[simp] theorem enableForms_mode (s : State) : s.enableForms.mode = s.mode := rfl
@[simp] theorem launch_cr0 (s : State) : s.launch.cr0 = s.enterLongMode.enableForms.cr0 := rfl
@[simp] theorem launch_cr4 (s : State) : s.launch.cr4 = s.enterLongMode.enableForms.cr4 := rfl
@[simp] theorem launch_xcr0 (s : State) : s.launch.xcr0 = s.xcr0 ||| 0xE7#64 := rfl
@[simp] theorem launch_efer (s : State) : s.launch.efer = s.efer ||| 0x100#64 := rfl

@[simp] theorem launch_v (s : State) : s.launch.v = s.v := rfl
@[simp] theorem launch_k (s : State) : s.launch.k = s.k := rfl
@[simp] theorem launch_mxcsr (s : State) : s.launch.mxcsr = s.mxcsr := rfl
@[simp] theorem launch_rip (s : State) : s.launch.rip = s.rip := rfl
@[simp] theorem launch_x (s : State) : s.launch.x = s.x := rfl
@[simp] theorem launch_seg (s : State) : s.launch.seg = s.seg := rfl
@[simp] theorem launch_rflags (s : State) : s.launch.rflags = s.rflags := rfl
@[simp] theorem launch_cr2 (s : State) : s.launch.cr2 = s.cr2 := rfl
@[simp] theorem launch_mode (s : State) : s.launch.mode = .long64 := rfl
@[simp] theorem launch_cpl (s : State) : s.launch.cpl = s.cpl := rfl
@[simp] theorem launch_mem (s : State) : s.launch.mem = s.mem := rfl
@[simp] theorem launch_params (s : State) : s.launch.params = s.params := rfl

@[simp] theorem warmReset_v (s : State) : s.warmReset.v = s.v := rfl
@[simp] theorem warmReset_k (s : State) : s.warmReset.k = s.k := rfl
@[simp] theorem warmReset_mxcsr (s : State) : s.warmReset.mxcsr = s.mxcsr := rfl
@[simp] theorem warmReset_xcr0 (s : State) : s.warmReset.xcr0 = s.xcr0 := rfl
@[simp] theorem warmReset_efer (s : State) : s.warmReset.efer = 0 := rfl
@[simp] theorem warmReset_mem (s : State) : s.warmReset.mem = s.mem := rfl
@[simp] theorem warmReset_params (s : State) : s.warmReset.params = s.params := rfl
@[simp] theorem warmReset_mode (s : State) : s.warmReset.mode = .real := rfl

@[simp] theorem placeCode_mem (s : State) (bs : List Byte) :
    (s.placeCode bs).mem = s.mem.writeBytes (fetchAddress s).toNat bs := rfl
@[simp] theorem placeCode_rip (s : State) (bs : List Byte) : (s.placeCode bs).rip = s.rip := rfl
@[simp] theorem placeCode_mode (s : State) (bs : List Byte) : (s.placeCode bs).mode = s.mode := rfl
@[simp] theorem placeCode_v (s : State) (bs : List Byte) : (s.placeCode bs).v = s.v := rfl
@[simp] theorem placeCode_mxcsr (s : State) (bs : List Byte) : (s.placeCode bs).mxcsr = s.mxcsr := rfl

end Sys2Proof.Machine
end

