-- ==== Sys2Proof/Laws/Lanes.lean ====
section
/-! SUPPORT. Lanes of a vector register. -/

namespace Sys2Proof.Machine

open Sys2Proof

theorem getLsbD_lane (r : Vec) (j i : Nat) :
    (lane r j).getLsbD i = (decide (i < 64) && r.getLsbD (64 * j + i)) := by
  simp [lane]

theorem lane_packLanes_zero (q : Quad) (qs : List Quad) : lane (packLanes (q :: qs)) 0 = q := by
  apply BitVec.eq_of_getLsbD_eq
  intro i hi
  rw [getLsbD_lane]
  simp [packLanes, hi, show i < 512 by omega]

theorem lane_packLanes_succ (q : Quad) (qs : List Quad) (j : Nat) (hj : j < 7) :
    lane (packLanes (q :: qs)) (j + 1) = lane (packLanes qs) j := by
  apply BitVec.eq_of_getLsbD_eq
  intro i hi
  have h1 : 64 * (j + 1) + i < 512 := by omega
  have h2 : ¬ (64 * (j + 1) + i < 64) := by omega
  have h3 : 64 * (j + 1) + i - 64 = 64 * j + i := by omega
  have h4 : q.getLsbD (64 * (j + 1) + i) = false := BitVec.getLsbD_of_ge q _ (by omega)
  rw [getLsbD_lane, getLsbD_lane, packLanes, BitVec.getLsbD_or, BitVec.getLsbD_shiftLeft, h3]
  simp [hi, h1, h2, h4]

/-- Lane `j` of packed lanes; lanes that were not given are zero. -/
theorem lane_packLanes (qs : List Quad) (j : Nat) (hj : j < 8) :
    lane (packLanes qs) j = qs.getD j 0 := by
  induction qs generalizing j with
  | nil => simp [packLanes, lane]
  | cons q qs ih =>
    cases j with
    | zero => simpa using lane_packLanes_zero q qs
    | succ j =>
      rw [lane_packLanes_succ q qs j (by omega), ih j (by omega)]
      simp

/-- Lane `j` of the register packed from the first `n` values of a function. -/
theorem lane_packLanes_map (n : Nat) (f : Nat → Quad) (j : Nat) (hj : j < 8) :
    lane (packLanes ((List.range n).map f)) j = if j < n then f j else 0 := by
  rw [lane_packLanes _ j hj]
  by_cases h : j < n <;> simp [List.getD, h]

/-- Packing a prefix of a list of lanes: the lanes beyond it are zero. -/
theorem lane_packLanes_take (qs : List Quad) (k j : Nat) (hj : j < 8) :
    lane (packLanes (qs.take k)) j = if j < k then lane (packLanes qs) j else 0 := by
  rw [lane_packLanes _ j hj, lane_packLanes _ j hj]
  by_cases h : j < k
  · simp [List.getD, h]
  · simp [List.getD, h]

/-- Lane `j` lies below `MAXVL` exactly when it is one of the `MAXVL / 64` lanes of a register. -/
theorem lt_div_maxvl (p : Params) (j : Nat) : j < p.maxvl / 64 ↔ 64 * j < p.maxvl := by
  unfold Params.maxvl
  split
  · omega
  · split <;> omega

/-- A register whose lanes at and above `MAXVL` are zero has no bit there. -/
theorem shift_maxvl_eq_zero (p : Params) (r : Vec)
    (h : ∀ j, j < 8 → ¬ 64 * j < p.maxvl → lane r j = 0) : r >>> p.maxvl = 0 := by
  have hm : p.maxvl % 64 = 0 := by
    unfold Params.maxvl
    split
    · rfl
    · split <;> rfl
  apply BitVec.eq_of_getLsbD_eq
  intro i hi
  rw [BitVec.getLsbD_ushiftRight]
  by_cases hb : p.maxvl + i < 512
  · have hl := h ((p.maxvl + i) / 64) (by omega) (by omega)
    have e : 64 * ((p.maxvl + i) / 64) + (p.maxvl + i) % 64 = p.maxvl + i := by omega
    have hg := getLsbD_lane r ((p.maxvl + i) / 64) ((p.maxvl + i) % 64)
    rw [hl, e, decide_eq_true (Nat.mod_lt _ (by omega)), Bool.true_and] at hg
    rw [← hg]
    simp
  · rw [BitVec.getLsbD_of_ge r (p.maxvl + i) (by omega)]
    simp

/-- A register is its eight lanes. -/
theorem vec_ext (r r' : Vec) (h : ∀ j, j < 8 → lane r j = lane r' j) : r = r' := by
  apply BitVec.eq_of_getLsbD_eq
  intro i hi
  have := congrArg (fun q => BitVec.getLsbD q (i % 64)) (h (i / 64) (by omega))
  simp only [getLsbD_lane] at this
  have e : 64 * (i / 64) + i % 64 = i := by omega
  simpa [e, Nat.mod_lt] using this

end Sys2Proof.Machine
end

