-- ==== Sys2Proof/Laws/Memory.lean ====
section
/-! SUPPORT. Memory: read after write, the canonical form is kept, equal reads are equal data. -/

namespace Sys2Proof.Machine

open Sys2Proof

theorem Memory.read_write_same (m : Memory) (n : Nat) (b : Byte) (lo : Nat)
    (h : Memory.wfFrom lo m = true) : (Memory.write m n b).read n = b := by
  induction m generalizing lo with
  | nil => by_cases hb : b = 0#8 <;> simp [Memory.write, Memory.read, hb]
  | cons p rest ih =>
    obtain ⟨a, c⟩ := p
    simp only [Memory.wfFrom, Bool.and_eq_true, decide_eq_true_eq] at h
    obtain ⟨⟨hlo, hc⟩, hrest⟩ := h
    -- an address below a canonical tail reads as zero there
    have below : ∀ (l : Memory) (k : Nat), Memory.wfFrom k l = true → n < k → Memory.read l n = 0#8 := by
      intro l
      induction l with
      | nil => intros; rfl
      | cons q t iht =>
        intro k hk hn
        obtain ⟨a', c'⟩ := q
        simp only [Memory.wfFrom, Bool.and_eq_true, decide_eq_true_eq] at hk
        have : a' ≠ n := by omega
        simp only [Memory.read, this, if_false]
        exact iht (a' + 1) hk.2 (by omega)
    unfold Memory.write
    by_cases h1 : n < a
    · by_cases hb : b = 0#8
      · have : a ≠ n := by omega
        simp only [h1, if_true, hb, Memory.read, this, if_false]
        exact below rest (a + 1) hrest (by omega)
      · simp [h1, hb, Memory.read]
    · by_cases h2 : n = a
      · subst h2
        by_cases hb : b = 0#8
        · simp only [Nat.lt_irrefl, if_false, if_true, hb]
          exact below rest (n + 1) hrest (by omega)
        · simp [hb, Memory.read]
      · have : a ≠ n := by omega
        simp only [h1, h2, if_false, Memory.read, this]
        exact ih (a + 1) hrest

theorem Memory.read_write_other (m : Memory) (n k : Nat) (b : Byte) (h : k ≠ n) :
    (Memory.write m n b).read k = m.read k := by
  induction m with
  | nil => by_cases hb : b = 0#8 <;> simp [Memory.write, Memory.read, hb, h.symm]
  | cons p rest ih =>
    obtain ⟨a, c⟩ := p
    unfold Memory.write
    by_cases h1 : n < a
    · by_cases hb : b = 0#8 <;> simp [h1, hb, Memory.read, h.symm]
    · by_cases h2 : n = a
      · subst h2
        by_cases hb : b = 0#8 <;> simp [hb, Memory.read, h.symm]
      · simp [h1, h2, Memory.read, ih]

theorem Memory.write_wfFrom (m : Memory) (n : Nat) (b : Byte) (lo : Nat) (hn : lo ≤ n)
    (h : Memory.wfFrom lo m = true) : Memory.wfFrom lo (Memory.write m n b) = true := by
  induction m generalizing lo with
  | nil => by_cases hb : b = 0#8 <;> simp [Memory.write, Memory.wfFrom, hb, hn]
  | cons p rest ih =>
    obtain ⟨a, c⟩ := p
    have h' := h
    simp only [Memory.wfFrom, Bool.and_eq_true, decide_eq_true_eq] at h
    obtain ⟨⟨hlo, hc⟩, hrest⟩ := h
    -- a canonical tail is canonical from any lower bound
    have mono : ∀ (l : Memory) (k k' : Nat), k' ≤ k → Memory.wfFrom k l = true →
        Memory.wfFrom k' l = true := by
      intro l k k' hk hl
      cases l with
      | nil => rfl
      | cons q t =>
        simp only [Memory.wfFrom, Bool.and_eq_true, decide_eq_true_eq] at hl ⊢
        exact ⟨⟨by omega, hl.1.2⟩, hl.2⟩
    unfold Memory.write
    by_cases h1 : n < a
    · by_cases hb : b = 0#8
      · simpa [h1, hb] using h'
      · simp only [h1, if_true, hb, if_false, Memory.wfFrom, Bool.and_eq_true, decide_eq_true_eq]
        exact ⟨⟨hn, hb⟩, ⟨by omega, hc⟩, hrest⟩
    · by_cases h2 : n = a
      · subst h2
        by_cases hb : b = 0#8
        · simp only [Nat.lt_irrefl, if_false, if_true, hb]
          exact mono rest (n + 1) lo (by omega) hrest
        · simp only [Nat.lt_irrefl, if_false, if_true, hb, Memory.wfFrom, Bool.and_eq_true,
            decide_eq_true_eq]
          exact ⟨⟨hlo, hb⟩, hrest⟩
      · simp only [h1, h2, if_false, Memory.wfFrom, Bool.and_eq_true, decide_eq_true_eq]
        exact ⟨⟨hlo, hc⟩, ih (a + 1) (by omega) hrest⟩

/-- Writing a byte keeps the canonical form. -/
theorem Memory.write_wf (m : Memory) (n : Nat) (b : Byte) (h : m.wf = true) :
    (Memory.write m n b).wf = true :=
  Memory.write_wfFrom m n b 0 (Nat.zero_le n) h

/-- Writing bytes keeps the canonical form. -/
theorem Memory.writeBytes_wf (m : Memory) (n : Nat) (bs : List Byte) (h : m.wf = true) :
    (Memory.writeBytes m n bs).wf = true := by
  induction bs generalizing m n with
  | nil => exact h
  | cons b bs ih => exact ih (Memory.write m n b) (n + 1) (Memory.write_wf m n b h)

theorem reset_memory_wf : State.reset.mem.wf = true := rfl

theorem placeCode_wf (s : State) (bs : List Byte) (h : s.mem.wf = true) :
    (s.placeCode bs).mem.wf = true :=
  Memory.writeBytes_wf _ _ _ h

theorem withFetchWord_wf (s : State) (nbits w : Nat) (h : s.mem.wf = true) :
    (s.withFetchWord nbits w).mem.wf = true :=
  placeCode_wf s.launch _ h

/-- A byte outside the bytes written reads as before. -/
theorem Memory.read_writeBytes_other (m : Memory) (n k : Nat) (bs : List Byte)
    (h : k < n ∨ n + bs.length ≤ k) : (Memory.writeBytes m n bs).read k = m.read k := by
  induction bs generalizing m n with
  | nil => rfl
  | cons b bs ih =>
    simp only [List.length_cons] at h
    rw [Memory.writeBytes, ih _ _ (by omega), Memory.read_write_other _ _ _ _ (by omega)]

/-- A byte written reads as written. -/
theorem Memory.read_writeBytes_same (m : Memory) (n i : Nat) (bs : List Byte) (hwf : m.wf = true)
    (h : i < bs.length) : (Memory.writeBytes m n bs).read (n + i) = bs[i] := by
  induction bs generalizing m n i with
  | nil => exact absurd h (Nat.not_lt_zero i)
  | cons b bs ih =>
    cases i with
    | zero =>
      simp only [Memory.writeBytes, Nat.add_zero, List.getElem_cons_zero]
      rw [Memory.read_writeBytes_other _ _ _ _ (by omega)]
      exact Memory.read_write_same m n b 0 hwf
    | succ i =>
      have := ih (Memory.write m n b) (n + 1) i (Memory.write_wf m n b hwf) (by simpa using h)
      simpa [Memory.writeBytes, Nat.add_assoc, Nat.add_comm 1 i] using this

theorem Memory.length_readBytes (m : Memory) (a n : Nat) : (m.readBytes a n).length = n := by
  induction n generalizing a with
  | zero => rfl
  | succ n ih => simp [Memory.readBytes, ih]

theorem Memory.getElem_readBytes (m : Memory) (a n i : Nat) (h : i < (m.readBytes a n).length) :
    (m.readBytes a n)[i] = m.read (a + i) := by
  induction n generalizing a i with
  | zero => simp [Memory.readBytes] at h
  | succ n ih =>
    cases i with
    | zero => rfl
    | succ i =>
      simp only [Memory.readBytes, List.getElem_cons_succ]
      rw [ih]
      congr 1
      omega

/-- Two canonical memories that read alike at every address are equal. -/
theorem Memory.ext_of_wf (m m' : Memory) (h : m.wf = true) (h' : m'.wf = true)
    (hr : ∀ a, m.read a = m'.read a) : m = m' := by
  -- an address below a canonical list reads as zero
  have below : ∀ (l : Memory) (k n : Nat), Memory.wfFrom k l = true → n < k → l.read n = 0#8 := by
    intro l
    induction l with
    | nil => intros; rfl
    | cons q t iht =>
      intro k n hk hn
      simp only [Memory.wfFrom, Bool.and_eq_true, decide_eq_true_eq] at hk
      have : q.1 ≠ n := by omega
      simp only [Memory.read, this, if_false]
      exact iht (q.1 + 1) n hk.2 (by omega)
  suffices ∀ (lo : Nat) (l l' : Memory), Memory.wfFrom lo l = true → Memory.wfFrom lo l' = true →
      (∀ a, lo ≤ a → l.read a = l'.read a) → l = l' from
    this 0 m m' h h' fun a _ => hr a
  intro lo l
  induction l generalizing lo with
  | nil =>
    intro l' _ hl' hr
    cases l' with
    | nil => rfl
    | cons q t =>
      simp only [Memory.wfFrom, Bool.and_eq_true, decide_eq_true_eq] at hl'
      have := hr q.1 hl'.1.1
      simp only [Memory.read, if_true] at this
      exact absurd this.symm hl'.1.2
  | cons p rest ih =>
    intro l' hl hl' hr
    simp only [Memory.wfFrom, Bool.and_eq_true, decide_eq_true_eq] at hl
    cases l' with
    | nil =>
      have := hr p.1 hl.1.1
      simp only [Memory.read, if_true] at this
      exact absurd this hl.1.2
    | cons q t =>
      simp only [Memory.wfFrom, Bool.and_eq_true, decide_eq_true_eq] at hl'
      have key : p.1 = q.1 := by
        rcases Nat.lt_trichotomy p.1 q.1 with hlt | heq | hgt
        · have e := hr p.1 hl.1.1
          have hq : q.1 ≠ p.1 := by omega
          simp only [Memory.read, if_true, hq, if_false] at e
          rw [below t (q.1 + 1) p.1 hl'.2 (by omega)] at e
          exact absurd e hl.1.2
        · exact heq
        · have e := hr q.1 hl'.1.1
          have hp : p.1 ≠ q.1 := by omega
          simp only [Memory.read, if_true, hp, if_false] at e
          rw [below rest (p.1 + 1) q.1 hl.2 (by omega)] at e
          exact absurd e.symm hl'.1.2
      have hb := hr p.1 hl.1.1
      rw [← key] at hl'
      simp only [Memory.read, if_true, ← key] at hb
      have hpq : p = q := Prod.ext key hb
      subst hpq
      congr 1
      apply ih (p.1 + 1) t hl.2 hl'.2
      intro a ha
      have := hr a (by omega)
      have hne : p.1 ≠ a := by omega
      simpa only [Memory.read, hne, if_false] using this

end Sys2Proof.Machine
end

