-- ==== Sys2Proof/Laws/Ops.lean ====
section
/-! SUPPORT. For each shared operation, one lemma that says once everything it can do. -/

namespace Sys2Proof.Machine

open Sys2Proof

/-! ### Outcomes -/

@[simp] theorem outcome_ok (s : State) : outcome (.ok s) = .next s := rfl
@[simp] theorem outcome_fault (f : Fault) : outcome (.error (.fault f)) = .fault f := rfl
@[simp] theorem outcome_refuse (r : Refusal) : outcome (.error (.refuse r)) = .refused r := rfl

theorem outcome_eq_next {e : Except Stop State} {t : State} : outcome e = .next t ↔ e = .ok t := by
  rcases e with st | s
  · cases st <;> simp [outcome, Stop.outcome]
  · simp [outcome]

theorem outcome_eq_fault {e : Except Stop State} {f : Fault} :
    outcome e = .fault f ↔ e = .error (.fault f) := by
  rcases e with st | s
  · cases st <;> simp [outcome, Stop.outcome]
  · simp [outcome]

/-- A computation with a first step that succeeds. -/
theorem bind_eq_ok {α β : Type} {x : Except Stop α} {f : α → Except Stop β} {b : β} :
    (x >>= f) = .ok b ↔ ∃ a, x = .ok a ∧ f a = .ok b := by
  cases x <;> simp [bind, Except.bind]

/-- A computation that stops does so in its first step or after it. -/
theorem bind_eq_error {α β : Type} {x : Except Stop α} {f : α → Except Stop β} {st : Stop} :
    (x >>= f) = .error st ↔ x = .error st ∨ ∃ a, x = .ok a ∧ f a = .error st := by
  cases x <;> simp [bind, Except.bind]

/-! ### Enable checks -/

theorem enableCheck_eq_ok {c : FormClass} {s : State} : enableCheck c s = .ok () ↔ Enabled c s := by
  unfold enableCheck Enabled
  cases s.usable c <;> cases s.cr0TS <;> cases Mode.is8086 s.mode <;> simp

/-- What the enable checks can answer. -/
theorem enableCheck_cases (c : FormClass) (s : State) :
    (s.usable c = false ∧ enableCheck c s = .error (.fault (.invalidOpcode s))) ∨
    (s.usable c = true ∧ s.cr0TS = true ∧ enableCheck c s = .error (.fault (.deviceNotAvailable s))) ∨
    (s.usable c = true ∧ s.cr0TS = false ∧ Mode.is8086 s.mode = true ∧
      enableCheck c s = .error (.refuse .modeNotDescribed)) ∨
    (Enabled c s ∧ enableCheck c s = .ok ()) := by
  unfold enableCheck Enabled
  cases s.usable c <;> cases s.cr0TS <;> cases Mode.is8086 s.mode <;> simp [raise]

/-! ### The access check -/

theorem pageFault?_eq_none {s : State} {kind : AccessKind} {sg : Seg} {bytes : List Nat} :
    pageFault? s kind sg bytes = none ↔ ∀ a ∈ bytes, pageDenial s kind sg a = none := by
  unfold pageFault?
  split
  · rename_i h
    simpa [List.filter_eq_nil_iff] using h
  · rename_i a bad h
    have hmem : ∀ x ∈ a :: bad, (pageDenial s kind sg x).isSome = true := by
      intro x hx
      rw [← h] at hx
      exact (List.mem_filter.mp hx).2
    have hsub : ∀ x ∈ a :: bad, x ∈ bytes := by
      intro x hx
      rw [← h] at hx
      exact (List.mem_filter.mp hx).1
    have hhit : (a :: bad).getD (Config.pageFaultPick (a :: bad) % (bad.length + 1)) a ∈ a :: bad := by
      have hl : Config.pageFaultPick (a :: bad) % (bad.length + 1) < (a :: bad).length :=
        Nat.mod_lt _ (Nat.succ_pos _)
      rw [List.getD_eq_getElem _ _ hl]
      exact List.getElem_mem hl
    constructor
    · intro hn
      have h1 := hmem _ hhit
      rw [Option.map_eq_none_iff] at hn
      simp only [hn] at h1
      exact absurd h1 (by simp)
    · intro hall
      have h1 := hmem a List.mem_cons_self
      rw [hall a (hsub a List.mem_cons_self)] at h1
      exact absurd h1 (by simp)

/-- A page fault reports one of the bytes that paging refuses. -/
theorem pageFault?_eq_some {s : State} {kind : AccessKind} {sg : Seg} {bytes : List Nat} {e : Exc}
    (h : pageFault? s kind sg bytes = some e) :
    ∃ a ∈ bytes, ∃ bits, pageDenial s kind sg a = some bits ∧
      e = .pf (pageFaultCode bits s.cpl kind) (BitVec.ofNat 64 a) := by
  unfold pageFault? at h
  split at h
  · exact absurd h (by simp)
  · rename_i a bad hf
    have hl : Config.pageFaultPick (a :: bad) % (bad.length + 1) < (a :: bad).length :=
      Nat.mod_lt _ (Nat.succ_pos _)
    have hsub : ∀ x ∈ a :: bad, x ∈ bytes := by
      intro x hx
      rw [← hf] at hx
      exact (List.mem_filter.mp hx).1
    have hhit : (a :: bad).getD (Config.pageFaultPick (a :: bad) % (bad.length + 1)) a ∈ bytes := by
      rw [List.getD_eq_getElem _ _ hl]
      exact hsub _ (List.getElem_mem hl)
    obtain ⟨bits, hb, he⟩ := Option.map_eq_some_iff.mp h
    exact ⟨_, hhit, bits, hb, he.symm⟩

theorem dataCheck_eq_ok {s : State} {sg : Seg} {gp needed : List Nat} :
    dataCheck s sg gp needed = .ok () ↔
      (∀ a ∈ gp, Inside s sg a) ∧ (∀ a ∈ needed, a < spaceTop s.mode) ∧
      (∀ a ∈ needed, pageDenial s .read sg a = none) ∧
      (∀ a ∈ needed, isDevice s .read sg a = false) := by
  unfold dataCheck Inside
  by_cases h1 : ((gp ++ needed).any fun a => decide (spaceTop s.mode ≤ a)) = true
  · rw [if_pos h1]
    simp only [List.any_eq_true, List.mem_append, decide_eq_true_eq] at h1
    obtain ⟨a, ha, hle⟩ := h1
    constructor
    · intro h; exact absurd h (by simp)
    · rintro ⟨hg, hn, -, -⟩
      rcases ha with ha | ha
      · exact absurd (hg a ha).1 (by omega)
      · exact absurd (hn a ha) (by omega)
  · rw [if_neg h1]
    simp only [List.any_eq_true, List.mem_append, decide_eq_true_eq, not_exists, not_and] at h1
    by_cases h2 : gp.any (outside s .read sg) = true
    · rw [if_pos h2]
      obtain ⟨a, ha, ho⟩ := List.any_eq_true.mp h2
      constructor
      · intro h; exact absurd h (by simp)
      · rintro ⟨hg, -, -, -⟩
        exact absurd (hg a ha).2 (by simp [ho])
    · rw [if_neg h2]
      have h2' : ∀ a ∈ gp, outside s .read sg a = false := by simpa using h2
      cases hp : pageFault? s .read sg needed with
      | some e =>
        constructor
        · intro h; exact absurd h (by simp)
        · rintro ⟨-, -, hpd, -⟩
          rw [pageFault?_eq_none.mpr hpd] at hp
          exact absurd hp (by simp)
      | none =>
        by_cases h3 : needed.any (isDevice s .read sg) = true
        · simp only [h3, if_true]
          obtain ⟨a, ha, hd⟩ := List.any_eq_true.mp h3
          constructor
          · intro h; exact absurd h (by simp)
          · rintro ⟨-, -, -, hdev⟩
            exact absurd (hdev a ha) (by simp [hd])
        · have h3' : ∀ a ∈ needed, isDevice s .read sg a = false := by simpa using h3
          simp only [h3, if_false, true_iff, Bool.false_eq_true]
          exact ⟨fun a ha => ⟨by have := h1 a (.inl ha); omega, h2' a ha⟩,
            fun a ha => by have := h1 a (.inr ha); omega, pageFault?_eq_none.mp hp, h3'⟩

/-- The ways a data check stops. -/
theorem dataCheck_error {s : State} {sg : Seg} {gp needed : List Nat} {st : Stop}
    (h : dataCheck s sg gp needed = .error st) :
    st = .refuse .addressWrap ∨ st = .refuse .deviceMemory ∨
    (st = .fault (raise (outsideExc sg) s) ∧ ∃ a ∈ gp, outside s .read sg a = true) ∨
    (∃ a ∈ needed, ∃ bits, pageDenial s .read sg a = some bits ∧
      st = .fault (raise (.pf (pageFaultCode bits s.cpl .read) (BitVec.ofNat 64 a)) s)) := by
  unfold dataCheck at h
  split at h
  · exact .inl (by simpa using h.symm)
  · split at h
    · rename_i ho
      obtain ⟨a, ha, hout⟩ := List.any_eq_true.mp ho
      exact .inr (.inr (.inl ⟨by simpa using h.symm, a, ha, hout⟩))
    · split at h
      · rename_i e he
        obtain ⟨a, ha, bits, hb, rfl⟩ := pageFault?_eq_some he
        exact .inr (.inr (.inr ⟨a, ha, bits, hb, by simpa using h.symm⟩))
      · split at h
        · exact .inr (.inl (by simpa using h.symm))
        · exact absurd h (by simp)

/-! ### The second source -/

theorem readLanes_eq_ok {s : State} {sg : Seg} {la : Quad} {lanes : Nat} {bcst : Bool}
    {active : Nat → Bool} {f : Nat → Quad} (h : readLanes s sg la lanes bcst active = .ok f) :
    f = memLanes s la bcst := by
  unfold readLanes at h
  simp only at h
  split at h
  · exact absurd h (by simp)
  · split at h
    · exact absurd h (by simp)
    · simpa [memLanes, funext_iff, eq_comm] using h

/-- A readable operand is read. -/
theorem readLanes_of_readable {s : State} {sg : Seg} {la : Quad} {lanes : Nat} {bcst : Bool}
    {active : Nat → Bool} (h : Readable s sg la lanes bcst active) :
    readLanes s sg la lanes bcst active = .ok (memLanes s la bcst) := by
  obtain ⟨hn, hp, ha⟩ := h
  have hac : alignmentFault s la bcst (neededBytes la.toNat lanes bcst active) = false := by
    unfold alignmentFault
    by_contra hc
    simp only [Bool.not_eq_false, Bool.and_eq_true, decide_eq_true_eq] at hc
    exact hc.1.1.1.1.2
      (ha (by simpa using hc.1.1.1.1.1.2) hc.1.1.1.1.1.1 hc.1.1.1.2 hc.1.1.2 hc.1.2)
  have hd : ∀ gp, (∀ a ∈ gp, Inside s sg a) →
      dataCheck s sg gp (neededBytes la.toNat lanes bcst active) = .ok () := fun gp hgp =>
    dataCheck_eq_ok.mpr ⟨hgp, fun a h => (hn a h).1.1, fun a h => (hn a h).2.1,
      fun a h => (hn a h).2.2⟩
  unfold readLanes
  cases hs : s.params.suppressScope with
  | all => simp [hd _ fun a h => (hn a h).1, hac, memLanes, funext_iff]
  | pfOnly => simp [hd _ (hp hs), hac, memLanes, funext_iff]

/-! ### Packed subtraction -/

theorem unions_cons (f : FlagSet) (fs : List FlagSet) :
    FlagSet.unions (f :: fs) = f.union (FlagSet.unions fs) := rfl

/-- MXCSR after a packed subtraction that raises nothing: OR-ed with some flags. -/
theorem packedSub_eq_ok {s : State} {n : Nat} {a b : Nat → Quad} {active : Nat → Bool}
    {rc : Rounding} {sae : Bool} {mx : BitVec 32} (h : packedSub s n a b active rc sae = .ok mx) :
    ∃ f, mx = orFlags s.mxcsr f ∧ (sae = true → f = FlagSet.empty) := by
  unfold packedSub packedFlags at h
  cases sae with
  | true =>
    refine ⟨FlagSet.empty, ?_, fun _ => rfl⟩
    have : s.mxcsr = mx := by simpa using h
    rw [← this]
    exact (BitVec.or_zero).symm
  | false =>
    simp only [Bool.false_eq_true, if_false] at h
    split at h
    · exact absurd h (by simp)
    · split at h
      · exact absurd h (by simp)
      · exact ⟨_, by simpa using h.symm, fun h => absurd h (by simp)⟩

/-- A raised floating-point exception: `#XM` or `#UD`, with flags set and nothing else changed. -/
theorem raiseSimd_eq (s : State) (f g : FlagSet) :
    ∃ fl, raiseSimd s f g =
      .fault (raise (if s.osxmmexcpt then .xm else .ud) { s with mxcsr := orFlags s.mxcsr fl }) :=
  ⟨_, rfl⟩

theorem packedSub_error {s : State} {n : Nat} {a b : Nat → Quad} {active : Nat → Bool}
    {rc : Rounding} {sae : Bool} {st : Stop} (h : packedSub s n a b active rc sae = .error st) :
    sae = false ∧ ∃ fl, st =
      .fault (raise (if s.osxmmexcpt then .xm else .ud) { s with mxcsr := orFlags s.mxcsr fl }) := by
  unfold packedSub packedFlags at h
  cases sae with
  | true => exact absurd h (by simp)
  | false =>
    refine ⟨rfl, ?_⟩
    simp only [Bool.false_eq_true, if_false] at h
    split at h
    · obtain ⟨fl, e⟩ := raiseSimd_eq s _ _
      exact ⟨fl, by rw [← e]; simpa using h.symm⟩
    · split at h
      · obtain ⟨fl, e⟩ := raiseSimd_eq s _ _
        exact ⟨fl, by rw [← e]; simpa using h.symm⟩
      · exact absurd h (by simp)

end Sys2Proof.Machine
end

