-- ==== Sys2Proof/Laws/Meaning.lean ====
section
/-! SUPPORT. What each shared procedure does when it answers a next state, and where it can stop. -/

namespace Sys2Proof.Machine

open Sys2Proof

/-- The ways a second source stops: a data check or an alignment fault. -/
inductive SourceStop (s : State) : Stop → Prop where
  | wrap : SourceStop s (.refuse .addressWrap)
  | device : SourceStop s (.refuse .deviceMemory)
  | stack : SourceStop s (.fault (.stackSegment s))
  | protection : SourceStop s (.fault (.generalProtection s))
  | page (code : BitVec 32) (a : Quad) :
      SourceStop s (.fault (.pageFault code a { s with cr2 := a }))
  | alignment : SourceStop s (.fault (.alignmentCheck s))

theorem readLanes_stop {s : State} {sg : Seg} {la : Quad} {lanes : Nat} {bcst : Bool}
    {active : Nat → Bool} {st : Stop} (h : readLanes s sg la lanes bcst active = .error st) :
    SourceStop s st := by
  unfold readLanes at h
  simp only at h
  split at h
  · rename_i st' hd
    simp only [Except.error.injEq] at h
    subst h
    rcases dataCheck_error hd with rfl | rfl | ⟨rfl, -⟩ | ⟨a, -, bits, -, rfl⟩
    · exact .wrap
    · exact .device
    · unfold outsideExc
      split
      · exact .stack
      · exact .protection
    · exact .page _ _
  · split at h
    · simp only [Except.error.injEq] at h
      subst h
      exact .alignment
    · exact absurd h (by simp)

theorem legacyAlignment_stop {s : State} {sg : Seg} {la : Quad} {st : Stop}
    (h : legacyAlignment s sg la = .error st) : SourceStop s st := by
  unfold legacyAlignment at h
  split at h
  · exact absurd h (by simp)
  · split at h <;> simp only [Except.error.injEq] at h <;> subst h
    · exact .stack
    · exact .protection

theorem legacySource_stop {s : State} {pre : List Prefix} {x b : Bool} {len : Nat} {rm : RmOperand}
    {st : Stop} (h : legacySource s pre x b len rm = .error st) : SourceStop s st := by
  unfold legacySource at h
  split at h
  · exact absurd h (by simp)
  · simp only at h
    split at h
    · rename_i st' ha
      simp only [Except.error.injEq] at h
      subst h
      exact legacyAlignment_stop ha
    · exact readLanes_stop h

theorem vexSource_stop {s : State} {pre : List Prefix} {x b : Bool} {lanes len : Nat}
    {rm : RmOperand} {st : Stop} (h : vexSource s pre x b lanes len rm = .error st) :
    SourceStop s st := by
  unfold vexSource at h
  split at h
  · exact absurd h (by simp)
  · exact readLanes_stop h

theorem evexSource_stop {s : State} {pre : List Prefix} {x b bcst : Bool} {lanes len : Nat}
    {active : Nat → Bool} {rm : RmOperand} {st : Stop}
    (h : evexSource s pre x b lanes bcst active len rm = .error st) : SourceStop s st := by
  unfold evexSource at h
  split at h
  · exact absurd h (by simp)
  · exact readLanes_stop h

/-- SUBPD that completes: enabled, its source read, nothing raised, and the commit. -/
theorem execSubpd_eq_next {pre : List Prefix} {rex : Option Rex} {reg : BitVec 3} {rm : RmOperand}
    {s t : State} :
    execSubpd pre rex reg rm s = .next t ↔
      Enabled .legacy s ∧ ∃ b mx,
        legacySource s pre (rex.any Rex.x) (rex.any Rex.b) (Instr.subpd pre rex reg rm).length rm
          = .ok b ∧
        packedSub s 2 (regLanes s (num5 false (rex.any Rex.r) reg)) b (fun _ => true)
          (mxRC s.mxcsr) false = .ok mx ∧
        t = commit s (num5 false (rex.any Rex.r) reg)
          (legacyLanes s (num5 false (rex.any Rex.r) reg)
            (regLanes s (num5 false (rex.any Rex.r) reg)) b) mx (Instr.subpd pre rex reg rm).length := by
  unfold execSubpd
  simp only [outcome_eq_next, bind_eq_ok, pure, Except.pure, Except.ok.injEq]
  constructor
  · rintro ⟨_, he, b, hb, mx, hm, rfl⟩
    exact ⟨enableCheck_eq_ok.mp he, b, mx, hb, hm, rfl⟩
  · rintro ⟨he, b, mx, hb, hm, rfl⟩
    exact ⟨(), enableCheck_eq_ok.mpr he, b, hb, mx, hm, rfl⟩

/-- A VEX form that completes. -/
theorem vexSub_eq_ok {lanes : Nat} {pre : List Prefix} {d s1 : BitVec 5} {x b : Bool} {len : Nat}
    {rm : RmOperand} {s t : State} :
    vexSub lanes pre d s1 x b len rm s = .ok t ↔
      Enabled .vex s ∧ ∃ src mx,
        vexSource s pre x b lanes len rm = .ok src ∧
        packedSub s lanes (regLanes s s1) src (fun _ => true) (mxRC s.mxcsr) false = .ok mx ∧
        t = commit s d (plainLanes s lanes (regLanes s s1) src) mx len := by
  unfold vexSub
  simp only [bind_eq_ok, pure, Except.pure, Except.ok.injEq]
  constructor
  · rintro ⟨_, he, b, hb, mx, hm, rfl⟩
    exact ⟨enableCheck_eq_ok.mp he, b, mx, hb, hm, rfl⟩
  · rintro ⟨he, b, mx, hb, hm, rfl⟩
    exact ⟨(), enableCheck_eq_ok.mpr he, b, hb, mx, hm, rfl⟩

/-- An EVEX form that completes. -/
theorem evexSub_eq_ok {lanes : Nat} {pre : List Prefix} {e : Evex} {bcst : Bool}
    {er : Option Rounding} {reg : BitVec 3} {len : Nat} {rm : RmOperand} {s t : State} :
    evexSub lanes pre e bcst er reg len rm s = .ok t ↔
      Enabled (.evex (64 * lanes)) s ∧ ∃ b mx,
        evexSource s pre e.x e.b lanes bcst (activeLane s e.aaa) len rm = .ok b ∧
        packedSub s lanes (regLanes s (vvvvNum e.v2 e.vvvv)) b (activeLane s e.aaa)
          (er.getD (mxRC s.mxcsr)) er.isSome = .ok mx ∧
        t = commit s (num5 e.r2 e.r reg)
          (maskedLanes s lanes e (num5 e.r2 e.r reg) (er.getD (mxRC s.mxcsr))
            (regLanes s (vvvvNum e.v2 e.vvvv)) b) mx len := by
  unfold evexSub
  simp only [bind_eq_ok, pure, Except.pure, Except.ok.injEq]
  constructor
  · rintro ⟨_, he, b, hb, mx, hm, rfl⟩
    exact ⟨enableCheck_eq_ok.mp he, b, mx, hb, hm, rfl⟩
  · rintro ⟨he, b, mx, hb, hm, rfl⟩
    exact ⟨(), enableCheck_eq_ok.mpr he, b, hb, mx, hm, rfl⟩

/-- Whatever instruction completes, its next state is one commit: its destination register, MXCSR OR-ed
with flags, the pc past the instruction. -/
theorem exec_eq_next {i : Instr} {s t : State} (h : exec i s = .next t) :
    ∃ lanes f, t = commit s i.dest lanes (orFlags s.mxcsr f) i.length := by
  have vex : ∀ {n pre d s1 x b rm}, vexSub n pre d s1 x b i.length rm s = .ok t →
      ∃ lanes f, t = commit s d lanes (orFlags s.mxcsr f) i.length := by
    intro n pre d s1 x b rm h
    obtain ⟨-, src, mx, -, hm, ht⟩ := vexSub_eq_ok.mp h
    obtain ⟨f, rfl, -⟩ := packedSub_eq_ok hm
    exact ⟨_, f, ht⟩
  have evex : ∀ {n pre e b er reg rm}, evexSub n pre e b er reg i.length rm s = .ok t →
      ∃ lanes f, t = commit s (num5 e.r2 e.r reg) lanes (orFlags s.mxcsr f) i.length := by
    intro n pre e b er reg rm h
    obtain ⟨-, src, mx, -, hm, ht⟩ := evexSub_eq_ok.mp h
    obtain ⟨f, rfl, -⟩ := packedSub_eq_ok hm
    exact ⟨_, f, ht⟩
  cases i with
  | subpd pre rex reg rm =>
    obtain ⟨-, b, mx, -, hm, ht⟩ := execSubpd_eq_next.mp h
    obtain ⟨f, rfl, -⟩ := packedSub_eq_ok hm
    exact ⟨_, f, ht⟩
  | vsubpdVex2x128 pre p reg rm => exact vex (outcome_eq_next.mp h)
  | vsubpdVex3x128 pre p reg rm => exact vex (outcome_eq_next.mp h)
  | vsubpdVex2x256 pre p reg rm => exact vex (outcome_eq_next.mp h)
  | vsubpdVex3x256 pre p reg rm => exact vex (outcome_eq_next.mp h)
  | vsubpdEvex128 pre e b reg rm => exact evex (outcome_eq_next.mp h)
  | vsubpdEvex256 pre e b reg rm => exact evex (outcome_eq_next.mp h)
  | vsubpdEvex512 pre e b reg rm => exact evex (outcome_eq_next.mp h)
  | vsubpdEvex512er pre e rc reg rm => exact evex (outcome_eq_next.mp h)

/-- The ways a meaning stops. -/
inductive ExecStop (s : State) : Stop → Prop where
  | ud : ExecStop s (.fault (.invalidOpcode s))
  | nm : ExecStop s (.fault (.deviceNotAvailable s))
  | mode : ExecStop s (.refuse .modeNotDescribed)
  | source {st : Stop} (h : SourceStop s st) : ExecStop s st
  | simd (fl : FlagSet) : ExecStop s
      (.fault (raise (if s.osxmmexcpt then .xm else .ud) { s with mxcsr := orFlags s.mxcsr fl }))

theorem enableCheck_stop {c : FormClass} {s : State} {st : Stop} (h : enableCheck c s = .error st) :
    ExecStop s st := by
  rcases enableCheck_cases c s with ⟨-, e⟩ | ⟨-, -, e⟩ | ⟨-, -, -, e⟩ | ⟨-, e⟩ <;> rw [e] at h <;>
    simp only [Except.error.injEq, reduceCtorEq] at h <;> subst h
  · exact .ud
  · exact .nm
  · exact .mode

theorem vexSub_stop {lanes : Nat} {pre : List Prefix} {d s1 : BitVec 5} {x b : Bool} {len : Nat}
    {rm : RmOperand} {s : State} {st : Stop}
    (h : vexSub lanes pre d s1 x b len rm s = .error st) : ExecStop s st := by
  unfold vexSub at h
  simp only [bind_eq_error, pure, Except.pure, reduceCtorEq, and_false, exists_false, or_false] at h
  rcases h with h | ⟨_, -, h | ⟨_, -, h⟩⟩
  · exact enableCheck_stop h
  · exact .source (vexSource_stop h)
  · obtain ⟨-, fl, rfl⟩ := packedSub_error h
    exact .simd fl

theorem evexSub_stop {lanes : Nat} {pre : List Prefix} {e : Evex} {bcst : Bool}
    {er : Option Rounding} {reg : BitVec 3} {len : Nat} {rm : RmOperand} {s : State} {st : Stop}
    (h : evexSub lanes pre e bcst er reg len rm s = .error st) : ExecStop s st := by
  unfold evexSub at h
  simp only [bind_eq_error, pure, Except.pure, reduceCtorEq, and_false, exists_false, or_false] at h
  rcases h with h | ⟨_, -, h | ⟨_, -, h⟩⟩
  · exact enableCheck_stop h
  · exact .source (evexSource_stop h)
  · obtain ⟨-, fl, rfl⟩ := packedSub_error h
    exact .simd fl

theorem execSubpd_stop {pre : List Prefix} {rex : Option Rex} {reg : BitVec 3} {rm : RmOperand}
    {s : State} {f : Fault} (h : execSubpd pre rex reg rm s = .fault f) :
    ExecStop s (.fault f) := by
  unfold execSubpd at h
  simp only [outcome_eq_fault, bind_eq_error, pure, Except.pure, reduceCtorEq, and_false,
    exists_false, or_false] at h
  rcases h with h | ⟨_, -, h | ⟨_, -, h⟩⟩
  · exact enableCheck_stop h
  · exact .source (legacySource_stop h)
  · obtain ⟨-, fl, h⟩ := packedSub_error h
    rw [h]
    exact .simd fl

/-- Whatever instruction faults, it is one of `ExecStop`. -/
theorem exec_eq_fault {i : Instr} {s : State} {f : Fault} (h : exec i s = .fault f) :
    ExecStop s (.fault f) := by
  cases i with
  | subpd pre rex reg rm => exact execSubpd_stop h
  | vsubpdVex2x128 pre p reg rm => exact vexSub_stop (outcome_eq_fault.mp h)
  | vsubpdVex3x128 pre p reg rm => exact vexSub_stop (outcome_eq_fault.mp h)
  | vsubpdVex2x256 pre p reg rm => exact vexSub_stop (outcome_eq_fault.mp h)
  | vsubpdVex3x256 pre p reg rm => exact vexSub_stop (outcome_eq_fault.mp h)
  | vsubpdEvex128 pre e b reg rm => exact evexSub_stop (outcome_eq_fault.mp h)
  | vsubpdEvex256 pre e b reg rm => exact evexSub_stop (outcome_eq_fault.mp h)
  | vsubpdEvex512 pre e b reg rm => exact evexSub_stop (outcome_eq_fault.mp h)
  | vsubpdEvex512er pre e rc reg rm => exact evexSub_stop (outcome_eq_fault.mp h)

/-- A step that completes decoded an instruction and ran it. -/
theorem step_eq_next {s t : State} (h : step s = .next t) :
    ∃ i, decode s.mode (fetchWindow s) = .instr i ∧ exec i s = .next t := by
  unfold step stepOnce at h
  simp only at h
  split at h
  · rename_i st _
    cases st <;> simp [Stop.outcome] at h
  · cases hd : decode s.mode (fetchWindow s) with
    | instr i => exact ⟨i, rfl, by simpa [hd, runDecoded] using h⟩
    | ud n => simp [hd, runDecoded] at h
    | tooLong n => simp [hd, runDecoded] at h
    | foreign w n => simp [hd, runDecoded] at h
    | otherMode c n =>
      simp only [hd, runDecoded] at h
      split at h
      · rename_i st _
        cases st <;> simp [Stop.outcome] at h
      · simp at h

end Sys2Proof.Machine
end

