-- ==== Sys2Proof/Laws/PerInstr.lean ====
section
/-! SUPPORT. A family of statements with one lemma per instruction: the encoder writes as many bytes as the
instruction is long (R115). -/

namespace Sys2Proof.Laws.EncodedLength

open Sys2Proof

/-- The encoding of the instruction has its length. -/
def Statement (i : Instr) : Prop := (encode i).length = i.length

theorem encodeRm_length (reg : BitVec 3) (rm : RmOperand) : (encodeRm reg rm).length = rm.length := by
  cases rm with
  | reg r => rfl
  | base r d => cases d <;> rfl
  | disp d => rfl
  | sib s d => cases d <;> rfl
  | sibNoBase sc ix d => rfl

theorem subpd (pre : List Prefix) (rex : Option Rex) (reg : BitVec 3) (rm : RmOperand) :
    Statement (.subpd pre rex reg rm) := by
  cases rex <;>
    simp [Statement, encode, Instr.length, preBytes, rexBytes, rexLength, encodeRm_length] <;> omega

theorem vsubpdVex2x128 (pre : List Prefix) (p : Vex2) (reg : BitVec 3) (rm : RmOperand) :
    Statement (.vsubpdVex2x128 pre p reg rm) := by
  simp [Statement, encode, encodeVex2, Instr.length, preBytes, encodeRm_length]; omega

theorem vsubpdVex3x128 (pre : List Prefix) (p : Vex3) (reg : BitVec 3) (rm : RmOperand) :
    Statement (.vsubpdVex3x128 pre p reg rm) := by
  simp [Statement, encode, encodeVex3, Instr.length, preBytes, encodeRm_length]; omega

theorem vsubpdVex2x256 (pre : List Prefix) (p : Vex2) (reg : BitVec 3) (rm : RmOperand) :
    Statement (.vsubpdVex2x256 pre p reg rm) := by
  simp [Statement, encode, encodeVex2, Instr.length, preBytes, encodeRm_length]; omega

theorem vsubpdVex3x256 (pre : List Prefix) (p : Vex3) (reg : BitVec 3) (rm : RmOperand) :
    Statement (.vsubpdVex3x256 pre p reg rm) := by
  simp [Statement, encode, encodeVex3, Instr.length, preBytes, encodeRm_length]; omega

theorem vsubpdEvex128 (pre : List Prefix) (e : Evex) (b : Bool) (reg : BitVec 3) (rm : RmOperand) :
    Statement (.vsubpdEvex128 pre e b reg rm) := by
  simp [Statement, encode, encodeEvex, Instr.length, preBytes, encodeRm_length]; omega

theorem vsubpdEvex256 (pre : List Prefix) (e : Evex) (b : Bool) (reg : BitVec 3) (rm : RmOperand) :
    Statement (.vsubpdEvex256 pre e b reg rm) := by
  simp [Statement, encode, encodeEvex, Instr.length, preBytes, encodeRm_length]; omega

theorem vsubpdEvex512 (pre : List Prefix) (e : Evex) (b : Bool) (reg : BitVec 3) (rm : RmOperand) :
    Statement (.vsubpdEvex512 pre e b reg rm) := by
  simp [Statement, encode, encodeEvex, Instr.length, preBytes, encodeRm_length]; omega

theorem vsubpdEvex512er (pre : List Prefix) (e : Evex) (rc : Rounding) (reg rm : BitVec 3) :
    Statement (.vsubpdEvex512er pre e rc reg rm) := by
  simp [Statement, encode, encodeEvex, encodeRm, Instr.length, preBytes]

end Sys2Proof.Laws.EncodedLength
end

