-- ==== Sys2Proof/Laws/Results.lean ====
section
/-! SUPPORT. What the state is after a commit. -/

namespace Sys2Proof.Machine

open Sys2Proof

/-- A commit of lanes made by a function is that result. -/
theorem commit_resultIs {s : State} {d : BitVec 5} {n : Nat} {f new : Nat → Quad} {m : BitVec 32}
    {len : Nat} (h : ∀ j, j < 8 → new j = if j < n then f j else 0) :
    ResultIs s (commit s d ((List.range n).map f) m len) (s.vreg d) new m len where
  lanes j hj := by
    rw [readV_commit_same, lane_packLanes_take _ _ j hj, lane_packLanes_map n f j hj, h j hj]
    simp only [lt_div_maxvl]
  others k hk := readV_commit_other s d k _ m len hk
  mxcsr := rfl
  pc := rfl
  elsewhere := commit_sameElsewhere s d _ m len

/-- A memory operand's second source, when it is readable. -/
theorem vexSource_mem {s : State} {pre : List Prefix} {x b : Bool} {lanes len : Nat} {rm : RmOperand}
    (hm : rm.isMem = true) :
    vexSource s pre x b lanes len rm =
      readLanes s (operandAddress s pre x b 1 len rm).1 (operandAddress s pre x b 1 len rm).2 lanes
        false fun _ => true := by
  cases rm <;> first | rfl | exact absurd hm (by simp [RmOperand.isMem])

theorem evexSource_mem {s : State} {pre : List Prefix} {x b bcst : Bool} {lanes len : Nat}
    {active : Nat → Bool} {rm : RmOperand} (hm : rm.isMem = true) :
    evexSource s pre x b lanes bcst active len rm =
      readLanes s (operandAddress s pre x b (dispFactor lanes bcst) len rm).1
        (operandAddress s pre x b (dispFactor lanes bcst) len rm).2 lanes bcst active := by
  cases rm <;> first | rfl | exact absurd hm (by simp [RmOperand.isMem])

theorem legacySource_mem {s : State} {pre : List Prefix} {x b : Bool} {len : Nat} {rm : RmOperand}
    (hm : rm.isMem = true) :
    legacySource s pre x b len rm =
      (match legacyAlignment s (operandAddress s pre x b 1 len rm).1
          (operandAddress s pre x b 1 len rm).2 with
        | .error st => .error st
        | .ok () => readLanes s (operandAddress s pre x b 1 len rm).1
            (operandAddress s pre x b 1 len rm).2 2 false fun _ => true) := by
  cases rm <;> first | rfl | exact absurd hm (by simp [RmOperand.isMem])

theorem legacyAlignment_of_aligned {s : State} {sg : Seg} {la : Quad} (h : la.toNat % 16 = 0) :
    legacyAlignment s sg la = .ok () := by
  rw [legacyAlignment, if_pos h]

/-- A VEX form runs `vexSub` on its fields. -/
theorem exec_vexForm {i : Instr} {n : Nat} {pre : List Prefix} {d s1 : BitVec 5} {x b : Bool}
    {rm : RmOperand} (h : VexForm i n pre d s1 x b rm) (s : State) :
    exec i s = outcome (vexSub n pre d s1 x b i.length rm s) := by
  cases h <;> rfl

/-- An EVEX form runs `evexSub` on its fields. -/
theorem exec_evexForm {i : Instr} {n : Nat} {pre : List Prefix} {e : Evex} {bcst : Bool}
    {reg : BitVec 3} {rm : RmOperand} (h : EvexForm i n pre e bcst reg rm) (s : State) :
    exec i s = outcome (evexSub n pre e bcst none reg i.length rm s) ∧ i.cls = .evex (64 * n) := by
  cases h <;> exact ⟨rfl, rfl⟩

end Sys2Proof.Machine
end

