-- ==== Sys2Proof/Tests/Slice0.lean ====
section
/-! SUPPORT. Tests: ill-formed terms, words written from the spec, single steps with results from the spec's
examples, and a state and operands that meet the hypotheses of each statement. -/

namespace Sys2Proof.Tests

set_option maxRecDepth 100000
set_option Elab.async false

open Sys2Proof Sys2Proof.Machine

/-! ### WellFormed refuses each kind of ill-formed term -/

theorem test_wf_no_mandatory_66 : wellFormed .long64 (.subpd [] none 0 (.reg 1)) = false := by decide
theorem test_wf_66_before_vex :
    wellFormed .long64 (.vsubpdVex2x128 [.opSize] ⟨false, 1⟩ 0 (.reg 2)) = false := by decide
theorem test_wf_66_before_evex : wellFormed .long64
    (.vsubpdEvex512 [.opSize] ⟨false, false, false, false, 1, false, false, 0⟩ false 0 (.reg 2)) = false := by
  decide
theorem test_wf_lock : wellFormed .long64 (.subpd [.lock, .opSize] none 0 (.reg 1)) = false := by decide
theorem test_wf_rep : wellFormed .long64 (.subpd [.opSize, .rep] none 0 (.reg 1)) = false := by decide
theorem test_wf_repne : wellFormed .long64 (.subpd [.opSize, .repne] none 0 (.reg 1)) = false := by decide
theorem test_wf_dropped_rex_last :
    wellFormed .long64 (.subpd [.opSize, .droppedRex 5] none 0 (.reg 1)) = false := by decide
theorem test_wf_dropped_rex_prot32 :
    wellFormed .prot32 (.subpd [.droppedRex 5, .opSize] none 0 (.reg 1)) = false := by decide
theorem test_wf_base_4 : wellFormed .long64 (.subpd [.opSize] none 0 (.base 4 .none)) = false := by decide
theorem test_wf_base_5_no_disp :
    wellFormed .long64 (.subpd [.opSize] none 0 (.base 5 .none)) = false := by decide
theorem test_wf_sib_base_5_no_disp :
    wellFormed .long64 (.subpd [.opSize] none 0 (.sib ⟨0, 4, 5⟩ .none)) = false := by decide
theorem test_wf_zeroing_without_mask : wellFormed .long64
    (.vsubpdEvex128 [] ⟨false, false, false, false, 1, true, false, 0⟩ false 0 (.reg 2)) = false := by decide
theorem test_wf_broadcast_register : wellFormed .long64
    (.vsubpdEvex256 [] ⟨false, false, false, false, 1, false, false, 0⟩ true 0 (.reg 2)) = false := by decide
theorem test_wf_too_long :
    wellFormed .long64 (.subpd (List.replicate 13 .opSize) none 0 (.reg 1)) = false := by decide
theorem test_wf_rex_prot32 :
    wellFormed .prot32 (.subpd [.opSize] (some ⟨false, false, false, true⟩) 0 (.reg 1)) = false := by decide
theorem test_wf_vex2_prot32 :
    wellFormed .prot32 (.vsubpdVex2x128 [] ⟨false, 9⟩ 0 (.reg 2)) = false := by decide
theorem test_wf_vex3_prot32 :
    wellFormed .prot32 (.vsubpdVex3x256 [] ⟨false, true, false, false, 1⟩ 0 (.reg 2)) = false := by decide
theorem test_wf_evex_prot32 : wellFormed .prot32
    (.vsubpdEvex512er [] ⟨false, false, false, false, 1, false, true, 0⟩ .rz 0 2) = false := by decide
theorem test_wf_address_size_prot32 :
    wellFormed .prot32 (.subpd [.opSize, .addrSize] none 0 (.base 0 .none)) = false := by decide
theorem test_wf_real_mode : wellFormed .real (.subpd [.opSize] none 0 (.reg 1)) = false := by decide

/-! ### Words written out from the spec's encodings (R95 to R105; examples of spec/95 section 2) -/

theorem test_decode_subpd : decode .long64 [0x66, 0x45, 0x0F, 0x5C, 0xC1] =
    .instr (.subpd [.opSize] (some ⟨false, true, false, true⟩) 0 (.reg 1)) := by decide
theorem test_decode_subpd_sib :
    decode .long64 [0x66, 0x47, 0x0F, 0x5C, 0xBC, 0xF8, 0x78, 0x56, 0x34, 0x12] =
    .instr (.subpd [.opSize] (some ⟨false, true, true, true⟩) 7 (.sib ⟨3, 7, 0⟩ (.d32 0x12345678))) := by
  decide
theorem test_decode_vex2x128 : decode .long64 [0xC5, 0xF1, 0x5C, 0xC2] =
    .instr (.vsubpdVex2x128 [] ⟨false, 1⟩ 0 (.reg 2)) := by decide
theorem test_decode_vex3x128 : decode .long64 [0xC4, 0xC1, 0x71, 0x5C, 0xC2] =
    .instr (.vsubpdVex3x128 [] ⟨false, false, true, false, 1⟩ 0 (.reg 2)) := by decide
theorem test_decode_vex2x256 : decode .long64 [0xC5, 0xF5, 0x5C, 0x00] =
    .instr (.vsubpdVex2x256 [] ⟨false, 1⟩ 0 (.base 0 .none)) := by decide
theorem test_decode_vex3x256 : decode .long64 [0xC4, 0x01, 0x05, 0x5C, 0x44, 0x91, 0xE0] =
    .instr (.vsubpdVex3x256 [] ⟨true, true, true, false, 15⟩ 0 (.sib ⟨2, 2, 1⟩ (.d8 0xE0))) := by decide
theorem test_decode_evex128 : decode .long64 [0x62, 0xF1, 0xF5, 0x0A, 0x5C, 0x40, 0x01] =
    .instr (.vsubpdEvex128 [] ⟨false, false, false, false, 1, false, false, 2⟩ false 0
      (.base 0 (.d8 1))) := by decide
theorem test_decode_evex256 : decode .long64 [0x62, 0xF1, 0xED, 0xBB, 0x5C, 0x4A, 0x01] =
    .instr (.vsubpdEvex256 [] ⟨false, false, false, false, 2, true, false, 3⟩ true 1
      (.base 2 (.d8 1))) := by decide
theorem test_decode_evex512 : decode .long64 [0x62, 0x01, 0x8D, 0x40, 0x5C, 0xFD] =
    .instr (.vsubpdEvex512 [] ⟨true, true, true, true, 14, false, true, 0⟩ false 7 (.reg 5)) := by decide
theorem test_decode_evex512er : decode .long64 [0x62, 0xF1, 0xF5, 0xF9, 0x5C, 0xC2] =
    .instr (.vsubpdEvex512er [] ⟨false, false, false, false, 1, true, false, 1⟩ .rz 0 2) := by decide
theorem test_decode_dropped_rex : decode .long64 [0x45, 0x66, 0x0F, 0x5C, 0xC1] =
    .instr (.subpd [.droppedRex 5, .opSize] none 0 (.reg 1)) := by decide
theorem test_decode_too_long :
    decode .long64 (List.replicate 12 0x66 ++ [0x0F, 0x5C, 0xC1]) =
      .instr (.subpd (List.replicate 12 .opSize) none 0 (.reg 1)) ∧
    decode .long64 (List.replicate 13 0x66 ++ [0x0F, 0x5C, 0xC1]) = .tooLong 16 := by decide
/-- R224 step 3 in every mode: 16 bytes of SUBPD, and of an illegal VEX form, in real-address mode. -/
theorem test_decode_too_long_real :
    decode .real (List.replicate 13 0x66 ++ [0x0F, 0x5C, 0xC1]) = .tooLong 16 ∧
    decode .virtual8086 (List.replicate 12 0x67 ++ [0xC5, 0xF1, 0x5C, 0xC2]) = .tooLong 16 ∧
    decode .real (List.replicate 12 0x66 ++ [0x0F, 0x5C, 0xC1]) = .otherMode .legacy 15 := by decide
/-- Fifteen prefixes: the bytes after them belong to the instruction too (R79). -/
theorem test_decode_fifteen_prefixes :
    decode .long64 (List.replicate 15 0x66 ++ [0x0F, 0x5C, 0xC1, 0x90]) = .tooLong 18 := by decide
/-- R114 reads ModRM of any EVEX bytes: an illegal or another instruction of another opcode has it too, and it
counts towards the 15 bytes. -/
theorem test_decode_evex_modrm :
    decode .long64 [0x62, 0xF5, 0xF5, 0x48, 0x58, 0xC1] = .ud 6 ∧
    decode .long64 (List.replicate 10 0x67 ++ [0x62, 0xF5, 0xF5, 0x48, 0x58, 0xC1]) = .tooLong 16 ∧
    decode .long64 [0x62, 0xF5, 0xF5, 0x48, 0x58, 0x40, 0x01] = .ud 7 ∧
    decode .long64 [0x62, 0xF1, 0xF5, 0x48, 0x58, 0xC1] = .foreign .otherEvex 6 := by decide
/-- With 16-bit addressing an illegal encoding ends at ModRM (log entry 17). -/
theorem test_decode_illegal_16bit :
    decode .prot32 [0x67, 0xF0, 0x66, 0x0F, 0x5C, 0x80, 1, 2, 3, 4] = .ud 6 ∧
    decode .prot32 [0xF0, 0x66, 0x0F, 0x5C, 0x80, 1, 2, 3, 4] = .ud 9 := by decide
theorem test_decode_prot32_les : decode .prot32 [0xC4, 0x41, 0x71, 0x5C, 0xC2] =
    .foreign .ldsLesBound 2 := by decide

/-! ### Single steps -/

/-- A register with the given low lanes. -/
def vec (q : List Quad) : Vec := packLanes q

/-- The launch state with some registers given values. -/
def demo : State :=
  { State.reset.launch with
    v := (((Vector.replicate Config.vecCount (0 : Vec)).set 0 (vec (List.replicate 8 0x1111111111111111))).set 1
      (vec [0x4016000000000000, 0x4024000000000000, 0x4008000000000000, 0x4010000000000000])).set 2
      (vec [0x4002000000000000, 0x3FF0000000000000, 0x3FE0000000000000, 0x3FE0000000000000])
    k := (Vector.replicate 8 (0 : BitVec Config.opmaskBits)).set 2 0xF9
    x := (Vector.replicate 16 (0 : Quad)).set 0 0x1000
    mem := Memory.writeBytes [] 0x1010 [0, 0, 0, 0, 0, 0, 0x02, 0x40] }

/-- Lane `j` of register `n` after one step that runs these bytes. -/
def laneAfter (s : State) (bytes : List Byte) (n : BitVec 5) (j : Nat) : Option Quad :=
  match step (s.placeCode bytes) with
  | .next t => some (lane (t.readV n) j)
  | _ => none

/-- MXCSR and the pc after one step that runs these bytes. -/
def ctlAfter (s : State) (bytes : List Byte) : Option (BitVec 32 × Quad) :=
  match step (s.placeCode bytes) with
  | .next t => some (t.mxcsr, t.rip)
  | _ => none

/-- The vector a step faults with, and MXCSR in the state it leaves. -/
def faultAfter (s : State) (bytes : List Byte) : Option (Nat × BitVec 32) :=
  match step (s.placeCode bytes) with
  | .fault f => some (f.vector, f.state.mxcsr)
  | _ => none

/-- `SUBPD xmm1, xmm2` on R170's lanes; lane 2 is kept. -/
theorem test_step_subpd :
    (laneAfter demo [0x66, 0x0F, 0x5C, 0xCA] 1 0, laneAfter demo [0x66, 0x0F, 0x5C, 0xCA] 1 1,
      laneAfter demo [0x66, 0x0F, 0x5C, 0xCA] 1 2, ctlAfter demo [0x66, 0x0F, 0x5C, 0xCA]) =
    (some 0x400A000000000000, some 0x4022000000000000, some 0x4008000000000000,
      some (0x1F80, 0xFFF4)) := by decide +kernel

/-- R218: a misaligned operand, `[rax+1]`. -/
theorem test_step_subpd_misaligned :
    faultAfter demo [0x66, 0x0F, 0x5C, 0x40, 0x01] = some (13, 0x1F80) := by decide +kernel

/-- R180's example; lane 2 is zeroed. -/
theorem test_step_vex2x128 :
    (laneAfter demo [0xC5, 0xF1, 0x5C, 0xC2] 0 1, laneAfter demo [0xC5, 0xF1, 0x5C, 0xC2] 0 2) =
    (some 0x4022000000000000, some 0) := by decide +kernel

/-- R182 item 4: the same with a three-byte prefix and `W` = 1. -/
theorem test_step_vex3x128 :
    (laneAfter demo [0xC4, 0xE1, 0xF1, 0x5C, 0xC2] 0 0, ctlAfter demo [0xC4, 0xE1, 0xF1, 0x5C, 0xC2]) =
    (some 0x400A000000000000, some (0x1F80, 0xFFF5)) := by decide +kernel

/-- Lanes 2 and 3 are R181's: 3.0 - 0.5 and 4.0 - 0.5. -/
theorem test_step_vex2x256 :
    (laneAfter demo [0xC5, 0xF5, 0x5C, 0xC2] 0 2, laneAfter demo [0xC5, 0xF5, 0x5C, 0xC2] 0 3,
      laneAfter demo [0xC5, 0xF5, 0x5C, 0xC2] 0 4) =
    (some 0x4004000000000000, some 0x400C000000000000, some 0) := by decide +kernel

/-- A misaligned `m256` at `[rax+0x0F+1]` reads the bytes that are there (R65). -/
theorem test_step_vex3x256 :
    laneAfter demo [0xC4, 0xE1, 0x75, 0x5C, 0x40, 0x10] 0 0 = some 0x400A000000000000 := by decide +kernel

/-- R190's example shape: `VSUBPD xmm0 {k2}, xmm1, [rax+0x10]`, lane 0 computed, lane 1 merged. -/
theorem test_step_evex128 :
    (laneAfter demo [0x62, 0xF1, 0xF5, 0x0A, 0x5C, 0x40, 0x01] 0 0,
      laneAfter demo [0x62, 0xF1, 0xF5, 0x0A, 0x5C, 0x40, 0x01] 0 1,
      laneAfter demo [0x62, 0xF1, 0xF5, 0x0A, 0x5C, 0x40, 0x01] 0 2) =
    (some 0x400A000000000000, some 0x1111111111111111, some 0) := by decide +kernel

/-- Zeroing and broadcast: `VSUBPD ymm0 {k2}{z}, ymm1, [rax+0x10]{1to4}`, `k2` low bits 1001b. -/
theorem test_step_evex256 :
    (laneAfter demo [0x62, 0xF1, 0xF5, 0xBA, 0x5C, 0x40, 0x02] 0 0,
      laneAfter demo [0x62, 0xF1, 0xF5, 0xBA, 0x5C, 0x40, 0x02] 0 1,
      laneAfter demo [0x62, 0xF1, 0xF5, 0xBA, 0x5C, 0x40, 0x02] 0 3) =
    (some 0x400A000000000000, some 0, some 0x3FFC000000000000) := by decide +kernel

/-- R192's first example. -/
theorem test_step_evex512 :
    (laneAfter demo [0x62, 0xF1, 0xF5, 0x48, 0x5C, 0xC2] 0 1,
      laneAfter demo [0x62, 0xF1, 0xF5, 0x48, 0x5C, 0xC2] 0 7) =
    (some 0x4022000000000000, some 0) := by decide +kernel

/-- `demo` with 1.0 and 2^-54 in lane 0 and every exception unmasked. -/
def inexact : State :=
  { demo with
    v := (demo.v.set 1 (vec [0x3FF0000000000000])).set 2 (vec [0x3C90000000000000])
    mxcsr := 0 }

/-- R192's second example: `{rz-sae}` truncates, writes no flag and raises nothing. -/
theorem test_step_evex512er :
    (laneAfter inexact [0x62, 0xF1, 0xF5, 0x78, 0x5C, 0xC2] 0 0,
      ctlAfter inexact [0x62, 0xF1, 0xF5, 0x78, 0x5C, 0xC2]) =
    (some 0x3FEFFFFFFFFFFFFF, some (0, 0xFFF6)) := by decide +kernel

/-- R213, R214: the same lanes without embedded rounding raise `#XM` with `PE` set. -/
theorem test_step_raise : faultAfter inexact [0xC5, 0xF1, 0x5C, 0xC2] = some (19, 0x20) := by decide +kernel

/-- R217. -/
theorem test_step_ts :
    faultAfter { demo with cr0 := demo.cr0 ||| 8 } [0xC5, 0xF1, 0x5C, 0xC2] = some (7, 0x1F80) := by
  decide +kernel

/-- R79, R224 step 2: fifteen prefixes whose next byte cannot be fetched are a page fault, not `#GP(0)`. -/
theorem test_step_fetch_fault :
    let s := { demo with access := [⟨.fetch, [.cs], [0], 0xFFFF, 0xFFFF,
      .page ⟨true, false, false, false, false⟩⟩] }.placeCode (List.replicate 15 0x66 ++ [0x0F, 0x5C, 0xC1])
    decode s.mode (fetchWindow s) = .tooLong 18 ∧ (fetchAddress s).toNat = 0xFFF0 ∧
    (byteRange 0xFFF0 18).any (outside s .fetch .cs) = false ∧
    pageFault? s .fetch .cs (byteRange 0xFFF0 18) ≠ none :=
  ⟨by decide +kernel, by decide +kernel, by decide +kernel,
    fun h => absurd (pageFault?_eq_none.mp h 0xFFFF (by decide +kernel)) (by decide +kernel)⟩

/-- R79, R114: the ModRM byte of an illegal EVEX encoding with another opcode is fetched before the `#UD`. -/
theorem test_step_fetch_fault_evex :
    let s := { demo with access := [⟨.fetch, [.cs], [0], 0xFFF5, 0xFFF5,
      .page ⟨true, false, false, false, false⟩⟩] }.placeCode [0x62, 0xF5, 0xF5, 0x48, 0x58, 0xC1]
    decode s.mode (fetchWindow s) = .ud 6 ∧ (fetchAddress s).toNat = 0xFFF0 ∧
    pageFault? s .fetch .cs (byteRange 0xFFF0 6) ≠ none :=
  ⟨by decide +kernel, by decide +kernel,
    fun h => absurd (pageFault?_eq_none.mp h 0xFFF5 (by decide +kernel)) (by decide +kernel)⟩

/-- R6: with AVX and without AVX512F a register is 256 bits wide and SUBPD keeps no more than those. -/
theorem test_step_maxvl :
    laneAfter { demo with params := { demo.params with features := .avx } } [0x66, 0x0F, 0x5C, 0xC2] 0 3 =
      some 0x1111111111111111 ∧
    laneAfter { demo with params := { demo.params with features := .avx } } [0x66, 0x0F, 0x5C, 0xC2] 0 4 =
      some 0 ∧
    faultAfter { demo with params := { demo.params with features := .avx } }
      [0x62, 0xF1, 0xF5, 0x48, 0x5C, 0xC2] = some (6, 0x1F80) := by decide +kernel

/-- R261 steps 1 to 7: what the launch leaves in CR0, CR4, XCR0 and EFER. -/
theorem test_launch_controls :
    (State.reset.launch.cr0, State.reset.launch.cr4, State.reset.launch.xcr0, State.reset.launch.efer) =
    (0xE0000013#64, 0x40620#64, 0xE7#64, 0x100#64) := by decide

/-- R109 with `X` = 1: index 100b is R12; with `X` = 0 it is none. -/
theorem test_address_index :
    let s := { demo with x := demo.x.set 12 0x20 }
    operandAddress s [] true false 1 5 (.sib ⟨2, 4, 0⟩ .none) = (.ds, 0x1080) ∧
    operandAddress s [] false false 1 5 (.sib ⟨2, 4, 0⟩ .none) = (.ds, 0x1000) := by decide +kernel

/-! ### Witnesses: for each statement with hypotheses, values that meet them -/

/-- Readability from a check that evaluates. -/
theorem readable_of {s : State} {sg : Seg} {la : Quad} {lanes : Nat} {bcst : Bool} {active : Nat → Bool}
    (h : ((neededBytes la.toNat lanes bcst active).all fun a => decide (a < spaceTop s.mode) &&
      !outside s .read sg a && (pageDenial s .read sg a).isNone && !isDevice s .read sg a) = true)
    (hp : s.params.suppressScope = .all) (hc : s.cr0AM = false) :
    Readable s sg la lanes bcst active := by
  refine ⟨fun a ha => ?_, fun e => ?_, fun _ _ e => ?_⟩
  · have := List.all_eq_true.mp h a ha
    simp only [Bool.and_eq_true, decide_eq_true_eq, Bool.not_eq_true', Option.isNone_iff_eq_none] at this
    exact ⟨⟨this.1.1.1, this.1.1.2⟩, this.1.2, this.2⟩
  · rw [hp] at e; exact absurd e (by decide)
  · rw [hc] at e; exact absurd e (by decide)

theorem witness_enabled : Enabled .legacy demo ∧ Enabled .vex demo ∧ Enabled (.evex 128) demo ∧
    Enabled (.evex 256) demo ∧ Enabled (.evex 512) demo ∧ Enabled .vex inexact := by
  unfold Enabled; decide +kernel

theorem witness_NanOperandResult :
    (isNaN 0x7FF0000000000001#64 || isNaN 0x3FF0000000000000#64) = true ∧
    (isNaN 0#64 || isNaN 0xFFF8000000000000#64) = true := by decide
theorem witness_InfinityResult :
    isInf (negate plusInf) = true ∧ isFinite 1#64 = true ∧ isDen 1#64 = true := by decide
/-- Both kinds of zero: opposite signs, and `x - x`. -/
theorem witness_ExactZeroResult :
    isFinite 0x8000000000000000#64 = true ∧ intValue (dazIn 0#64 false) = intValue
      (dazIn 0x8000000000000000#64 false) ∧ signOf 0#64 = !signOf 0x8000000000000000#64 ∧
    intValue (dazIn 1#64 true) = intValue (dazIn 1#64 true) := by decide +kernel
/-- A lane of each condition: invalid, overflow, tiny. -/
theorem witness_LaneFlagSets :
    (cond 0x7FF0000000000001 0 .rn false).inv = true ∧ (cond maxFinite (negate maxFinite) .rn false).ovf = true ∧
    (cond 0x0018000000000000 0x0010000000000000 .rn false).tiny = true := by decide +kernel
theorem witness_ExactWhenNotInexact :
    (cond 0x4016000000000000 0x4002000000000000 .rn false).inx = false ∧
    (cond 0x4016000000000000 0x4002000000000000 .rn false).ovf = false ∧
    isFinite 0x4016000000000000#64 = true := by decide +kernel
theorem witness_DirectedRoundingIsTight :
    ∀ rc ∈ [Rounding.rd, .ru, .rz], (cond 0x3FF0000000000000 0x3C90000000000000 rc false).ovf = false ∧
      (cond 0x3FF0000000000000 0x3C90000000000000 rc false).inx = true := by decide +kernel
/-- 1 - 2^-54 is a tie between 1 - 2^-53 and 1. -/
theorem witness_NearestRounding :
    (cond 0x3FF0000000000000 0x3C90000000000000 .rn false).ovf = false ∧
    (intValue 0x3FEFFFFFFFFFFFFF - (intValue 0x3FF0000000000000 - intValue 0x3C90000000000000)).natAbs =
    (intValue 0x3FF0000000000000 - (intValue 0x3FF0000000000000 - intValue 0x3C90000000000000)).natAbs := by
  decide +kernel
/-- In RN the smallest overflowing difference, `MAXF + 2^970`, and the largest that does not. -/
theorem witness_OverflowResult :
    (cond maxFinite 0xFC90000000000000 .rn false).ovf = true ∧
    (cond maxFinite 0xFC8FFFFFFFFFFFFF .rn false).ovf = false ∧
    (cond maxFinite 0x8000000000000001 .ru false).ovf = true ∧
    (cond (negate maxFinite) 0x0000000000000001 .rd false).ovf = true ∧
    (cond maxFinite 0xFCA0000000000000 .rz false).ovf = true := by decide +kernel
theorem witness_TinyResult :
    isFinite 0x0018000000000000#64 = true ∧ intValue (dazIn 0x0018000000000000 false) -
      intValue (dazIn 0x0010000000000000 false) ≠ 0 ∧
    (intValue (dazIn 0x0018000000000000 false) - intValue (dazIn 0x0010000000000000 false)).natAbs <
      2 ^ 52 := by decide +kernel
/-- The boundary `a = 2b`. -/
theorem witness_SterbenzExact :
    signOf 0x4000000000000000#64 = signOf 0x3FF0000000000000#64 ∧
    (intValue 0x3FF0000000000000).natAbs ≤ 2 * (intValue 0x4000000000000000).natAbs ∧
    (intValue 0x4000000000000000).natAbs ≤ 2 * (intValue 0x3FF0000000000000).natAbs := by decide +kernel
theorem witness_SubtractZero : isNaN 1#64 = false ∧ isZero 1#64 = false ∧ (isDen 1#64 && false) = false := by
  decide
theorem witness_SwapNegates :
    intValue (dazIn 0x3FF0000000000000 true) ≠ intValue (dazIn 0x3C90000000000000 true) := by decide +kernel

/-- Quiet lanes, and lanes that are not. -/
theorem witness_PackedCompletesIffQuiet :
    QuietLanes demo 8 (regLanes demo 1) (regLanes demo 2) allLanes .rn ∧
    ¬ QuietLanes inexact 2 (regLanes inexact 1) (regLanes inexact 2) allLanes .rn := by
  unfold QuietLanes QuietLane; decide +kernel

/-- SUBPD, a VEX form and an EVEX form over an inexact lane with `PM` = 0. -/
theorem witness_UnmaskedConditionRaises :
    inexact.params.xmFlags = .twoPhase ∧ Enabled .legacy inexact ∧ Enabled .vex inexact ∧
    Enabled (.evex 512) inexact ∧
    ¬ QuietLanes inexact 2 (regLanes inexact (num5 false ((none : Option Rex).any Rex.r) 1))
      (regLanes inexact (num5 false ((none : Option Rex).any Rex.b) 2)) allLanes (mxRC inexact.mxcsr) ∧
    ¬ QuietLanes inexact 2 (regLanes inexact (vvvvNum false 1)) (regLanes inexact (num5 false false 2))
      allLanes (mxRC inexact.mxcsr) ∧
    ¬ QuietLanes inexact 8 (regLanes inexact (vvvvNum false 1)) (regLanes inexact (num5 false false 2))
      (activeLane inexact 0) (mxRC inexact.mxcsr) := by
  unfold Enabled QuietLanes QuietLane; decide +kernel

/-- The loose reading of `XM_FLAGS`, over the same lanes. -/
theorem witness_UnmaskedConditionRaises_loose :
    let s := { inexact with params := { inexact.params with xmFlags := .loose } }
    s.params.xmFlags = .loose ∧ Enabled .vex s ∧
    ¬ QuietLanes s 2 (regLanes s (vvvvNum false 1)) (regLanes s (num5 false false 2)) allLanes
      (mxRC s.mxcsr) := by
  unfold Enabled QuietLanes QuietLane; decide +kernel

/-- `inexact` with 2^-54 in memory too: an inexact lane 0 for `[rax+0x10]`, 16-byte aligned and broadcast. -/
def inexactMem : State := { inexact with mem := Memory.writeBytes [] 0x1010 [0, 0, 0, 0, 0, 0, 0x90, 0x3C] }

theorem witness_UnmaskedConditionRaises_memory :
    inexactMem.params.xmFlags = .twoPhase ∧ Enabled .legacy inexactMem ∧ Enabled .vex inexactMem ∧
    Enabled (.evex 512) inexactMem ∧
    operandAddress inexactMem [.opSize] false false 1 5 (.base 0 (.d8 0x10)) = (.ds, 0x1010) ∧
    operandAddress inexactMem [] false false 1 5 (.base 0 (.d8 0x10)) = (.ds, 0x1010) ∧
    operandAddress inexactMem [] false false (dispFactor 8 true) 7 (.base 0 (.d8 2)) = (.ds, 0x1010) ∧
    Readable inexactMem .ds 0x1010 2 false allLanes ∧ Readable inexactMem .ds 0x1010 4 false allLanes ∧
    Readable inexactMem .ds 0x1010 8 true (activeLane inexactMem 0) ∧
    ¬ QuietLanes inexactMem 2 (regLanes inexactMem 1) (memLanes inexactMem 0x1010 false) allLanes
      (mxRC inexactMem.mxcsr) ∧
    ¬ QuietLanes inexactMem 4 (regLanes inexactMem 1) (memLanes inexactMem 0x1010 false) allLanes
      (mxRC inexactMem.mxcsr) ∧
    ¬ QuietLanes inexactMem 8 (regLanes inexactMem 1) (memLanes inexactMem 0x1010 true)
      (activeLane inexactMem 0) (mxRC inexactMem.mxcsr) := by
  refine ⟨rfl, by unfold Enabled; decide +kernel, by unfold Enabled; decide +kernel,
    by unfold Enabled; decide +kernel, by decide +kernel, by decide +kernel, by decide +kernel,
    readable_of (by decide +kernel) rfl (by decide +kernel),
    readable_of (by decide +kernel) rfl (by decide +kernel),
    readable_of (by decide +kernel) rfl (by decide +kernel), ?_, ?_, ?_⟩ <;>
    (unfold QuietLanes QuietLane; decide +kernel)

theorem witness_SubpdRegisterCompletes :
    Enabled .legacy demo ∧
    QuietLanes demo 2 (regLanes demo (num5 false ((none : Option Rex).any Rex.r) 1))
      (regLanes demo (num5 false ((none : Option Rex).any Rex.b) 2)) allLanes (mxRC demo.mxcsr) := by
  unfold Enabled QuietLanes QuietLane; decide +kernel

/-- `[rax+0x10]` is 16-byte aligned. -/
theorem witness_SubpdMemoryCompletes :
    let i := Instr.subpd [.opSize] none 1 (.base 0 (.d8 0x10))
    let src := operandAddress demo [.opSize] false false 1 i.length (.base 0 (.d8 0x10))
    Enabled .legacy demo ∧ src.2.toNat % 16 = 0 ∧ Readable demo src.1 src.2 2 false allLanes ∧
    QuietLanes demo 2 (regLanes demo 1) (memLanes demo src.2 false) allLanes (mxRC demo.mxcsr) :=
  ⟨witness_enabled.1, by decide +kernel, readable_of (by decide +kernel) rfl (by decide +kernel), by
    unfold QuietLanes QuietLane; decide +kernel⟩

/-- The four VEX forms with a register source. -/
theorem witness_VexRegisterCompletes :
    VexForm (.vsubpdVex2x128 [] ⟨false, 1⟩ 0 (.reg 2)) 2 [] (num5 false false 0) (vvvvNum false 1) false
      false (.reg 2) ∧
    VexForm (.vsubpdVex3x128 [] ⟨false, true, false, true, 1⟩ 0 (.reg 2)) 2 [] (num5 false false 0)
      (vvvvNum false 1) true false (.reg 2) ∧
    VexForm (.vsubpdVex2x256 [] ⟨false, 1⟩ 0 (.reg 2)) 4 [] (num5 false false 0) (vvvvNum false 1) false
      false (.reg 2) ∧
    VexForm (.vsubpdVex3x256 [] ⟨false, false, false, false, 1⟩ 0 (.reg 2)) 4 [] (num5 false false 0)
      (vvvvNum false 1) false false (.reg 2) ∧
    Enabled .vex demo ∧
    QuietLanes demo 4 (regLanes demo (vvvvNum false 1)) (regLanes demo (num5 false false 2)) allLanes
      (mxRC demo.mxcsr) ∧
    QuietLanes demo 2 (regLanes demo (vvvvNum false 1)) (regLanes demo (num5 false false 2)) allLanes
      (mxRC demo.mxcsr) :=
  ⟨.vex2x128 .., .vex3x128 .., .vex2x256 .., .vex3x256 .., by unfold Enabled; decide +kernel,
    by unfold QuietLanes QuietLane; decide +kernel, by unfold QuietLanes QuietLane; decide +kernel⟩

/-- A misaligned readable operand of the widest VEX form, `[rax+1]`, and a form of each kind over it. -/
theorem witness_VexMemoryCompletes :
    VexForm (.vsubpdVex2x256 [] ⟨false, 1⟩ 0 (.base 0 (.d8 1))) 4 [] (num5 false false 0)
      (vvvvNum false 1) false false (.base 0 (.d8 1)) ∧
    VexForm (.vsubpdVex3x256 [] ⟨false, false, false, false, 1⟩ 0 (.base 0 (.d8 1))) 4 []
      (num5 false false 0) (vvvvNum false 1) false false (.base 0 (.d8 1)) ∧
    VexForm (.vsubpdVex2x128 [] ⟨false, 1⟩ 0 (.base 0 (.d8 1))) 2 [] (num5 false false 0)
      (vvvvNum false 1) false false (.base 0 (.d8 1)) ∧
    VexForm (.vsubpdVex3x128 [] ⟨false, false, false, false, 1⟩ 0 (.base 0 (.d8 1))) 2 []
      (num5 false false 0) (vvvvNum false 1) false false (.base 0 (.d8 1)) ∧
    Enabled .vex demo ∧
    Readable demo .ds 0x1001 4 false allLanes ∧ Readable demo .ds 0x1001 2 false allLanes ∧
    operandAddress demo [] false false 1 5 (.base 0 (.d8 1)) = (.ds, 0x1001) ∧
    QuietLanes demo 4 (regLanes demo (vvvvNum false 1)) (memLanes demo 0x1001 false) allLanes
      (mxRC demo.mxcsr) ∧
    QuietLanes demo 2 (regLanes demo (vvvvNum false 1)) (memLanes demo 0x1001 false) allLanes
      (mxRC demo.mxcsr) :=
  ⟨.vex2x256 .., .vex3x256 .., .vex2x128 .., .vex3x128 .., witness_enabled.2.1,
    readable_of (by decide +kernel) rfl (by decide +kernel),
    readable_of (by decide +kernel) rfl (by decide +kernel), by decide +kernel,
    by unfold QuietLanes QuietLane; decide +kernel, by unfold QuietLanes QuietLane; decide +kernel⟩

/-- A masked EVEX register form of each length (`k2` low bits 1001b). -/
theorem witness_EvexRegisterCompletes :
    EvexForm (.vsubpdEvex128 [] ⟨false, false, false, false, 1, false, false, 2⟩ false 0 (.reg 2)) 2 []
      ⟨false, false, false, false, 1, false, false, 2⟩ false 0 (.reg 2) ∧
    EvexForm (.vsubpdEvex256 [] ⟨false, false, false, false, 1, false, false, 2⟩ false 0 (.reg 2)) 4 []
      ⟨false, false, false, false, 1, false, false, 2⟩ false 0 (.reg 2) ∧
    EvexForm (.vsubpdEvex512 [] ⟨false, false, false, false, 1, true, false, 2⟩ false 0 (.reg 2)) 8 []
      ⟨false, false, false, false, 1, true, false, 2⟩ false 0 (.reg 2) ∧
    (∀ n ∈ [2, 4, 8], Enabled (.evex (64 * n)) demo ∧
      QuietLanes demo n (regLanes demo (vvvvNum false 1)) (regLanes demo (num5 false false 2))
        (activeLane demo 2) (mxRC demo.mxcsr)) :=
  ⟨.evex128 .., .evex256 .., .evex512 .., by
    unfold Enabled QuietLanes QuietLane; decide +kernel⟩

/-- `demo` with paging refusing every byte from 0x1018 up. -/
def paged : State :=
  { demo with access := [⟨.read, [.ds], [0], 0x1018, 0xFFFFFFFF,
      .page ⟨false, false, false, false, false⟩⟩] }

/-- `[rax+N]` of each length: 128 bits where paging refuses the bytes of lane 1, which `k2` masks off;
256 bits broadcast; 512 bits full width. -/
theorem witness_EvexMemoryCompletes :
    operandAddress paged [] false false (dispFactor 2 false) 7 (.base 0 (.d8 1)) = (.ds, 0x1010) ∧
    Enabled (.evex 128) paged ∧ Readable paged .ds 0x1010 2 false (activeLane paged 2) ∧
    QuietLanes paged 2 (regLanes paged (vvvvNum false 1)) (memLanes paged 0x1010 false)
      (activeLane paged 2) (mxRC paged.mxcsr) ∧
    operandAddress demo [] false false (dispFactor 4 true) 7 (.base 0 (.d8 1)) = (.ds, 0x1008) ∧
    Readable demo .ds 0x1008 4 true (activeLane demo 2) ∧
    QuietLanes demo 4 (regLanes demo (vvvvNum false 1)) (memLanes demo 0x1008 true)
      (activeLane demo 2) (mxRC demo.mxcsr) ∧
    operandAddress demo [] false false (dispFactor 8 false) 7 (.base 0 (.d8 1)) = (.ds, 0x1040) ∧
    Readable demo .ds 0x1040 8 false (activeLane demo 2) ∧
    QuietLanes demo 8 (regLanes demo (vvvvNum false 1)) (memLanes demo 0x1040 false)
      (activeLane demo 2) (mxRC demo.mxcsr) :=
  ⟨by decide +kernel, by unfold Enabled; decide +kernel,
    readable_of (by decide +kernel) rfl (by decide +kernel),
    by unfold QuietLanes QuietLane; decide +kernel, by decide +kernel,
    readable_of (by decide +kernel) rfl (by decide +kernel),
    by unfold QuietLanes QuietLane; decide +kernel, by decide +kernel,
    readable_of (by decide +kernel) rfl (by decide +kernel),
    by unfold QuietLanes QuietLane; decide +kernel⟩

theorem witness_EmbeddedRoundingCompletes : Enabled (.evex 512) inexact := by
  unfold Enabled; decide +kernel

/-- `k2` = 0xFC masks both lanes of a 128-bit form off. -/
theorem witness_AllMaskedOffCompletes :
    let s := { demo with k := demo.k.set 2 0xFC }
    Enabled (.evex 128) s ∧ s.params.suppressScope = .all ∧
    ∀ j, j < 2 → activeLane s 2 j = false := by
  unfold Enabled; decide +kernel

/-- A class that is not usable, and `CR0.TS` = 1. -/
theorem witness_EnableChecks :
    State.reset.usable .legacy = false ∧
    { demo with cr0 := demo.cr0 ||| 8 }.usable (.evex 512) = true ∧
    { demo with cr0 := demo.cr0 ||| 8 }.cr0TS = true ∧
    { demo with mode := .real }.usable .legacy = true ∧ { demo with mode := .real }.cr0TS = false := by
  decide +kernel

/-- `[rax+1]`; and through SS, an operand that is not canonical besides. -/
theorem witness_SubpdMisaligned :
    Enabled .legacy demo ∧
    (operandAddress demo [.opSize] false false 1 5 (.base 0 (.d8 1))).2.toNat % 16 ≠ 0 ∧
    (let s := { demo with x := demo.x.set 0 0x00007FFFFFFFFFF1 }
     let src := operandAddress s [.opSize, .seg .ss] false false 1 5 (.base 0 .none)
     Enabled .legacy s ∧ src.1 = .ss ∧ src.2.toNat % 16 ≠ 0 ∧
     ∃ a ∈ byteRange src.2.toNat 16, canonical s.params.law a = false) := by
  unfold Enabled; decide +kernel

/-- A 32-byte operand whose last byte alone is outside the canonical space, through DS and through SS. -/
theorem witness_OutsideOperandFaults :
    let s := { demo with x := demo.x.set 0 0x00007FFFFFFFFFE1 }
    let src := operandAddress s [] false false 1 4 (.base 0 .none)
    let srcSs := operandAddress s [.seg .ss] false false 1 5 (.base 0 .none)
    Enabled .vex s ∧ src.1 = .ds ∧ srcSs.1 = .ss ∧
    (∀ a ∈ wholeBytes src.2.toNat 4 false, a < spaceTop s.mode) ∧
    (∃ a ∈ wholeBytes src.2.toNat 4 false, outside s .read src.1 a = true) ∧
    (∃ a ∈ neededBytes srcSs.2.toNat 4 false (activeLane s 2), outside s .read srcSs.1 a = true) := by
  unfold Enabled; decide +kernel

/-- The first 16-byte aligned operand outside the space, for SUBPD, through DS and through SS. -/
theorem witness_OutsideOperandFaults_subpd :
    let s := { demo with x := demo.x.set 0 0x0000800000000000 }
    let src := operandAddress s [.opSize] false false 1 4 (.base 0 .none)
    let srcSs := operandAddress s [.opSize, .seg .ss] false false 1 5 (.base 0 .none)
    Enabled .legacy s ∧ src.1 = .ds ∧ srcSs.1 = .ss ∧ src.2.toNat % 16 = 0 ∧ srcSs.2.toNat % 16 = 0 ∧
    (∃ a ∈ wholeBytes src.2.toNat 2 false, outside s .read src.1 a = true) ∧
    (∃ a ∈ wholeBytes srcSs.2.toNat 2 false, outside s .read srcSs.1 a = true) := by
  unfold Enabled; decide +kernel

/-- Under pf_only a masked-off lane's byte outside the space counts: lane 1 of 2, which `k2` masks off. -/
theorem witness_OutsideOperandFaults_pfOnly :
    let s := { demo with
      x := demo.x.set 0 0x00007FFFFFFFFFF8
      params := { demo.params with suppressScope := .pfOnly } }
    let src := operandAddress s [] false false (dispFactor 2 false) 6 (.base 0 .none)
    Enabled (.evex 128) s ∧ (∀ a ∈ wholeBytes src.2.toNat 2 false, a < spaceTop s.mode) ∧
    (∀ a ∈ neededBytes src.2.toNat 2 false (activeLane s 2), outside s .read src.1 a = false) ∧
    (∃ a ∈ wholeBytes src.2.toNat 2 false, outside s .read src.1 a = true) := by
  unfold Enabled; decide +kernel

/-- Paging refuses the last byte that lane 3 needs. -/
theorem witness_NeededByteRefusedByPaging :
    let s := { demo with access := [⟨.read, [.ds], [0, 3], 0x101F, 0x101F,
        .page ⟨true, false, false, false, false⟩⟩] }
    let src := operandAddress s [] false false (dispFactor 4 false) 6 (.base 0 .none)
    Enabled (.evex 256) s ∧ (∀ a ∈ wholeBytes src.2.toNat 4 false, Inside s src.1 a) ∧
    (∃ a ∈ neededBytes src.2.toNat 4 false (activeLane s 2),
      (pageDenial s .read src.1 a).isSome = true) := by
  unfold Enabled Inside; decide +kernel

/-- Lane 1 of 2, which `k2` masks off, is not canonical, and paging refuses a byte of lane 0. -/
theorem witness_NeededByteRefusedByPaging_masked :
    let s := { demo with
      x := demo.x.set 0 0x00007FFFFFFFFFF8
      access := [⟨.read, [.ds], [0, 3], 0x00007FFFFFFFFFFF, 0x00007FFFFFFFFFFF,
        .page ⟨true, false, false, false, false⟩⟩] }
    let src := operandAddress s [] false false (dispFactor 2 false) 6 (.base 0 .none)
    Enabled (.evex 128) s ∧ s.params.suppressScope = .all ∧
    (∀ a ∈ neededBytes src.2.toNat 2 false (activeLane s 2), Inside s src.1 a) ∧
    (∃ a ∈ wholeBytes src.2.toNat 2 false, outside s .read src.1 a = true) ∧
    (∃ a ∈ neededBytes src.2.toNat 2 false (activeLane s 2),
      (pageDenial s .read src.1 a).isSome = true) := by
  unfold Enabled Inside; decide +kernel

/-- The same byte is the last of `[rax+0x10]` for SUBPD and of `[rax]` for a 256-bit VEX form. -/
theorem witness_NeededByteRefusedByPaging_whole :
    let s := { demo with access := [⟨.read, [.ds], [0, 3], 0x101F, 0x101F,
        .page ⟨true, false, false, false, false⟩⟩] }
    let src := operandAddress s [.opSize] false false 1 5 (.base 0 (.d8 0x10))
    let srcVex := operandAddress s [] false false 1 4 (.base 0 .none)
    Enabled .legacy s ∧ Enabled .vex s ∧ src.2.toNat % 16 = 0 ∧
    (∀ a ∈ wholeBytes src.2.toNat 2 false, Inside s src.1 a) ∧
    (∃ a ∈ wholeBytes src.2.toNat 2 false, (pageDenial s .read src.1 a).isSome = true) ∧
    (∀ a ∈ wholeBytes srcVex.2.toNat 4 false, Inside s srcVex.1 a) ∧
    (∃ a ∈ wholeBytes srcVex.2.toNat 4 false, (pageDenial s .read srcVex.1 a).isSome = true) := by
  unfold Enabled Inside; decide +kernel

/-- A step that faults, with flags set. -/
theorem witness_FaultsArePrecise :
    faultAfter inexact [0xC5, 0xF1, 0x5C, 0xC2] = some (19, 0x20) := test_step_raise

/-- Code that is fetchable: 16 bytes of one instruction, and an illegal EVEX encoding. -/
theorem witness_IllegalEncodingFaults :
    let s := demo.placeCode (List.replicate 13 0x66 ++ [0x0F, 0x5C, 0xC1])
    let s' := demo.placeCode [0x62, 0xF1, 0x75, 0x48, 0x5C, 0xC2]
    Fetchable s 16 ∧ decode s.mode (fetchWindow s) = .tooLong 16 ∧
    Fetchable s' 6 ∧ decode s'.mode (fetchWindow s') = .ud 6 := by
  unfold Fetchable; decide +kernel

/-- `demo` at this pc, with `VSUBPD xmm0, xmm1, xmm2` stored there and these denials. -/
def codeAt (pc : Quad) (access : List AccessRule) : State :=
  { demo with rip := pc, access := access }.placeCode [0xC5, 0xF1, 0x5C, 0xC2]

/-- A denial of one byte to instruction fetch. -/
def noFetch (a : Nat) (d : Deny) : AccessRule := ⟨.fetch, [.cs], [0], a, a, d⟩

/-- The last byte outside the canonical space; the last byte refused by paging; and both kinds at once. -/
theorem witness_FetchFaults :
    let page := Deny.page ⟨false, false, false, false, false⟩
    let bytes (s : State) := byteRange (fetchAddress s).toNat (decode s.mode (fetchWindow s)).consumed
    let beyond := codeAt 0x00007FFFFFFFFFFD []
    let refused := codeAt 0x2000 [noFetch 0x2003 page]
    let both := codeAt 0x00007FFFFFFFFFFD [noFetch 0x00007FFFFFFFFFFD page]
    (∀ s ∈ [beyond, refused, both], ∀ a ∈ bytes s, a < spaceTop s.mode) ∧
    (∃ a ∈ bytes beyond, outside beyond .fetch .cs a = true) ∧
    (∀ a ∈ bytes beyond, pageDenial beyond .fetch .cs a = none) ∧
    (∃ a ∈ bytes refused, (pageDenial refused .fetch .cs a).isSome = true) ∧
    (∀ a ∈ bytes refused, outside refused .fetch .cs a = false) ∧
    (∃ a ∈ bytes both, outside both .fetch .cs a = true) ∧
    (∃ a ∈ bytes both, (pageDenial both .fetch .cs a).isSome = true) := by decide +kernel

/-- SUBPS; SUBPD in real-address mode; code past the top of the space; code in device memory. -/
theorem witness_Refusals_fetch :
    let subps := demo.placeCode [0x0F, 0x5C, 0xC1]
    let real := { demo with mode := .real }.placeCode [0x66, 0x0F, 0x5C, 0xC1]
    let top := codeAt 0xFFFFFFFFFFFFFFFD []
    let device := codeAt 0x2000 [noFetch 0x2003 .device]
    decode subps.mode (fetchWindow subps) = .foreign .subps 2 ∧ Fetchable subps 2 ∧
    decode real.mode (fetchWindow real) = .otherMode .legacy 4 ∧ Fetchable real 4 ∧
    real.usable .legacy = true ∧ real.cr0TS = false ∧
    decode top.mode (fetchWindow top) = .instr (.vsubpdVex2x128 [] ⟨false, 1⟩ 0 (.reg 2)) ∧
    (∃ a ∈ byteRange (fetchAddress top).toNat 4, spaceTop top.mode ≤ a) ∧
    decode device.mode (fetchWindow device) = .instr (.vsubpdVex2x128 [] ⟨false, 1⟩ 0 (.reg 2)) ∧
    (∀ a ∈ byteRange (fetchAddress device).toNat 4, a < spaceTop device.mode ∧
      outside device .fetch .cs a = false ∧ pageDenial device .fetch .cs a = none) ∧
    (∃ a ∈ byteRange (fetchAddress device).toNat 4, isDevice device .fetch .cs a = true) := by
  unfold Fetchable; decide +kernel

/-- Operands in device memory, and past the top of the space by one byte, of VEX and EVEX forms. -/
theorem witness_Refusals_operand :
    let s := { demo with access := [⟨.read, [.ds], [0], 0x1010, 0x1010, .device⟩] }
    let top := { demo with x := demo.x.set 0 0xFFFFFFFFFFFFFFF1 }
    let topVex := operandAddress top [] false false 1 4 (.base 0 .none)
    Enabled .legacy s ∧ Enabled .vex s ∧ Enabled (.evex 128) s ∧
    operandAddress s [.opSize] false false 1 5 (.base 0 (.d8 0x10)) = (.ds, 0x1010) ∧
    operandAddress s [] false false 1 5 (.base 0 (.d8 0x10)) = (.ds, 0x1010) ∧
    operandAddress s [] false false (dispFactor 2 false) 7 (.base 0 (.d8 1)) = (.ds, 0x1010) ∧
    (∀ a ∈ wholeBytes 0x1010 2 false, Inside s .ds a ∧ pageDenial s .read .ds a = none) ∧
    (∃ a ∈ neededBytes 0x1010 2 false (activeLane s 2), isDevice s .read .ds a = true) ∧
    (∃ a ∈ wholeBytes 0x1010 2 false, isDevice s .read .ds a = true) ∧
    Enabled .vex top ∧ Enabled (.evex 128) top ∧
    (∃ a ∈ wholeBytes topVex.2.toNat 2 false, spaceTop top.mode ≤ a) ∧
    (∃ a ∈ neededBytes topVex.2.toNat 2 false (activeLane top 0), spaceTop top.mode ≤ a) := by
  unfold Enabled Inside; decide +kernel

theorem witness_StepRunsDecoded :
    let s := demo.placeCode [0xC5, 0xF1, 0x5C, 0xC2]
    decode s.mode (fetchWindow s) = .instr (.vsubpdVex2x128 [] ⟨false, 1⟩ 0 (.reg 2)) ∧ Fetchable s 4 := by
  unfold Fetchable; decide +kernel

/-- An instruction of the greatest length, 15 bytes. -/
theorem witness_PlacedInstructionRuns :
    demo.mem.wf = true ∧
    wellFormed demo.mode (.subpd (List.replicate 12 .opSize) none 0 (.reg 1)) = true ∧
    Fetchable demo (Instr.subpd (List.replicate 12 .opSize) none 0 (.reg 1)).length := by
  unfold Fetchable; decide +kernel

/-- A step that completes, from a state that meets the invariant. -/
theorem witness_StepFrame : (ctlAfter demo [0x66, 0x0F, 0x5C, 0xCA]).isSome = true := by decide +kernel
theorem witness_InvKeptByStep : Inv (demo.placeCode [0x66, 0x0F, 0x5C, 0xCA]) :=
  ⟨by decide +kernel, by decide +kernel, by decide +kernel, by decide +kernel, fun h => absurd rfl h⟩
/-- A run of one step that ends, and one that stops in a fault. -/
theorem witness_RunKeepsMemory :
    (runProgram 0xFFF4 3 (demo.placeCode [0x66, 0x0F, 0x5C, 0xCA])).clean = true ∧
    (runProgram 0xFFF4 3 (inexact.placeCode [0xC5, 0xF1, 0x5C, 0xC2])).state?.isSome = true ∧
    (runProgram 0xFFF4 3 (inexact.placeCode [0xC5, 0xF1, 0x5C, 0xC2])).clean = false := by decide +kernel

/-- Well-formed terms of each class, the 32-bit mode among them, at lengths 4, 6 and 15. -/
theorem witness_DecodeEncode :
    wellFormed .long64 (.subpd [.droppedRex 15, .opSize] (some ⟨true, true, true, true⟩) 7
      (.sibNoBase 3 4 0x80000000)) = true ∧
    wellFormed .prot32 (.vsubpdVex2x256 [.seg .es] ⟨false, 7⟩ 7 (.disp 5)) = true ∧
    wellFormed .long64 (.vsubpdEvex512er [] ⟨true, true, true, true, 15, true, true, 7⟩ .rz 7 7) = true := by
  decide
theorem witness_DecodeSound : decode .prot32 [0xC5, 0xF5, 0x5C, 0xC2, 0x90] =
    .instr (.vsubpdVex2x256 [] ⟨false, 1⟩ 0 (.reg 2)) := by decide
theorem witness_LengthBounds :
    wellFormed .long64 (.vsubpdVex2x128 [] ⟨false, 1⟩ 0 (.reg 2)) = true ∧
    (Instr.vsubpdVex2x128 [] ⟨false, 1⟩ 0 (.reg 2)).length = 4 ∧
    wellFormed .long64 (.subpd (List.replicate 12 .opSize) none 0 (.reg 1)) = true ∧
    (Instr.subpd (List.replicate 12 .opSize) none 0 (.reg 1)).length = 15 := by decide
/-- LOCK before SUBPD, `66` before an EVEX form, a VEX form with a prefix; a form of 15 bytes. -/
theorem witness_ForbiddenPrefixes :
    wellFormed .long64 (.vsubpdEvex512er [] ⟨false, false, false, false, 1, false, false, 0⟩ .rn 0 2) = true ∧
    (Instr.vsubpdEvex512er [] ⟨false, false, false, false, 1, false, false, 0⟩ .rn 0 2).cls ≠ .legacy ∧
    Prefix.opSize.forbiddenBeforeVex = true ∧
    wellFormed .long64 (.subpd (List.replicate 12 .opSize) none 0 (.reg 1)) = true ∧
    (Instr.subpd (List.replicate 12 .opSize) none 0 (.reg 1)).length = 15 ∧
    decode .long64 (Prefix.lock.byte :: encode (.subpd (List.replicate 12 .opSize) none 0 (.reg 1))) =
      .tooLong 16 ∧
    wellFormed .long64 (.vsubpdVex2x128 [.seg .fs] ⟨false, 1⟩ 0 (.reg 2)) = true ∧
    (Instr.vsubpdVex2x128 [.seg .fs] ⟨false, 1⟩ 0 (.reg 2)).cls ≠ .legacy := by decide
/-- `64 48 C5 ..`, `64 66 C5 ..` and `66 64 C5 ..`: a forbidden byte after an allowed prefix and before one. -/
theorem test_decode_forbidden_between :
    decode .long64 [0x64, 0x48, 0xC5, 0xF1, 0x5C, 0xC2] = .ud 6 ∧
    decode .long64 [0x64, 0x66, 0xC5, 0xF1, 0x5C, 0xC2] = .ud 6 ∧
    decode .long64 [0x66, 0x64, 0xC5, 0xF1, 0x5C, 0xC2] = .ud 6 := by decide
/-- Each kind of illegal EVEX payload. -/
theorem witness_EvexIllegal :
    (0xF5#8).extractLsb' 2 2 ≠ 0#2 ∧ (0xF1#8).getLsbD 2 = false ∧ (0xF0#8).extractLsb' 0 2 = 0#2 ∧
    (0xF1#8).extractLsb' 0 2 = 1#2 ∧ (0x75#8).extractLsb' 0 2 = 1#2 ∧ (0x75#8).getLsbD 7 = false ∧
    (0xC8#8).getLsbD 7 = true ∧ (0xC8#8).extractLsb' 0 3 = 0#3 ∧
    (0x68#8).extractLsb' 5 2 = 3#2 ∧ (0x68#8).getLsbD 4 = false ∧ RmOperand.ok (.reg 2) = true ∧
    RmOperand.ok (.base 0 .none) = true ∧ RmOperand.isMem (.base 0 .none) = true := by decide
theorem witness_NeighboursRefused :
    (0xF0#8).extractLsb' 0 2 ≠ 1#2 ∧ (0xE1#8).extractLsb' 0 5 = 1#5 ∧ (0x72#8).extractLsb' 0 2 ≠ 1#2 ∧
    (0xF1#8).extractLsb' 0 4 = 1#4 ∧ (0x74#8).getLsbD 2 = true ∧ (0x74#8).extractLsb' 0 2 ≠ 1#2 := by
  decide
/-- A window of the least length, and the window that a step fetches where memory lists twenty prefixes. -/
theorem witness_WindowSuffices :
    decodeWindow ≤ (List.replicate 26 (0x66 : Byte)).length ∧
    (let s := demo.placeCode (List.replicate 20 0x66)
     s.mem.length + decodeWindow ≤ 48 ∧ decode s.mode (fetchWindow s) = .tooLong 21) := by decide +kernel
theorem witness_RipRelativeAddress : demo.mode = .long64 := rfl

/-- Two encodings of one VEX form with a register source, the first of which completes. -/
theorem witness_VexEncodingsAgree :
    VexForm (.vsubpdVex2x128 [] ⟨false, 1⟩ 0 (.reg 2)) 2 [] (num5 false false 0) (vvvvNum false 1) false
      false (.reg 2) ∧
    VexForm (.vsubpdVex3x128 [.addrSize] ⟨false, true, false, true, 1⟩ 0 (.reg 2)) 2 [.addrSize]
      (num5 false false 0) (vvvvNum false 1) true false (.reg 2) ∧
    ctlAfter demo [0xC5, 0xF1, 0x5C, 0xC2] = some (0x1F80, 0xFFF4) :=
  ⟨.vex2x128 .., .vex3x128 .., by decide +kernel⟩
/-- And with memory at one address, by the same operand bytes: `X` = 1 and `W` = 1 without a SIB byte, and a
SIB byte with `X` = 0. -/
theorem witness_VexEncodingsAgree_memory :
    VexForm (.vsubpdVex2x128 [] ⟨false, 1⟩ 0 (.base 0 (.d8 1))) 2 [] (num5 false false 0) (vvvvNum false 1)
      false false (.base 0 (.d8 1)) ∧
    VexForm (.vsubpdVex3x128 [.seg .ds] ⟨false, true, false, true, 1⟩ 0 (.base 0 (.d8 1))) 2 [.seg .ds]
      (num5 false false 0) (vvvvNum false 1) true false (.base 0 (.d8 1)) ∧
    operandAddress demo [] false false 1 5 (.base 0 (.d8 1)) =
      operandAddress demo [.seg .ds] true false 1 7 (.base 0 (.d8 1)) ∧
    segOverride [.seg .fs, .addrSize] = segOverride [.addrSize, .seg .fs] ∧
    ctlAfter demo [0xC5, 0xF1, 0x5C, 0x40, 0x01] = some (0x1F80, 0xFFF5) ∧
    ctlAfter demo [0xC5, 0xF1, 0x5C, 0x04, 0x20] = some (0x1F80, 0xFFF5) :=
  ⟨.vex2x128 .., .vex3x128 .., by decide +kernel, by decide, by decide +kernel, by decide +kernel⟩
/-- The unmasked EVEX form over the same registers completes too. -/
theorem witness_EvexAgreesWithVex :
    EvexForm (.vsubpdEvex128 [] ⟨false, false, false, false, 1, false, false, 0⟩ false 0 (.reg 2)) 2 []
      ⟨false, false, false, false, 1, false, false, 0⟩ false 0 (.reg 2) ∧
    VexForm (.vsubpdVex2x128 [] ⟨false, 1⟩ 0 (.reg 2)) 2 [] (num5 false false 0) (vvvvNum false 1) false
      false (.reg 2) ∧
    num5 false false 2 = num5 false false 2 ∧ Enabled .vex demo ∧
    ctlAfter demo [0x62, 0xF1, 0xF5, 0x08, 0x5C, 0xC2] = some (0x1F80, 0xFFF6) :=
  ⟨.evex128 .., .vex2x128 .., rfl, by unfold Enabled; decide +kernel, by decide +kernel⟩
/-- Memory at one address: `[rax+0x10]` by a scaled and by a plain 8-bit displacement. -/
theorem witness_EvexAgreesWithVex_memory :
    EvexForm (.vsubpdEvex128 [] ⟨false, false, false, false, 1, false, false, 0⟩ false 0 (.base 0 (.d8 1))) 2 []
      ⟨false, false, false, false, 1, false, false, 0⟩ false 0 (.base 0 (.d8 1)) ∧
    VexForm (.vsubpdVex2x128 [] ⟨false, 1⟩ 0 (.base 0 (.d8 0x10))) 2 [] (num5 false false 0) (vvvvNum false 1)
      false false (.base 0 (.d8 0x10)) ∧
    operandAddress demo [] false false (dispFactor 2 false) 7 (.base 0 (.d8 1)) =
      operandAddress demo [] false false 1 5 (.base 0 (.d8 0x10)) ∧
    ctlAfter demo [0x62, 0xF1, 0xF5, 0x08, 0x5C, 0x40, 0x01] = some (0x1F80, 0xFFF7) :=
  ⟨.evex128 .., .vex2x128 .., by decide +kernel, by decide +kernel⟩
/-- `vvvv` = 1 names the destination of `SUBPD xmm1, xmm2`. -/
theorem witness_SubpdAgreesWithVex :
    VexForm (.vsubpdVex2x128 [] ⟨false, 1⟩ 1 (.reg 2)) 2 [] (num5 false ((none : Option Rex).any Rex.r) 1)
      (num5 false ((none : Option Rex).any Rex.r) 1) false false (.reg 2) ∧
    Enabled .vex demo ∧ ctlAfter demo [0x66, 0x0F, 0x5C, 0xCA] = some (0x1F80, 0xFFF4) :=
  ⟨.vex2x128 [] ⟨false, 1⟩ 1 (.reg 2), by unfold Enabled; decide +kernel, by decide +kernel⟩
/-- The same over memory at `[rax+0x10]`. -/
theorem witness_SubpdAgreesWithVex_memory :
    VexForm (.vsubpdVex2x128 [] ⟨false, 1⟩ 1 (.base 0 (.d8 0x10))) 2 []
      (num5 false ((none : Option Rex).any Rex.r) 1) (num5 false ((none : Option Rex).any Rex.r) 1) false
      false (.base 0 (.d8 0x10)) ∧
    operandAddress demo [.opSize] false false 1 5 (.base 0 (.d8 0x10)) =
      operandAddress demo [] false false 1 5 (.base 0 (.d8 0x10)) ∧
    ctlAfter demo [0x66, 0x0F, 0x5C, 0x48, 0x10] = some (0x1F80, 0xFFF5) :=
  ⟨.vex2x128 [] ⟨false, 1⟩ 1 (.base 0 (.d8 0x10)), by decide +kernel, by decide +kernel⟩
/-- Both modes, `67` and none; the base RSP, which is through SS, and R12, which is not; a segment prefix
first, as in `64 66 0F 5C 10`, and last. -/
theorem witness_EffectiveAddress :
    demo.mode = .long64 ∧ { demo with mode := .prot32 }.mode = .prot32 ∧
    (∀ sg : Seg, Prefix.seg sg ∉ [Prefix.opSize, .addrSize]) ∧ (∀ sg : Seg, Prefix.seg sg ∉ [Prefix.opSize]) ∧
    [Prefix.seg .fs, .opSize] = [] ++ .seg .fs :: [.opSize] ∧
    [Prefix.opSize, .seg .fs] = [.opSize] ++ .seg .fs :: [] ∧
    (∀ sg : Seg, Prefix.seg sg ∉ [] ++ [Prefix.opSize]) ∧
    operandAddress { demo with seg := { demo.seg with fs := 0x200 } } [.seg .fs, .opSize] false false 1 5
      (.base 0 .none) = (.fs, 0x1200) ∧
    (operandAddress demo [] false false 1 5 (.sib ⟨0, 4, 4⟩ .none)).1 = .ss ∧
    (operandAddress demo [] false true 1 5 (.sib ⟨0, 4, 4⟩ .none)).1 = .ds :=
  ⟨rfl, rfl, by simp, by simp, rfl, rfl, by simp, by decide +kernel, by decide +kernel, by decide +kernel⟩
/-- Opmasks that agree below bit 2 only. -/
theorem witness_OpmaskHighBitsIgnored :
    (∀ j, j < 2 → activeLane { demo with k := demo.k.set 2 1 } 2 j = activeLane demo 2 j) ∧
    (ctlAfter demo [0x62, 0xF1, 0xF5, 0x0A, 0x5C, 0x40, 0x01]).isSome = true := by decide +kernel
/-- Carry, zero and sign of RFLAGS changed, AC not. -/
theorem witness_FlagsNotRead :
    (0xC3#64 : Quad).getLsbD 18 = demo.rflags.getLsbD 18 ∧
    (ctlAfter demo [0x66, 0x0F, 0x5C, 0xCA]).isSome = true := by decide +kernel
/-- The greatest and the least displacement, at both ends of the lane counts. -/
theorem witness_CompressedDisplacement :
    ∀ n ∈ [2, 8], ∀ d ∈ [0x7F#8, 0x80#8], (operandAddress demo [] false false (dispFactor n false) 7
      (.base 0 (.d8 d))).2 = 0x1000 + d.signExtend 64 * BitVec.ofNat 64 (8 * n) := by decide +kernel

end Sys2Proof.Tests
end

