-- ==== Sys2Proof/Proofs/Invariant.lean ====
section
/-! SUPPORT. The invariant of a state: each part of it after a commit, and that every step keeps it. -/

namespace Sys2Proof.Machine

open Sys2Proof

/-- The flags of MXCSR are its low six bits, so setting some leaves bits 31:16 alone (R26). -/
theorem orFlags_extract_reserved (m : BitVec 32) (f : FlagSet) :
    (orFlags m f).extractLsb' 16 16 = m.extractLsb' 16 16 := by
  apply BitVec.eq_of_getLsbD_eq
  intro i hi
  have hflag : f.word.getLsbD (16 + i) = false := BitVec.getLsbD_of_ge _ _ (by omega)
  simp [orFlags, hflag]

/-- The register file stores no bit at or above `MAXVL` of packed lanes, since a commit drops the lanes
there (R21, R38). -/
theorem packLanes_take_shift_maxvl (p : Params) (qs : List Quad) :
    packLanes (qs.take (p.maxvl / 64)) >>> p.maxvl = 0 := by
  apply shift_maxvl_eq_zero
  intro j hj habove
  rw [lane_packLanes_take qs _ j hj, if_neg (mt (lt_div_maxvl p j).mp habove)]

/-- Outside 64-bit mode the pc after an instruction is truncated to 32 bits (R30). -/
theorem nextPc_lt_of_not_long64 {s : State} (len : Nat) (h : s.mode ≠ .long64) :
    (s.nextPc len).toNat < 2 ^ 32 := by
  rw [State.nextPc, if_neg h]
  exact (BitVec.toNat_setWidth_of_le (by decide)).trans_lt (BitVec.isLt _)

/-- A commit keeps the invariant, whatever the destination, the lanes and the length, if the MXCSR it writes
has the reserved bits zero. -/
theorem commit_keeps_inv {s : State} (hs : Inv s) (d : BitVec 5) (qs : List Quad) (m : BitVec 32)
    (len : Nat) (hm : m.extractLsb' 16 16 = 0#16) : Inv (commit s d qs m len) where
  memory := hs.memory
  vectors n := by
    by_cases hn : n = s.vreg d
    · rw [hn, readV_commit_same, commit_params]
      exact packLanes_take_shift_maxvl s.params qs
    · rw [readV_commit_other s d n qs m len hn, commit_params]
      exact hs.vectors n
  opmasks := hs.opmasks
  mxcsrReserved := hm
  eip := nextPc_lt_of_not_long64 (s := s) len

/-- Settles O38: a step that completes is one commit with flags OR-ed into MXCSR. -/
theorem invKeptByStep : Obligations.InvKeptByStep := by
  intro s t hs hstep
  obtain ⟨i, -, hexec⟩ := step_eq_next hstep
  obtain ⟨qs, f, rfl⟩ := exec_eq_next hexec
  have hreserved : (orFlags s.mxcsr f).extractLsb' 16 16 = 0#16 :=
    (orFlags_extract_reserved s.mxcsr f).trans hs.mxcsrReserved
  exact commit_keeps_inv hs i.dest qs _ i.length hreserved

end Sys2Proof.Machine
end

