-- ==== Sys2Proof/Proofs/Checks.lean ====
section
/-! SUPPORT. What the checks of a fetch and of a data read answer, by what the bytes are, and how a step or a
meaning ends when one of them stops it. -/

namespace Sys2Proof.Machine

open Sys2Proof

/-! ### Fetching -/

theorem fetchCheck_of_past_top {s : State} {n : Nat}
    (h : ∃ a ∈ byteRange (fetchAddress s).toNat n, spaceTop s.mode ≤ a) :
    fetchCheck s n = .error (.refuse .addressWrap) :=
  if_pos (by simpa using h)

/-- Bytes inside the space and CS that paging does not refuse: only their being device memory stops the
fetch. -/
theorem fetchCheck_of_accessible {s : State} {n : Nat}
    (h : ∀ a ∈ byteRange (fetchAddress s).toNat n, a < spaceTop s.mode ∧
      outside s .fetch .cs a = false ∧ pageDenial s .fetch .cs a = none) :
    fetchCheck s n =
      if (byteRange (fetchAddress s).toNat n).any (isDevice s .fetch .cs) then
        .error (.refuse .deviceMemory) else .ok () := by
  have htop : ¬((byteRange (fetchAddress s).toNat n).any fun a => decide (spaceTop s.mode ≤ a)) = true := by
    simpa using fun a ha => (h a ha).1
  have hout : (byteRange (fetchAddress s).toNat n).any (outside s .fetch .cs) = false := by
    simpa using fun a ha => (h a ha).2.1
  have hpage : pageFault? s .fetch .cs (byteRange (fetchAddress s).toNat n) = none :=
    pageFault?_eq_none.mpr fun a ha => (h a ha).2.2
  simp only [fetchCheck, if_neg htop, hout, hpage]

theorem fetchCheck_of_device {s : State} {n : Nat}
    (h : ∀ a ∈ byteRange (fetchAddress s).toNat n, a < spaceTop s.mode ∧
      outside s .fetch .cs a = false ∧ pageDenial s .fetch .cs a = none)
    (hdev : ∃ a ∈ byteRange (fetchAddress s).toNat n, isDevice s .fetch .cs a = true) :
    fetchCheck s n = .error (.refuse .deviceMemory) := by
  rw [fetchCheck_of_accessible h, if_pos (List.any_eq_true.mpr hdev)]

theorem fetchCheck_of_fetchable {s : State} {n : Nat} (h : Fetchable s n) : fetchCheck s n = .ok () := by
  have hacc : ∀ a ∈ byteRange (fetchAddress s).toNat n, a < spaceTop s.mode ∧
      outside s .fetch .cs a = false ∧ pageDenial s .fetch .cs a = none := fun a ha =>
    have ⟨htop, hout, hpage, _⟩ := h a ha
    ⟨htop, hout, hpage⟩
  have hdev : ¬(byteRange (fetchAddress s).toNat n).any (isDevice s .fetch .cs) = true := by
    simpa using fun a ha => (h a ha).2.2.2
  rw [fetchCheck_of_accessible hacc, if_neg hdev]

/-- A step whose bytes can be fetched is what follows decoding. -/
theorem step_of_fetchable {s : State} {d : Decoded} (hd : decode s.mode (fetchWindow s) = d)
    (h : Fetchable s d.consumed) : step s = runDecoded s d := by
  simp only [step, stepOnce, hd, fetchCheck_of_fetchable h]

/-- A step that the fetch checks stop ends there, whatever the bytes are. -/
theorem step_of_fetchCheck_error {s : State} {st : Stop}
    (h : fetchCheck s (decode s.mode (fetchWindow s)).consumed = .error st) : step s = st.outcome := by
  simp only [step, stepOnce, h]

/-! ### Bytes of an operand -/

/-- The bytes of an operand that are checked for `#SS(0)` and `#GP(0)` (R69, R195). -/
def checkedBytes (s : State) (a lanes : Nat) (bcst : Bool) (active : Nat → Bool) : List Nat :=
  if s.params.suppressScope = .pfOnly then wholeBytes a lanes bcst else neededBytes a lanes bcst active

@[simp] theorem mem_byteRange {a n c : Nat} : c ∈ byteRange a n ↔ a ≤ c ∧ c < a + n := by
  simp only [byteRange, List.mem_map, List.mem_range]
  constructor
  · rintro ⟨k, hk, rfl⟩
    omega
  · rintro ⟨hle, hlt⟩
    exact ⟨c - a, by omega, by omega⟩

/-- The needed bytes of an operand without broadcast: those of its active lanes (R69). -/
theorem mem_neededBytes_lanes {a lanes c : Nat} {active : Nat → Bool} :
    c ∈ neededBytes a lanes false active ↔
      ∃ j < lanes, active j = true ∧ a + 8 * j ≤ c ∧ c < a + 8 * j + 8 := by
  simp [neededBytes, and_assoc]

theorem mem_wholeBytes_of_mem_neededBytes {a lanes c : Nat} {bcst : Bool} {active : Nat → Bool}
    (h : c ∈ neededBytes a lanes bcst active) : c ∈ wholeBytes a lanes bcst := by
  cases bcst with
  | true =>
    simp only [neededBytes, if_true] at h
    split at h
    · exact h
    · exact absurd h List.not_mem_nil
  | false =>
    obtain ⟨j, hj, -, hle, hlt⟩ := mem_neededBytes_lanes.mp h
    simp only [wholeBytes, mem_byteRange, Bool.false_eq_true, if_false]
    omega

/-- With no lane masked off and no broadcast the whole operand is needed: a byte lies in lane
`(c - a) / 8`. -/
theorem mem_neededBytes_allLanes {a lanes c : Nat} :
    c ∈ neededBytes a lanes false (fun _ => true) ↔ c ∈ wholeBytes a lanes false := by
  refine ⟨mem_wholeBytes_of_mem_neededBytes, fun h => ?_⟩
  simp only [wholeBytes, mem_byteRange, Bool.false_eq_true, if_false] at h
  exact mem_neededBytes_lanes.mpr ⟨(c - a) / 8, by omega, rfl, by omega, by omega⟩

theorem mem_checkedBytes_of_mem_neededBytes {s : State} {a lanes c : Nat} {bcst : Bool}
    {active : Nat → Bool} (h : c ∈ neededBytes a lanes bcst active) :
    c ∈ checkedBytes s a lanes bcst active := by
  unfold checkedBytes
  split
  · exact mem_wholeBytes_of_mem_neededBytes h
  · exact h

/-- With no lane masked off and no broadcast the whole operand is checked, under either
`SUPPRESS_SCOPE`. -/
theorem mem_checkedBytes_allLanes {s : State} {a lanes c : Nat} :
    c ∈ checkedBytes s a lanes false (fun _ => true) ↔ c ∈ wholeBytes a lanes false := by
  unfold checkedBytes
  split
  · exact Iff.rfl
  · exact mem_neededBytes_allLanes

/-! ### Data reads -/

theorem dataCheck_of_past_top {s : State} {sg : Seg} {gp needed : List Nat}
    (h : ∃ a ∈ gp, spaceTop s.mode ≤ a) : dataCheck s sg gp needed = .error (.refuse .addressWrap) := by
  obtain ⟨a, ha, htop⟩ := h
  exact if_pos (List.any_eq_true.mpr ⟨a, List.mem_append_left _ ha, decide_eq_true htop⟩)

theorem dataCheck_of_device {s : State} {sg : Seg} {gp needed : List Nat}
    (hgp : ∀ a ∈ gp, Inside s sg a) (hsub : ∀ a ∈ needed, a ∈ gp)
    (hpage : ∀ a ∈ needed, pageDenial s .read sg a = none)
    (hdev : ∃ a ∈ needed, isDevice s .read sg a = true) :
    dataCheck s sg gp needed = .error (.refuse .deviceMemory) := by
  have htop : ¬((gp ++ needed).any fun a => decide (spaceTop s.mode ≤ a)) = true := by
    simp only [List.any_eq_true, List.mem_append, decide_eq_true_eq, not_exists, not_and, not_le]
    exact fun a ha => (hgp a (ha.elim id (hsub a))).1
  have hout : ¬gp.any (outside s .read sg) = true := by
    simpa using fun a ha => (hgp a ha).2
  simp only [dataCheck, if_neg htop, if_neg hout, pageFault?_eq_none.mpr hpage,
    if_pos (List.any_eq_true.mpr hdev)]

/-- A read that the data check of its checked and needed bytes stops ends there. -/
theorem readLanes_of_dataCheck_error {s : State} {sg : Seg} {la : Quad} {lanes : Nat} {bcst : Bool}
    {active : Nat → Bool} {st : Stop}
    (h : dataCheck s sg (checkedBytes s la.toNat lanes bcst active)
      (neededBytes la.toNat lanes bcst active) = .error st) :
    readLanes s sg la lanes bcst active = .error st := by
  unfold checkedBytes at h
  cases hscope : s.params.suppressScope with
  | all =>
    rw [hscope, if_neg (by decide)] at h
    simp only [readLanes, hscope, h]
  | pfOnly =>
    rw [hscope, if_pos rfl] at h
    simp only [readLanes, hscope, h]

theorem readLanes_of_past_top {s : State} {sg : Seg} {la : Quad} {lanes : Nat} {bcst : Bool}
    {active : Nat → Bool}
    (h : ∃ a ∈ checkedBytes s la.toNat lanes bcst active, spaceTop s.mode ≤ a) :
    readLanes s sg la lanes bcst active = .error (.refuse .addressWrap) :=
  readLanes_of_dataCheck_error (dataCheck_of_past_top h)

theorem readLanes_of_device {s : State} {sg : Seg} {la : Quad} {lanes : Nat} {bcst : Bool}
    {active : Nat → Bool}
    (hinside : ∀ a ∈ checkedBytes s la.toNat lanes bcst active, Inside s sg a)
    (hpage : ∀ a ∈ neededBytes la.toNat lanes bcst active, pageDenial s .read sg a = none)
    (hdev : ∃ a ∈ neededBytes la.toNat lanes bcst active, isDevice s .read sg a = true) :
    readLanes s sg la lanes bcst active = .error (.refuse .deviceMemory) :=
  readLanes_of_dataCheck_error (dataCheck_of_device hinside
    (fun _ => mem_checkedBytes_of_mem_neededBytes) hpage hdev)

/-- `readLanes_of_past_top` for an operand that is read whole. -/
theorem readLanes_allLanes_of_past_top {s : State} {sg : Seg} {la : Quad} {lanes : Nat}
    (h : ∃ a ∈ wholeBytes la.toNat lanes false, spaceTop s.mode ≤ a) :
    readLanes s sg la lanes false (fun _ => true) = .error (.refuse .addressWrap) :=
  readLanes_of_past_top (by simpa only [mem_checkedBytes_allLanes] using h)

/-- `readLanes_of_device` for an operand that is read whole. -/
theorem readLanes_allLanes_of_device {s : State} {sg : Seg} {la : Quad} {lanes : Nat}
    (hacc : ∀ a ∈ wholeBytes la.toNat lanes false, Inside s sg a ∧ pageDenial s .read sg a = none)
    (hdev : ∃ a ∈ wholeBytes la.toNat lanes false, isDevice s .read sg a = true) :
    readLanes s sg la lanes false (fun _ => true) = .error (.refuse .deviceMemory) :=
  readLanes_of_device (fun a ha => (hacc a (mem_checkedBytes_allLanes.mp ha)).1)
    (fun a ha => (hacc a (mem_neededBytes_allLanes.mp ha)).2)
    (by simpa only [mem_neededBytes_allLanes] using hdev)

/-! ### An enabled form whose source is not read -/

theorem exec_subpd_of_source_error {pre : List Prefix} {rex : Option Rex} {reg : BitVec 3}
    {rm : RmOperand} {s : State} {st : Stop} (he : Enabled .legacy s)
    (h : legacySource s pre (rex.any Rex.x) (rex.any Rex.b) (Instr.subpd pre rex reg rm).length rm =
      .error st) :
    exec (.subpd pre rex reg rm) s = st.outcome := by
  simp only [exec, execSubpd, enableCheck_eq_ok.mpr he, h, bind, Except.bind, outcome]

theorem exec_vexForm_of_source_error {i : Instr} {n : Nat} {pre : List Prefix} {d s1 : BitVec 5}
    {x b : Bool} {rm : RmOperand} {s : State} {st : Stop} (hf : VexForm i n pre d s1 x b rm)
    (he : Enabled .vex s) (h : vexSource s pre x b n i.length rm = .error st) :
    exec i s = st.outcome := by
  have hsub : vexSub n pre d s1 x b i.length rm s = .error st :=
    bind_eq_error.mpr (.inr ⟨(), enableCheck_eq_ok.mpr he, bind_eq_error.mpr (.inl h)⟩)
  rw [exec_vexForm hf, hsub, outcome]

theorem exec_evexForm_of_source_error {i : Instr} {n : Nat} {pre : List Prefix} {e : Evex}
    {bcst : Bool} {reg : BitVec 3} {rm : RmOperand} {s : State} {st : Stop}
    (hf : EvexForm i n pre e bcst reg rm) (he : Enabled i.cls s)
    (h : evexSource s pre e.x e.b n bcst (activeLane s e.aaa) i.length rm = .error st) :
    exec i s = st.outcome := by
  obtain ⟨hexec, hcls⟩ := exec_evexForm hf s
  rw [hcls] at he
  have hsub : evexSub n pre e bcst none reg i.length rm s = .error st :=
    bind_eq_error.mpr (.inr ⟨(), enableCheck_eq_ok.mpr he, bind_eq_error.mpr (.inl h)⟩)
  rw [hexec, hsub, outcome]

end Sys2Proof.Machine
end

