-- ==== Sys2Proof/Proofs/Refusals.lean ====
section
/-! SUPPORT. What a step and what the meanings of the memory forms refuse. -/

namespace Sys2Proof.Machine

open Sys2Proof

/-! ### A step -/

theorem step_of_foreign {s : State} {why : Foreign} {n : Nat}
    (hd : decode s.mode (fetchWindow s) = .foreign why n) (h : Fetchable s n) :
    step s = .refused (.notThisInstruction why) :=
  step_of_fetchable hd h

/-- SUBPD in a mode without operands, once enabled: refused by the enable checks in those modes, and else
after them (D28). -/
theorem step_of_otherMode_legacy {s : State} {n : Nat}
    (hd : decode s.mode (fetchWindow s) = .otherMode .legacy n) (h : Fetchable s n)
    (husable : s.usable .legacy = true) (hts : s.cr0TS = false) :
    step s = .refused .modeNotDescribed := by
  rw [step_of_fetchable hd h]
  rcases enableCheck_cases .legacy s with ⟨hno, -⟩ | ⟨-, hset, -⟩ | ⟨-, -, -, he⟩ | ⟨-, he⟩
  · exact absurd husable (by simp [hno])
  · exact absurd hset (by simp [hts])
  · simp only [runDecoded, he, Stop.outcome]
  · simp only [runDecoded, he]

/-! ### The forms with a memory operand -/

/-- An aligned SUBPD operand that is accessible but not all ordinary memory (R71). -/
theorem exec_subpd_of_device {pre : List Prefix} {rex : Option Rex} {reg : BitVec 3} {rm : RmOperand}
    {s : State} {sg : Seg} {la : Quad} (hm : rm.isMem = true) (he : Enabled .legacy s)
    (hsrc : operandAddress s pre (rex.any Rex.x) (rex.any Rex.b) 1 (Instr.subpd pre rex reg rm).length rm =
      (sg, la))
    (halign : la.toNat % 16 = 0)
    (hacc : ∀ a ∈ wholeBytes la.toNat 2 false, Inside s sg a ∧ pageDenial s .read sg a = none)
    (hdev : ∃ a ∈ wholeBytes la.toNat 2 false, isDevice s .read sg a = true) :
    exec (.subpd pre rex reg rm) s = .refused .deviceMemory := by
  have hread : legacySource s pre (rex.any Rex.x) (rex.any Rex.b) (Instr.subpd pre rex reg rm).length rm =
      .error (.refuse .deviceMemory) := by
    rw [legacySource_mem hm, hsrc, legacyAlignment_of_aligned halign]
    exact readLanes_allLanes_of_device hacc hdev
  exact exec_subpd_of_source_error he hread

section Vex

variable {i : Instr} {n : Nat} {pre : List Prefix} {d s1 : BitVec 5} {x b : Bool} {rm : RmOperand}
  {s : State} {sg : Seg} {la : Quad}

theorem exec_vexForm_of_past_top (hf : VexForm i n pre d s1 x b rm) (hm : rm.isMem = true)
    (he : Enabled .vex s) (hsrc : operandAddress s pre x b 1 i.length rm = (sg, la))
    (h : ∃ a ∈ wholeBytes la.toNat n false, spaceTop s.mode ≤ a) :
    exec i s = .refused .addressWrap := by
  have hread : vexSource s pre x b n i.length rm = .error (.refuse .addressWrap) := by
    rw [vexSource_mem hm, hsrc]
    exact readLanes_allLanes_of_past_top h
  exact exec_vexForm_of_source_error hf he hread

theorem exec_vexForm_of_device (hf : VexForm i n pre d s1 x b rm) (hm : rm.isMem = true)
    (he : Enabled .vex s) (hsrc : operandAddress s pre x b 1 i.length rm = (sg, la))
    (hacc : ∀ a ∈ wholeBytes la.toNat n false, Inside s sg a ∧ pageDenial s .read sg a = none)
    (hdev : ∃ a ∈ wholeBytes la.toNat n false, isDevice s .read sg a = true) :
    exec i s = .refused .deviceMemory := by
  have hread : vexSource s pre x b n i.length rm = .error (.refuse .deviceMemory) := by
    rw [vexSource_mem hm, hsrc]
    exact readLanes_allLanes_of_device hacc hdev
  exact exec_vexForm_of_source_error hf he hread

end Vex

section Evex

variable {i : Instr} {n : Nat} {pre : List Prefix} {e : Evex} {bcst : Bool} {reg : BitVec 3}
  {rm : RmOperand} {s : State} {sg : Seg} {la : Quad}

theorem exec_evexForm_of_past_top (hf : EvexForm i n pre e bcst reg rm) (hm : rm.isMem = true)
    (he : Enabled i.cls s)
    (hsrc : operandAddress s pre e.x e.b (dispFactor n bcst) i.length rm = (sg, la))
    (h : ∃ a ∈ checkedBytes s la.toNat n bcst (activeLane s e.aaa), spaceTop s.mode ≤ a) :
    exec i s = .refused .addressWrap := by
  have hread : evexSource s pre e.x e.b n bcst (activeLane s e.aaa) i.length rm =
      .error (.refuse .addressWrap) := by
    rw [evexSource_mem hm, hsrc]
    exact readLanes_of_past_top h
  exact exec_evexForm_of_source_error hf he hread

theorem exec_evexForm_of_device (hf : EvexForm i n pre e bcst reg rm) (hm : rm.isMem = true)
    (he : Enabled i.cls s)
    (hsrc : operandAddress s pre e.x e.b (dispFactor n bcst) i.length rm = (sg, la))
    (hinside : ∀ a ∈ checkedBytes s la.toNat n bcst (activeLane s e.aaa), Inside s sg a)
    (hpage : ∀ a ∈ neededBytes la.toNat n bcst (activeLane s e.aaa), pageDenial s .read sg a = none)
    (hdev : ∃ a ∈ neededBytes la.toNat n bcst (activeLane s e.aaa), isDevice s .read sg a = true) :
    exec i s = .refused .deviceMemory := by
  have hread : evexSource s pre e.x e.b n bcst (activeLane s e.aaa) i.length rm =
      .error (.refuse .deviceMemory) := by
    rw [evexSource_mem hm, hsrc]
    exact readLanes_of_device hinside hpage hdev
  exact exec_evexForm_of_source_error hf he hread

end Evex

/-- Settles O34, clause by clause. -/
theorem refusals : Obligations.Refusals := by
  intro s d code
  refine ⟨fun _ _ => step_of_foreign, fun _ => step_of_otherMode_legacy, ?_, ?_, ?_, ?_, ?_⟩
  · intro htop
    exact step_of_fetchCheck_error (fetchCheck_of_past_top htop)
  · intro hacc hdev
    exact step_of_fetchCheck_error (fetchCheck_of_device hacc hdev)
  · intro pre rex reg rm hm he i src whole halign hacc hdev
    exact exec_subpd_of_device hm he rfl halign hacc hdev
  · intro i n pre d s1 x b rm hf hm he src whole
    exact ⟨exec_vexForm_of_past_top hf hm he rfl, exec_vexForm_of_device hf hm he rfl⟩
  · intro i n pre e bcst reg rm hf hm he src needed checked
    exact ⟨exec_evexForm_of_past_top hf hm he rfl, exec_evexForm_of_device hf hm he rfl⟩

end Sys2Proof.Machine
end

