-- ==== Sys2Proof/Proofs/Frame.lean ====
section
/-! SUPPORT. What any step that completes changes, and the length of the instruction it ran. -/

namespace Sys2Proof

/-! ### Lengths of what decodes (R90, R115) -/

theorem RmOperand.one_le_length (rm : RmOperand) : 1 ≤ rm.length := by
  cases rm <;> simp only [RmOperand.length] <;> omega

/-- Every row that the EVEX class selects takes five bytes before ModRM and then the operand. -/
theorem evexInstr_length {pre : List Prefix} {e : Evex} {ll : BitVec 2} {b : Bool} {reg : BitVec 3}
    {rm : RmOperand} {i : Instr} (h : evexInstr pre e ll b reg rm = some i) :
    i.length = pre.length + 5 + rm.length := by
  unfold evexInstr at h
  split at h
  · obtain rfl := Option.some.inj h
    rfl
  · split_ifs at h <;> obtain rfl := Option.some.inj h <;> rfl

/-- An instruction that comes out of the operand stage has at least a ModRM byte after its opcode and passed
the check on 15 bytes; with 16-bit addressing, where fewer bytes would be counted, none comes out. -/
theorem withOperand_length_bounds {m : Mode} {pre : List Prefix} {c : FormClass} {len : Nat}
    {tail : List Byte} {mk : BitVec 3 → RmOperand → Option Instr} {i : Instr}
    (hmk : ∀ {reg rm j}, mk reg rm = some j → j.length = len + rm.length)
    (h : withOperand m pre c len tail mk = .instr i) : len + 1 ≤ i.length ∧ i.length ≤ 15 := by
  unfold withOperand at h
  split at h
  · cases h
  · rename_i reg rm _ _
    simp only at h
    split_ifs at h with hlong hmode hsixteen
    split at h
    · cases h
    · rename_i j hj
      obtain rfl := Decoded.instr.inj h
      have hlen := hmk hj
      have hpos := rm.one_le_length
      have hcounted : addressedLength m pre rm = rm.length := if_neg hsixteen
      omega

theorem decodeLegacy_length_bounds {m : Mode} {pre : List Prefix} {rex : Option Rex} {tail : List Byte}
    {i : Instr} (h : decodeLegacy m pre rex tail = .instr i) : 4 ≤ i.length ∧ i.length ≤ 15 := by
  unfold decodeLegacy illegal at h
  simp only at h
  split_ifs at h with hlock hlong hrep hrepne hop
  obtain ⟨hlow, hhigh⟩ := withOperand_length_bounds (fun hj => by obtain rfl := Option.some.inj hj; rfl) h
  have hprefix : 0 < pre.length := by
    refine List.length_pos_of_mem (a := .opSize) ?_
    simpa using hop
  omega

/-- Before a VEX or EVEX form that is no `#UD` stands no REX byte (R99, R105). -/
theorem rex_eq_none_of_unforbidden {pre : List Prefix} {rex : Option Rex}
    (h : ¬(pre.any Prefix.forbiddenBeforeVex || rex.isSome) = true) : rex = none := by
  rw [Bool.or_eq_true, not_or] at h
  exact Option.not_isSome_iff_eq_none.mp h.2

theorem decodeVex2_length_bounds {m : Mode} {pre : List Prefix} {rex : Option Rex} {bytes : List Byte}
    {i : Instr} (h : decodeVex2 m pre rex bytes = .instr i) : 4 ≤ i.length ∧ i.length ≤ 15 := by
  unfold decodeVex2 illegalVex illegal at h
  split at h
  · simp only at h
    split_ifs at h with hvex hforbidden
    all_goals
      obtain rfl := rex_eq_none_of_unforbidden hforbidden
      obtain ⟨hlow, hhigh⟩ := withOperand_length_bounds
        (fun hj => by obtain rfl := Option.some.inj hj; rfl) h
      omega
  · cases h

theorem decodeVex3_length_bounds {m : Mode} {pre : List Prefix} {rex : Option Rex} {bytes : List Byte}
    {i : Instr} (h : decodeVex3 m pre rex bytes = .instr i) : 4 ≤ i.length ∧ i.length ≤ 15 := by
  unfold decodeVex3 illegalVex illegal at h
  split at h
  · simp only at h
    split_ifs at h with hvex hforbidden
    all_goals
      obtain rfl := rex_eq_none_of_unforbidden hforbidden
      obtain ⟨hlow, hhigh⟩ := withOperand_length_bounds
        (fun hj => by obtain rfl := Option.some.inj hj; rfl) h
      omega
  · cases h

theorem decodeEvex_length_bounds {m : Mode} {pre : List Prefix} {rex : Option Rex} {bytes : List Byte}
    {i : Instr} (h : decodeEvex m pre rex bytes = .instr i) : 4 ≤ i.length ∧ i.length ≤ 15 := by
  unfold decodeEvex illegalEvex illegal at h
  split at h
  · simp only at h
    split_ifs at h with hvex hreserved
    have hforbidden : ¬(pre.any Prefix.forbiddenBeforeVex || rex.isSome) = true := by
      simp only [evexReserved, Bool.or_eq_true, not_or] at hreserved ⊢
      obtain ⟨⟨⟨hforbidden, -⟩, -⟩, -⟩ := hreserved
      exact hforbidden
    obtain rfl := rex_eq_none_of_unforbidden hforbidden
    obtain ⟨hlow, hhigh⟩ := withOperand_length_bounds evexInstr_length h
    omega
  · cases h

theorem decodeClass_length_bounds {m : Mode} {pre : List Prefix} {rex : Option Rex} {bytes : List Byte}
    {i : Instr} (h : decodeClass m pre rex bytes = .instr i) : 4 ≤ i.length ∧ i.length ≤ 15 := by
  unfold decodeClass at h
  split at h
  · cases h
  · simp only at h
    split_ifs at h
    · split at h
      · cases h
      · split_ifs at h
        exact decodeLegacy_length_bounds h
    · exact decodeVex2_length_bounds h
    · exact decodeVex3_length_bounds h
    · exact decodeEvex_length_bounds h

/-- Whatever bytes decode to an instruction, it is 4 to 15 bytes long (R90, R115). -/
theorem decode_length_bounds {m : Mode} {bytes : List Byte} {i : Instr}
    (h : decode m bytes = .instr i) : 4 ≤ i.length ∧ i.length ≤ 15 := by
  unfold decode at h
  simp only at h
  split_ifs at h
  exact decodeClass_length_bounds h

end Sys2Proof

namespace Sys2Proof.Machine

open Sys2Proof

/-! ### The frame of a step -/

theorem nvec_pos (s : State) : 0 < s.nvec := by
  unfold State.nvec Params.nvec
  split_ifs <;> decide

/-- Modulo `NVEC` every number is that of a register the mode has (R23). -/
theorem vreg_toNat_lt_nvec (s : State) (n : BitVec 5) : (s.vreg n).toNat < s.nvec := by
  have hmod : n.toNat % s.nvec < s.nvec := Nat.mod_lt _ (nvec_pos s)
  rw [State.vreg, BitVec.toNat_ofNat]
  exact (Nat.mod_le _ _).trans_lt hmod

/-- Settles O37: the step ran what it decoded, and that was one commit. -/
theorem stepFrame : Obligations.StepFrame := by
  intro s t hstep
  obtain ⟨i, hdecode, hexec⟩ := step_eq_next hstep
  obtain ⟨lanes, f, ht⟩ := exec_eq_next hexec
  obtain ⟨hlow, hhigh⟩ := decode_length_bounds hdecode
  refine ⟨i, hdecode, hexec, ?_⟩
  rw [ht]
  exact ⟨commit_sameElsewhere s _ _ _ _, vreg_toNat_lt_nvec s _,
    fun n hn => readV_commit_other s _ n _ _ _ hn, ⟨f, rfl⟩, hlow, hhigh, rfl⟩

end Sys2Proof.Machine
end

