-- ==== Sys2Proof/Proofs/Reset.lean ====
section
/-! SUPPORT. The state after `RESET#` (R39, R260). -/

namespace Sys2Proof.Machine

open Sys2Proof

@[simp] theorem readV_reset (n : BitVec 5) : State.reset.readV n = 0 :=
  Vector.getElem_replicate ..

@[simp] theorem reset_k_getElem (n : Nat) (h : n < 8) : State.reset.k[n] = 0 :=
  Vector.getElem_replicate ..

@[simp] theorem readK_reset (n : BitVec 3) : State.reset.readK n = 0 :=
  reset_k_getElem n.toNat n.isLt

@[simp] theorem readX_reset (n : BitVec 4) : State.reset.readX n = 0 :=
  Vector.getElem_replicate ..

/-- At reset `CS.base` and the pc give the reset vector (R39). -/
theorem fetchAddress_reset : fetchAddress State.reset = 0xFFFFFFF0#64 := by decide

/-- Settles O39: empty memory, registers of zeros, and the reset values of MXCSR and the pc. -/
theorem invAtReset : Obligations.InvAtReset where
  memory := reset_memory_wf
  vectors n := by rw [readV_reset]; exact BitVec.zero_ushiftRight
  opmasks n := by rw [Fin.getElem_fin, reset_k_getElem]; exact BitVec.zero_ushiftRight
  mxcsrReserved := by decide
  eip _ := by decide

/-- Settles O58: the register files read as zeros, and the other values are fields of the reset state. -/
theorem resetValues : Obligations.ResetValues :=
  ⟨readV_reset, readK_reset, rfl, rfl, fun n _ => readX_reset n, rfl, rfl, rfl, rfl, rfl, rfl, rfl,
    fetchAddress_reset⟩

end Sys2Proof.Machine
end

