-- ==== Sys2Proof/Proofs/Unread.lean ====
section
/-! SUPPORT. What a form that completes does not read: the MXCSR flags, RFLAGS but for AC, and the opmask
registers but for the writemask's bits of its lanes. One change of a state covers all three; each shared
operation that succeeds is shown to succeed alike after it. -/

namespace Sys2Proof.Machine

open Sys2Proof

/-! ### MXCSR with flags set: the control bits are above the flags (R26, R28) -/

theorem orFlags_getLsbD_of_ge (m : BitVec 32) (f : FlagSet) {i : Nat} (h : 6 ≤ i) :
    (orFlags m f).getLsbD i = m.getLsbD i := by
  have hflag : f.word.getLsbD i = false := BitVec.getLsbD_of_ge _ _ h
  simp [orFlags, hflag]

@[simp] theorem mxDAZ_orFlags (m : BitVec 32) (f : FlagSet) : mxDAZ (orFlags m f) = mxDAZ m :=
  orFlags_getLsbD_of_ge m f (by decide)
@[simp] theorem mxIM_orFlags (m : BitVec 32) (f : FlagSet) : mxIM (orFlags m f) = mxIM m :=
  orFlags_getLsbD_of_ge m f (by decide)
@[simp] theorem mxDM_orFlags (m : BitVec 32) (f : FlagSet) : mxDM (orFlags m f) = mxDM m :=
  orFlags_getLsbD_of_ge m f (by decide)
@[simp] theorem mxOM_orFlags (m : BitVec 32) (f : FlagSet) : mxOM (orFlags m f) = mxOM m :=
  orFlags_getLsbD_of_ge m f (by decide)
@[simp] theorem mxUM_orFlags (m : BitVec 32) (f : FlagSet) : mxUM (orFlags m f) = mxUM m :=
  orFlags_getLsbD_of_ge m f (by decide)
@[simp] theorem mxPM_orFlags (m : BitVec 32) (f : FlagSet) : mxPM (orFlags m f) = mxPM m :=
  orFlags_getLsbD_of_ge m f (by decide)
@[simp] theorem mxFTZ_orFlags (m : BitVec 32) (f : FlagSet) : mxFTZ (orFlags m f) = mxFTZ m :=
  orFlags_getLsbD_of_ge m f (by decide)

@[simp] theorem mxRC_orFlags (m : BitVec 32) (f : FlagSet) : mxRC (orFlags m f) = mxRC m := by
  have hfield : (orFlags m f).extractLsb' 13 2 = m.extractLsb' 13 2 := by
    apply BitVec.eq_of_getLsbD_eq
    intro i hi
    simp only [BitVec.getLsbD_extractLsb', orFlags_getLsbD_of_ge m f (show 6 ≤ 13 + i by omega)]
  rw [mxRC, hfield, mxRC]

/-- Setting flags is order-free, so a form's own flags can be set before or after others. -/
theorem orFlags_comm (m : BitVec 32) (f g : FlagSet) :
    orFlags (orFlags m f) g = orFlags (orFlags m g) f := by
  rw [orFlags, orFlags, orFlags, orFlags, BitVec.or_assoc, BitVec.or_comm (f.word.zeroExtend 32),
    ← BitVec.or_assoc]

@[simp] theorem orFlags_empty (m : BitVec 32) : orFlags m FlagSet.empty = m := BitVec.or_zero

@[simp] theorem unmasked_orFlags (m : BitVec 32) (f g : FlagSet) :
    unmasked (orFlags m f) g = unmasked m g := by
  simp only [unmasked, mxIM_orFlags, mxDM_orFlags, mxOM_orFlags, mxUM_orFlags, mxPM_orFlags]

@[simp] theorem post_orFlags (c : Cond) (m : BitVec 32) (f : FlagSet) :
    c.post (orFlags m f) = c.post m := by
  simp only [Cond.post, mxOM_orFlags, mxUM_orFlags, mxFTZ_orFlags]

/-! ### The change of a state -/

/-- `s` with other opmask registers, more MXCSR flags set, and another RFLAGS. -/
def State.withUnread (s : State) (k' : Vector (BitVec Config.opmaskBits) 8) (f : FlagSet) (rf : Quad) :
    State :=
  { s with k := k', mxcsr := orFlags s.mxcsr f, rflags := rf }

section

variable {s : State} {k' : Vector (BitVec Config.opmaskBits) 8} {f : FlagSet} {rf : Quad}

@[simp] theorem withUnread_mxcsr : (s.withUnread k' f rf).mxcsr = orFlags s.mxcsr f := rfl

theorem withUnread_rflagsAC (hac : rf.getLsbD 18 = s.rflags.getLsbD 18) :
    (s.withUnread k' f rf).rflagsAC = s.rflagsAC := hac

@[simp] theorem enabled_withUnread {c : FormClass} :
    Enabled c (s.withUnread k' f rf) ↔ Enabled c s := by
  cases c <;> exact Iff.rfl

@[simp] theorem regLanes_withUnread (n : BitVec 5) :
    regLanes (s.withUnread k' f rf) n = regLanes s n := rfl

@[simp] theorem operandAddress_withUnread (pre : List Prefix) (x b : Bool) (n len : Nat)
    (rm : RmOperand) :
    operandAddress (s.withUnread k' f rf) pre x b n len rm = operandAddress s pre x b n len rm := by
  cases rm <;> rfl

@[simp] theorem laneResult_withUnread (a b : Nat → Quad) (rc : Rounding) :
    laneResult (s.withUnread k' f rf) a b rc = laneResult s a b rc := by
  funext j
  simp only [laneResult, withUnread_mxcsr, mxDAZ_orFlags, mxFTZ_orFlags]

/-- The change passes through a commit, its MXCSR flags on top of those the commit writes. -/
theorem commit_withUnread (d : BitVec 5) (lanes : List Quad) (mx : BitVec 32) (len : Nat) :
    commit (s.withUnread k' f rf) d lanes (orFlags mx f) len =
      (commit s d lanes mx len).withUnread k' f rf := rfl

/-! ### Result lanes -/

theorem legacyLanes_withUnread (d : BitVec 5) (a b : Nat → Quad) :
    legacyLanes (s.withUnread k' f rf) d a b = legacyLanes s d a b := by
  simp only [legacyLanes, laneResult_withUnread, regLanes_withUnread, withUnread_mxcsr, mxRC_orFlags]

theorem plainLanes_withUnread (lanes : Nat) (a b : Nat → Quad) :
    plainLanes (s.withUnread k' f rf) lanes a b = plainLanes s lanes a b := by
  simp only [plainLanes, laneResult_withUnread, withUnread_mxcsr, mxRC_orFlags]

theorem maskedLanes_withUnread {lanes : Nat} {e : Evex} (d : BitVec 5) (rc : Rounding) (a b : Nat → Quad)
    (hmask : ∀ j, j < lanes → activeLane (s.withUnread k' f rf) e.aaa j = activeLane s e.aaa j) :
    maskedLanes (s.withUnread k' f rf) lanes e d rc a b = maskedLanes s lanes e d rc a b := by
  refine List.map_congr_left fun j hj => ?_
  rw [hmask j (List.mem_range.mp hj), laneResult_withUnread, regLanes_withUnread]

/-! ### Packed subtraction -/

/-- Only the masks of lanes that the form has are read (R194). -/
theorem filter_range_congr {n : Nat} {p q : Nat → Bool} (h : ∀ j, j < n → p j = q j) :
    (List.range n).filter p = (List.range n).filter q :=
  List.filter_congr fun j hj => h j (List.mem_range.mp hj)

theorem packedFlags_withUnread {cs : List Cond} {mx : BitVec 32} (h : packedFlags s cs = .ok mx) :
    packedFlags (s.withUnread k' f rf) cs = .ok (orFlags mx f) := by
  unfold packedFlags at h ⊢
  simp only [withUnread_mxcsr, unmasked_orFlags, post_orFlags] at h ⊢
  split_ifs at h with hpre hpost
  rw [if_neg hpre, if_neg hpost, orFlags_comm]
  obtain rfl := Except.ok.inj h
  rfl

theorem packedSub_withUnread {n : Nat} {a b : Nat → Quad} {active active' : Nat → Bool}
    {rc : Rounding} {sae : Bool} {mx : BitVec 32} (hmask : ∀ j, j < n → active' j = active j)
    (h : packedSub s n a b active rc sae = .ok mx) :
    packedSub (s.withUnread k' f rf) n a b active' rc sae = .ok (orFlags mx f) := by
  unfold packedSub at h ⊢
  cases sae with
  | true =>
    obtain rfl := Except.ok.inj h
    rfl
  | false =>
    rw [laneConds, withUnread_mxcsr, mxDAZ_orFlags, filter_range_congr hmask]
    exact packedFlags_withUnread h

/-! ### The second source -/

theorem neededBytes_congr {la lanes : Nat} {bcst : Bool} {active active' : Nat → Bool}
    (hmask : ∀ j, j < lanes → active' j = active j) :
    neededBytes la lanes bcst active' = neededBytes la lanes bcst active := by
  have hany : (List.range lanes).any active' = (List.range lanes).any active := by
    rw [Bool.eq_iff_iff]
    simp only [List.any_eq_true, List.mem_range]
    exact exists_congr fun j => and_congr_right fun hj => by rw [hmask j hj]
  rw [neededBytes, neededBytes, filter_range_congr hmask, hany]

/-- The data check reads only what the access check is made of. -/
theorem dataCheck_withUnread {sg : Seg} {gp needed : List Nat} (h : dataCheck s sg gp needed = .ok ()) :
    dataCheck (s.withUnread k' f rf) sg gp needed = .ok () :=
  dataCheck_eq_ok.mpr (dataCheck_eq_ok (s := s).mp h)

/-- After the data check of its checked and needed bytes, only alignment checking can stop a read. -/
theorem readLanes_of_dataCheck_ok {sg : Seg} {la : Quad} {lanes : Nat} {bcst : Bool}
    {active : Nat → Bool}
    (h : dataCheck s sg (checkedBytes s la.toNat lanes bcst active)
      (neededBytes la.toNat lanes bcst active) = .ok ()) :
    readLanes s sg la lanes bcst active =
      if alignmentFault s la bcst (neededBytes la.toNat lanes bcst active) then
        .error (.fault (raise .ac s)) else .ok (memLanes s la bcst) := by
  unfold checkedBytes at h
  cases hscope : s.params.suppressScope with
  | all =>
    rw [hscope, if_neg (by decide)] at h
    simp only [readLanes, hscope, h]
    rfl
  | pfOnly =>
    rw [hscope, if_pos rfl] at h
    simp only [readLanes, hscope, h]
    rfl

theorem readLanes_eq_ok_iff {sg : Seg} {la : Quad} {lanes : Nat} {bcst : Bool} {active : Nat → Bool}
    {src : Nat → Quad} :
    readLanes s sg la lanes bcst active = .ok src ↔
      dataCheck s sg (checkedBytes s la.toNat lanes bcst active)
        (neededBytes la.toNat lanes bcst active) = .ok () ∧
      alignmentFault s la bcst (neededBytes la.toNat lanes bcst active) = false ∧
      src = memLanes s la bcst := by
  cases hcheck : dataCheck s sg (checkedBytes s la.toNat lanes bcst active)
      (neededBytes la.toNat lanes bcst active) with
  | error st => simp [readLanes_of_dataCheck_error hcheck]
  | ok _ =>
    rw [readLanes_of_dataCheck_ok hcheck]
    cases alignmentFault s la bcst (neededBytes la.toNat lanes bcst active) <;> simp [eq_comm]

theorem readLanes_withUnread {sg : Seg} {la : Quad} {lanes : Nat} {bcst : Bool}
    {active active' : Nat → Bool} {src : Nat → Quad} (hac : rf.getLsbD 18 = s.rflags.getLsbD 18)
    (hmask : ∀ j, j < lanes → active' j = active j)
    (h : readLanes s sg la lanes bcst active = .ok src) :
    readLanes (s.withUnread k' f rf) sg la lanes bcst active' = .ok src := by
  obtain ⟨hcheck, halign, hsrc⟩ := readLanes_eq_ok_iff.mp h
  have hneeded := neededBytes_congr (la := la.toNat) (bcst := bcst) hmask
  refine readLanes_eq_ok_iff.mpr ⟨?_, ?_, hsrc⟩
  · rw [checkedBytes, hneeded]
    exact dataCheck_withUnread hcheck
  · rw [alignmentFault, withUnread_rflagsAC hac, hneeded]
    exact halign

theorem legacyAlignment_eq_ok {sg : Seg} {la : Quad} :
    legacyAlignment s sg la = .ok () ↔ la.toNat % 16 = 0 := by
  refine ⟨fun h => ?_, legacyAlignment_of_aligned⟩
  unfold legacyAlignment at h
  split_ifs at h with haligned
  exact haligned

theorem exists_reg_of_isMem_eq_false : ∀ {rm : RmOperand}, rm.isMem = false → ∃ r, rm = .reg r
  | .reg r, _ => ⟨r, rfl⟩

theorem legacySource_withUnread {pre : List Prefix} {x b : Bool} {len : Nat} {rm : RmOperand}
    {src : Nat → Quad} (hac : rf.getLsbD 18 = s.rflags.getLsbD 18)
    (h : legacySource s pre x b len rm = .ok src) :
    legacySource (s.withUnread k' f rf) pre x b len rm = .ok src := by
  cases hm : rm.isMem with
  | false =>
    obtain ⟨r, rfl⟩ := exists_reg_of_isMem_eq_false hm
    exact h
  | true =>
    rw [legacySource_mem hm] at h ⊢
    rw [operandAddress_withUnread]
    split at h
    · cases h
    · rename_i halign
      rw [legacyAlignment_of_aligned (legacyAlignment_eq_ok.mp halign)]
      exact readLanes_withUnread hac (fun _ _ => rfl) h

theorem vexSource_withUnread {pre : List Prefix} {x b : Bool} {lanes len : Nat} {rm : RmOperand}
    {src : Nat → Quad} (hac : rf.getLsbD 18 = s.rflags.getLsbD 18)
    (h : vexSource s pre x b lanes len rm = .ok src) :
    vexSource (s.withUnread k' f rf) pre x b lanes len rm = .ok src := by
  cases hm : rm.isMem with
  | false =>
    obtain ⟨r, rfl⟩ := exists_reg_of_isMem_eq_false hm
    exact h
  | true =>
    rw [vexSource_mem hm] at h ⊢
    rw [operandAddress_withUnread]
    exact readLanes_withUnread hac (fun _ _ => rfl) h

theorem evexSource_withUnread {pre : List Prefix} {x b : Bool} {lanes len : Nat} {bcst : Bool}
    {active active' : Nat → Bool} {rm : RmOperand} {src : Nat → Quad}
    (hac : rf.getLsbD 18 = s.rflags.getLsbD 18) (hmask : ∀ j, j < lanes → active' j = active j)
    (h : evexSource s pre x b lanes bcst active len rm = .ok src) :
    evexSource (s.withUnread k' f rf) pre x b lanes bcst active' len rm = .ok src := by
  cases hm : rm.isMem with
  | false =>
    obtain ⟨r, rfl⟩ := exists_reg_of_isMem_eq_false hm
    exact h
  | true =>
    rw [evexSource_mem hm] at h ⊢
    rw [operandAddress_withUnread]
    exact readLanes_withUnread hac hmask h

/-! ### The procedures -/

theorem execSubpd_withUnread {pre : List Prefix} {rex : Option Rex} {reg : BitVec 3} {rm : RmOperand}
    {t : State} (hac : rf.getLsbD 18 = s.rflags.getLsbD 18) (h : execSubpd pre rex reg rm s = .next t) :
    execSubpd pre rex reg rm (s.withUnread k' f rf) = .next (t.withUnread k' f rf) := by
  obtain ⟨henabled, src, mx, hsrc, hmx, rfl⟩ := execSubpd_eq_next.mp h
  refine execSubpd_eq_next.mpr ⟨enabled_withUnread.mpr henabled, src, orFlags mx f,
    legacySource_withUnread hac hsrc, ?_, ?_⟩
  · rw [regLanes_withUnread, withUnread_mxcsr, mxRC_orFlags]
    exact packedSub_withUnread (fun _ _ => rfl) hmx
  · rw [regLanes_withUnread, legacyLanes_withUnread, commit_withUnread]

theorem vexSub_withUnread {lanes : Nat} {pre : List Prefix} {d s1 : BitVec 5} {x b : Bool} {len : Nat}
    {rm : RmOperand} {t : State} (hac : rf.getLsbD 18 = s.rflags.getLsbD 18)
    (h : vexSub lanes pre d s1 x b len rm s = .ok t) :
    vexSub lanes pre d s1 x b len rm (s.withUnread k' f rf) = .ok (t.withUnread k' f rf) := by
  obtain ⟨henabled, src, mx, hsrc, hmx, rfl⟩ := vexSub_eq_ok.mp h
  refine vexSub_eq_ok.mpr ⟨enabled_withUnread.mpr henabled, src, orFlags mx f,
    vexSource_withUnread hac hsrc, ?_, ?_⟩
  · rw [regLanes_withUnread, withUnread_mxcsr, mxRC_orFlags]
    exact packedSub_withUnread (fun _ _ => rfl) hmx
  · rw [regLanes_withUnread, plainLanes_withUnread, commit_withUnread]

/-- Of the opmask registers, only the writemask's bits below the number of lanes are read (R194). -/
theorem evexSub_withUnread {lanes : Nat} {pre : List Prefix} {e : Evex} {bcst : Bool}
    {er : Option Rounding} {reg : BitVec 3} {len : Nat} {rm : RmOperand} {t : State}
    (hac : rf.getLsbD 18 = s.rflags.getLsbD 18)
    (hmask : ∀ j, j < lanes → activeLane (s.withUnread k' f rf) e.aaa j = activeLane s e.aaa j)
    (h : evexSub lanes pre e bcst er reg len rm s = .ok t) :
    evexSub lanes pre e bcst er reg len rm (s.withUnread k' f rf) = .ok (t.withUnread k' f rf) := by
  obtain ⟨henabled, src, mx, hsrc, hmx, rfl⟩ := evexSub_eq_ok.mp h
  refine evexSub_eq_ok.mpr ⟨enabled_withUnread.mpr henabled, src, orFlags mx f,
    evexSource_withUnread hac hmask hsrc, ?_, ?_⟩
  · rw [regLanes_withUnread, withUnread_mxcsr, mxRC_orFlags]
    exact packedSub_withUnread hmask hmx
  · rw [regLanes_withUnread, withUnread_mxcsr, mxRC_orFlags, maskedLanes_withUnread _ _ _ _ hmask,
      commit_withUnread]

end

/-! ### The statements -/

/-- Whatever form completes, it completes alike with other flags, the opmask registers kept. -/
theorem exec_withUnread {i : Instr} {s t : State} {f : FlagSet} {rf : Quad}
    (hac : rf.getLsbD 18 = s.rflags.getLsbD 18) (h : exec i s = .next t) :
    exec i (s.withUnread s.k f rf) = .next (t.withUnread s.k f rf) := by
  have vex : ∀ {n pre d s1 x b len rm}, outcome (vexSub n pre d s1 x b len rm s) = .next t →
      outcome (vexSub n pre d s1 x b len rm (s.withUnread s.k f rf)) = .next (t.withUnread s.k f rf) :=
    fun h => outcome_eq_next.mpr (vexSub_withUnread hac (outcome_eq_next.mp h))
  have evex : ∀ {n pre e b er reg len rm}, outcome (evexSub n pre e b er reg len rm s) = .next t →
      outcome (evexSub n pre e b er reg len rm (s.withUnread s.k f rf)) =
        .next (t.withUnread s.k f rf) :=
    fun h => outcome_eq_next.mpr (evexSub_withUnread hac (fun _ _ => rfl) (outcome_eq_next.mp h))
  cases i with
  | subpd pre rex reg rm => exact execSubpd_withUnread hac h
  | vsubpdVex2x128 pre p reg rm => exact vex h
  | vsubpdVex3x128 pre p reg rm => exact vex h
  | vsubpdVex2x256 pre p reg rm => exact vex h
  | vsubpdVex3x256 pre p reg rm => exact vex h
  | vsubpdEvex128 pre e b reg rm => exact evex h
  | vsubpdEvex256 pre e b reg rm => exact evex h
  | vsubpdEvex512 pre e b reg rm => exact evex h
  | vsubpdEvex512er pre e rc reg rm => exact evex h

/-- Settles O57: the change of flags with the opmask registers kept, which no form writes. -/
theorem flagsNotRead : Obligations.FlagsNotRead := by
  intro i s t f rf hac h
  obtain ⟨lanes, g, ht⟩ := exec_eq_next h
  have hk : t.k = s.k := by rw [ht, commit_k]
  have hthrough : t.withUnread s.k f rf = { t with mxcsr := orFlags t.mxcsr f, rflags := rf } := by
    rw [← hk, State.withUnread]
  exact (exec_withUnread hac h).trans (congrArg _ hthrough)

/-- Settles O56: the change of opmask registers with no flag set and RFLAGS kept, which no form writes. -/
theorem opmaskHighBitsIgnored : Obligations.OpmaskHighBitsIgnored := by
  intro i n pre e bcst reg rm s t k' hform hmask h
  obtain ⟨lanes, g, ht⟩ := exec_eq_next h
  have hrflags : t.rflags = s.rflags := by rw [ht, commit_rflags]
  have hbefore : s.withUnread k' FlagSet.empty s.rflags = { s with k := k' } := by
    rw [State.withUnread, orFlags_empty]
  have hafter : t.withUnread k' FlagSet.empty s.rflags = { t with k := k' } := by
    rw [← hrflags, State.withUnread, orFlags_empty]
  rw [(exec_evexForm hform s).1, outcome_eq_next] at h
  rw [← hbefore] at hmask ⊢
  rw [← hafter, (exec_evexForm hform _).1, outcome_eq_next]
  exact evexSub_withUnread rfl hmask h

end Sys2Proof.Machine
end

