-- ==== Sys2Proof/Proofs/Fetch.lean ====
section
/-! SUPPORT. How a fetch ends when a byte of the instruction lies outside the space or CS, or paging refuses
one (R79, R225). -/

namespace Sys2Proof.Machine

open Sys2Proof

/-! ### Paging -/

/-- Bit 4 of the error code is `I/D`: the access was an instruction fetch (R221). -/
theorem pageFaultCode_getLsbD_four (bits : PageBits) (cpl : BitVec 2) (kind : AccessKind) :
    (pageFaultCode bits cpl kind).getLsbD 4 = decide (kind = .fetch) := by
  simp only [pageFaultCode, BitVec.getLsbD_append]
  simp

/-- Where paging refuses a byte there is a page fault, and it reports a refused byte. -/
theorem exists_pageFault?_of_refused {s : State} {kind : AccessKind} {sg : Seg} {bytes : List Nat}
    (h : ∃ a ∈ bytes, (pageDenial s kind sg a).isSome = true) :
    ∃ a ∈ bytes, ∃ bits, pageDenial s kind sg a = some bits ∧
      pageFault? s kind sg bytes = some (.pf (pageFaultCode bits s.cpl kind) (BitVec.ofNat 64 a)) := by
  obtain ⟨c, hc, hrefused⟩ := h
  cases hp : pageFault? s kind sg bytes with
  | none => simp [pageFault?_eq_none.mp hp c hc] at hrefused
  | some e =>
    obtain ⟨a, ha, bits, hbits, he⟩ := pageFault?_eq_some hp
    exact ⟨a, ha, bits, hbits, congrArg some he⟩

/-! ### The fetch check, its bytes below the top of the space -/

section Below

variable {s : State} {n : Nat} {e : Exc}
variable (htop : ∀ a ∈ byteRange (fetchAddress s).toNat n, a < spaceTop s.mode)
include htop

theorem any_past_top_eq_false :
    ((byteRange (fetchAddress s).toNat n).any fun a => decide (spaceTop s.mode ≤ a)) = false := by
  simpa using htop

theorem fetchCheck_of_outside
    (hout : ∃ a ∈ byteRange (fetchAddress s).toNat n, outside s .fetch .cs a = true)
    (hpage : ∀ a ∈ byteRange (fetchAddress s).toNat n, pageDenial s .fetch .cs a = none) :
    fetchCheck s n = .error (.fault (raise .gp s)) := by
  simp only [fetchCheck, any_past_top_eq_false htop, Bool.false_eq_true, if_false,
    List.any_eq_true.mpr hout, pageFault?_eq_none.mpr hpage]

theorem fetchCheck_of_pageFault
    (hin : ∀ a ∈ byteRange (fetchAddress s).toNat n, outside s .fetch .cs a = false)
    (hpage : pageFault? s .fetch .cs (byteRange (fetchAddress s).toNat n) = some e) :
    fetchCheck s n = .error (.fault (raise e s)) := by
  have hout : (byteRange (fetchAddress s).toNat n).any (outside s .fetch .cs) = false := by
    simpa using hin
  simp only [fetchCheck, any_past_top_eq_false htop, Bool.false_eq_true, if_false, hout, hpage]

/-- Where both hold, which is reported is a free value (U14). -/
theorem fetchCheck_of_outside_of_pageFault
    (hout : ∃ a ∈ byteRange (fetchAddress s).toNat n, outside s .fetch .cs a = true)
    (hpage : pageFault? s .fetch .cs (byteRange (fetchAddress s).toNat n) = some e) :
    fetchCheck s n =
      .error (.fault (raise (if Config.fetchReportsPageFault s.rip then e else .gp) s)) := by
  simp only [fetchCheck, any_past_top_eq_false htop, Bool.false_eq_true, if_false,
    List.any_eq_true.mpr hout, hpage]

end Below

/-- Settles O33: the three ways the two kinds of denial can meet. -/
theorem fetchFaults : Obligations.FetchFaults := by
  intro s bytes htop beyond refused gp pf
  have fault_of_check : ∀ {e : Exc},
      fetchCheck s (decode s.mode (fetchWindow s)).consumed = .error (.fault (raise e s)) →
        step s = .fault (raise e s) := step_of_fetchCheck_error
  refine ⟨fun hout hok => ?gpOnly, fun hpage hin => ?pfOnly, fun hout hpage => ?both⟩
  case gpOnly =>
    have hnone : ∀ a ∈ bytes, pageDenial s .fetch .cs a = none := by simpa [refused] using hok
    exact fault_of_check (fetchCheck_of_outside htop hout hnone)
  all_goals
    obtain ⟨a, ha, bits, hbits, hpf⟩ := exists_pageFault?_of_refused hpage
    have hid := pageFaultCode_getLsbD_four bits s.cpl .fetch
  case pfOnly =>
    have hinside : ∀ a ∈ bytes, outside s .fetch .cs a = false := by simpa [beyond] using hin
    exact ⟨a, ha, bits, hbits, hid, fault_of_check (fetchCheck_of_pageFault htop hinside hpf)⟩
  case both =>
    have hstep := fault_of_check (fetchCheck_of_outside_of_pageFault htop hout hpf)
    by_cases hfree : Config.fetchReportsPageFault s.rip = true
    · rw [if_pos hfree] at hstep
      exact .inr ⟨a, ha, bits, hbits, hid, hstep⟩
    · rw [if_neg hfree] at hstep
      exact .inl hstep

end Sys2Proof.Machine
end

