-- ==== Sys2Proof/Proofs/LittleEndian.lean ====
section
/-! SUPPORT. The bytes of an eight-byte read (R61). -/

namespace Sys2Proof.Machine

open Sys2Proof

/-- Of bytes put together the last is byte 0. -/
theorem extractLsb'_append_byte_zero {w : Nat} (hi : BitVec w) (lo : Byte) :
    (hi ++ lo).extractLsb' (8 * 0) 8 = lo :=
  BitVec.extractLsb'_append_eq_right

/-- Byte `i` of the bytes before the last is byte `i + 1` of them all. -/
theorem extractLsb'_append_byte_succ {w : Nat} (hi : BitVec w) (lo : Byte) (i : Nat) :
    (hi ++ lo).extractLsb' (8 * (i + 1)) 8 = hi.extractLsb' (8 * i) 8 := by
  rw [BitVec.extractLsb'_append_eq_of_le (by omega), Nat.mul_succ, Nat.add_sub_cancel]

/-- Settles O49: byte `i` is reached past the `i` bytes below it. -/
theorem littleEndian : Obligations.LittleEndian := by
  intro m a i hi
  unfold Memory.readQuad
  obtain rfl | hlow : i = 7 ∨ i < 7 := by omega
  · simp only [extractLsb'_append_byte_succ]
    exact BitVec.extractLsb'_eq_self
  · interval_cases i
    all_goals simp only [extractLsb'_append_byte_succ, extractLsb'_append_byte_zero, Nat.add_zero]

end Sys2Proof.Machine
end

