-- ==== Sys2Proof/Proofs/OperandBytes.lean ====
section
/-! SUPPORT. ModRM, SIB and displacement (R107 to R110): bytes read as an operand exactly when they begin with
the encoding of one, and six bytes always do. -/

namespace Sys2Proof

theorem disp32Bytes_append (a b c d : Byte) : disp32Bytes (d ++ c ++ b ++ a) = [a, b, c, d] := by
  have hb : (d ++ c ++ b ++ a).extractLsb' 8 8 = b := by
    rw [BitVec.extractLsb'_append_eq_of_le (by decide)]
    exact BitVec.extractLsb'_append_eq_right
  have hc : (d ++ c ++ b ++ a).extractLsb' 16 8 = c := by
    rw [BitVec.extractLsb'_append_eq_of_le (by decide), BitVec.extractLsb'_append_eq_of_le (by decide)]
    exact BitVec.extractLsb'_append_eq_right
  have hd : (d ++ c ++ b ++ a).extractLsb' 24 8 = d := by
    rw [BitVec.extractLsb'_append_eq_of_le (by decide), BitVec.extractLsb'_append_eq_of_le (by decide),
      BitVec.extractLsb'_append_eq_of_le (by decide)]
    exact BitVec.extractLsb'_eq_self
  rw [disp32Bytes, hb, hc, hd, BitVec.extractLsb'_append_eq_right]

theorem takeDisp32_eq_some {bytes rest : List Byte} {d : BitVec 32} (h : takeDisp32 bytes = some (d, rest)) :
    bytes = disp32Bytes d ++ rest := by
  unfold takeDisp32 at h
  split at h
  · cases h
    rw [disp32Bytes_append]
    rfl
  · cases h

theorem takeDisp_eq_some {mod : BitVec 2} {bytes rest : List Byte} {d : Disp} (hmod : mod ≠ 3#2)
    (h : takeDisp mod bytes = some (d, rest)) : mod = d.mod ∧ bytes = d.bytes ++ rest := by
  unfold takeDisp at h
  split_ifs at h with h0 h1
  · cases h
    exact ⟨h0, rfl⟩
  · cases bytes with
    | nil => cases h
    | cons b bytes =>
      cases h
      exact ⟨h1, rfl⟩
  · obtain ⟨⟨d', rest'⟩, hd, he⟩ := Option.map_eq_some_iff.mp h
    cases he
    exact ⟨by simp only [Disp.mod]; bv_omega, takeDisp32_eq_some hd⟩

theorem modRmByte_extractLsb' (b : Byte) :
    modRmByte (b.extractLsb' 6 2) (b.extractLsb' 3 3) (b.extractLsb' 0 3) = b := by
  revert b; decide +kernel

theorem sib_byte_ofByte (b : Byte) : (Sib.ofByte b).byte = b := modRmByte_extractLsb' b

/-- An operand begins with its ModRM byte. -/
theorem encodeRm_append_eq_cons (reg : BitVec 3) (rm : RmOperand) (rest : List Byte) :
    ∃ modRm tail, encodeRm reg rm ++ rest = modRm :: tail := by
  cases rm <;> exact ⟨_, _, rfl⟩

/-- Only the encoding of an operand reads as that operand. -/
theorem eq_encodeRm_of_decodeRm {bytes rest : List Byte} {reg : BitVec 3} {rm : RmOperand}
    (h : decodeRm bytes = some (reg, rm, rest)) : rm.ok = true ∧ bytes = encodeRm reg rm ++ rest := by
  cases bytes with
  | nil => cases h
  | cons b bytes =>
    have hb := modRmByte_extractLsb' b
    simp only [decodeRm] at h
    split_ifs at h with hreg hsib hdisp
    · cases h
      rw [hreg] at hb
      exact ⟨rfl, by rw [encodeRm, hb]; rfl⟩
    · cases bytes with
      | nil => cases h
      | cons sb bytes =>
        have hsb := sib_byte_ofByte sb
        simp only at h
        split_ifs at h with hbase
        · obtain ⟨⟨d, rest'⟩, hd, he⟩ := Option.map_eq_some_iff.mp h
          obtain ⟨hmod, hbase⟩ := hbase
          cases he
          rw [hmod, hsib] at hb
          refine ⟨rfl, ?_⟩
          rw [encodeRm, hb, ← hbase, hsb, takeDisp32_eq_some hd]
          rfl
        · obtain ⟨⟨d, rest'⟩, hd, he⟩ := Option.map_eq_some_iff.mp h
          cases he
          obtain ⟨hmod, rfl⟩ := takeDisp_eq_some hreg hd
          rw [hmod, hsib] at hb
          have hne : d = .none → (Sib.ofByte sb).base ≠ 5 := fun hd h5 =>
            hbase ⟨hmod.trans ((disp_mod_eq_zero d).mpr hd), h5⟩
          refine ⟨?_, by rw [encodeRm, hb, hsb]; rfl⟩
          simp only [RmOperand.ok, Bool.or_eq_true, decide_eq_true_eq]
          tauto
    · obtain ⟨⟨d, rest'⟩, hd, he⟩ := Option.map_eq_some_iff.mp h
      cases he
      rw [hdisp.1, hdisp.2] at hb
      exact ⟨rfl, by rw [encodeRm, hb, takeDisp32_eq_some hd]; rfl⟩
    · obtain ⟨⟨d, rest'⟩, hd, he⟩ := Option.map_eq_some_iff.mp h
      cases he
      obtain ⟨hmod, rfl⟩ := takeDisp_eq_some hreg hd
      rw [hmod] at hb
      have hne : d = .none → b.extractLsb' 0 3 ≠ 5 := fun hd h5 =>
        hdisp ⟨hmod.trans ((disp_mod_eq_zero d).mpr hd), h5⟩
      refine ⟨?_, by rw [encodeRm, hb]; rfl⟩
      simp only [RmOperand.ok, Bool.and_eq_true, Bool.or_eq_true, decide_eq_true_eq]
      tauto

theorem decodeRm_eq_some_iff {bytes rest : List Byte} {reg : BitVec 3} {rm : RmOperand} :
    decodeRm bytes = some (reg, rm, rest) ↔ rm.ok = true ∧ bytes = encodeRm reg rm ++ rest := by
  refine ⟨eq_encodeRm_of_decodeRm, ?_⟩
  rintro ⟨hok, rfl⟩
  exact decodeRm_encodeRm reg rm rest hok

/-- ModRM, SIB and a 32-bit displacement are the longest operand. -/
theorem exists_decodeRm_eq_some {bytes : List Byte} (h : 6 ≤ bytes.length) :
    ∃ reg rm rest, decodeRm bytes = some (reg, rm, rest) := by
  match bytes, h with
  | modRm :: a :: b :: c :: d :: e :: bytes, _ =>
    have hdisp : ∀ mod x y z w rest, ∃ p, takeDisp mod (x :: y :: z :: w :: rest) = some p := by
      intro mod x y z w rest
      unfold takeDisp
      split_ifs <;> exact ⟨_, rfl⟩
    obtain ⟨p, hp⟩ := hdisp (modRm.extractLsb' 6 2) a b c d (e :: bytes)
    obtain ⟨q, hq⟩ := hdisp (modRm.extractLsb' 6 2) b c d e bytes
    simp only [decodeRm, hp, hq, takeDisp32, Option.map_some]
    split_ifs <;> exact ⟨_, _, _, rfl⟩

/-- What reads as an operand does so whatever follows. -/
theorem decodeRm_append {bytes rest : List Byte} {reg : BitVec 3} {rm : RmOperand} (more : List Byte)
    (h : decodeRm bytes = some (reg, rm, rest)) :
    decodeRm (bytes ++ more) = some (reg, rm, rest ++ more) := by
  obtain ⟨hok, rfl⟩ := decodeRm_eq_some_iff.mp h
  exact decodeRm_eq_some_iff.mpr ⟨hok, List.append_assoc _ _ _⟩

/-! ### The operand of an instruction (R114 steps 4 and 5) -/

theorem addressedLength_of_addressingOk {m : Mode} {pre : List Prefix} {rm : RmOperand}
    (h : addressingOk m pre rm = true) : addressedLength m pre rm = rm.length := by
  unfold addressingOk at h
  rw [addressedLength, if_neg]
  cases hm : rm.isMem <;> simp_all

theorem addressedLength_long64 (pre : List Prefix) (rm : RmOperand) :
    addressedLength .long64 pre rm = rm.length :=
  addressedLength_of_addressingOk (by simp [addressingOk, plainAddressing])

theorem tailLength_encodeRm {m : Mode} {pre : List Prefix} {reg : BitVec 3} {rm : RmOperand}
    (tail : List Byte) (h : rm.ok = true) :
    tailLength m pre (encodeRm reg rm ++ tail) = addressedLength m pre rm := by
  rw [tailLength, decodeRm_encodeRm reg rm tail h]

/-- In 64-bit mode a readable operand within 15 bytes leaves only the question which instruction it makes. -/
theorem withOperand_long64 {pre : List Prefix} {c : FormClass} {len : Nat} {reg : BitVec 3} {rm : RmOperand}
    (tail : List Byte) {mk : BitVec 3 → RmOperand → Option Instr} (hok : rm.ok = true)
    (hlen : len + rm.length ≤ 15) :
    withOperand .long64 pre c len (encodeRm reg rm ++ tail) mk =
      (mk reg rm).elim (.ud (len + rm.length)) .instr := by
  have hshort : ¬len + rm.length > 15 := by omega
  cases h : mk reg rm <;>
    simp [withOperand, decodeRm_encodeRm reg rm tail hok, addressedLength_long64, hshort, plainAddressing, h]

/-- When the operand stage answers an instruction. -/
theorem withOperand_eq_instr_iff {m : Mode} {pre : List Prefix} {c : FormClass} {len : Nat}
    {tail : List Byte} {mk : BitVec 3 → RmOperand → Option Instr} {i : Instr} :
    withOperand m pre c len tail mk = .instr i ↔
      ∃ reg rm rest, decodeRm tail = some (reg, rm, rest) ∧ (m = .long64 ∨ m = .prot32) ∧
        addressingOk m pre rm = true ∧ len + rm.length ≤ 15 ∧ mk reg rm = some i := by
  cases hd : decodeRm tail with
  | none => simp [withOperand, hd]
  | some d =>
    obtain ⟨reg, rm, rest⟩ := d
    simp only [Option.some.injEq, Prod.mk.injEq]
    constructor
    · intro h
      simp only [withOperand, hd] at h
      split_ifs at h with hlong hmode hsixteen
      have haddr : addressingOk m pre rm = true := by
        cases hm : rm.isMem <;> simp_all [addressingOk]
      rw [addressedLength_of_addressingOk haddr] at hlong
      refine ⟨reg, rm, rest, ⟨rfl, rfl, rfl⟩, by cases m <;> simp_all, haddr, by omega, ?_⟩
      split at h
      · cases h
      · cases h
        assumption
    · rintro ⟨_, _, _, ⟨rfl, rfl, rfl⟩, hmode, haddr, hlen, hmk⟩
      have hshort : ¬len + rm.length > 15 := by omega
      have h8086 : ¬(m = .real ∨ m = .virtual8086) := by rcases hmode with rfl | rfl <;> simp
      have hplain : ¬(rm.isMem && !plainAddressing m pre) = true := by
        cases hm : rm.isMem <;> simp_all [addressingOk]
      simp only [withOperand, hd, addressedLength_of_addressingOk haddr, if_neg hshort, if_neg h8086,
        if_neg hplain, hmk]

end Sys2Proof
end

