-- ==== Sys2Proof/Proofs/PrefixRun.lean ====
section
/-! SUPPORT. The prefixes and REX of an instruction, and what decoding does once they are taken off (R92, R94,
R114 steps 1 and 2). -/

namespace Sys2Proof

/-! ### Single bytes -/

theorem byte_of_ofByte? {b : Byte} {p : Prefix} (h : Prefix.ofByte? b = some p) :
    p.byte = b ∧ ∀ w, p ≠ .droppedRex w := by
  have hall : ∀ b : Byte, ∀ p ∈ Prefix.ofByte? b, p.byte = b ∧ ∀ w, p ≠ .droppedRex w := by
    decide +kernel
  exact hall b p h

theorem rex_byte_ofByte {m : Mode} {b : Byte} (h : isRexByte m b = true) :
    m = .long64 ∧ (Rex.ofByte b).byte = b ∧ (Prefix.droppedRex (b.extractLsb' 0 4)).byte = b := by
  have hbytes : ∀ b : Byte, b.extractLsb' 4 4 = 4#4 → (Rex.ofByte b).byte = b ∧
      (Prefix.droppedRex (b.extractLsb' 0 4)).byte = b := by decide +kernel
  simp only [isRexByte, Bool.and_eq_true, decide_eq_true_eq] at h
  exact ⟨h.1, hbytes b h.2⟩

theorem rex_ofByte_byte (r : Rex) : Rex.ofByte r.byte = r := by
  have h : ∀ w r x b : Bool, Rex.ofByte (Rex.byte ⟨w, r, x, b⟩) = ⟨w, r, x, b⟩ := by decide
  exact h r.w r.r r.x r.b

theorem isRexByte_rexByte (r : Rex) : isRexByte .long64 r.byte = true := by
  have h : ∀ w r x b : Bool, isRexByte .long64 (Rex.byte ⟨w, r, x, b⟩) = true := by decide
  exact h r.w r.r r.x r.b

theorem ofByte?_rexByte (r : Rex) : Prefix.ofByte? r.byte = none := by
  have h : ∀ w r x b : Bool, Prefix.ofByte? (Rex.byte ⟨w, r, x, b⟩) = none := by decide
  exact h r.w r.r r.x r.b

theorem prefix_byte_ne_zero (p : Prefix) : p.byte ≠ 0#8 := by
  cases p with
  | droppedRex w => revert w; decide
  | seg s => cases s <;> decide
  | _ => decide

/-- The bytes that begin the opcode part of the six forms (R95, R96, R97, R100). -/
def opcodeStarts : List Byte := [0x0F, 0xC5, 0xC4, 0x62]

theorem ofByte?_of_mem_opcodeStarts {b : Byte} (h : b ∈ opcodeStarts) : Prefix.ofByte? b = none := by
  revert b; decide

theorem isRexByte_of_mem_opcodeStarts (m : Mode) {b : Byte} (h : b ∈ opcodeStarts) :
    isRexByte m b = false := by
  have hnot : ∀ b ∈ opcodeStarts, b.extractLsb' 4 4 ≠ 4#4 := by decide
  simp [isRexByte, hnot b h]

/-! ### Runs of prefixes -/

theorem splitPrefixes_opcode (m : Mode) (rex : Option Rex) {b : Byte} (rest : List Byte)
    (hb : b ∈ opcodeStarts) :
    splitPrefixes m (rexBytes rex ++ b :: rest) = ([], rexBytes rex ++ b :: rest) := by
  cases rex with
  | none => simp [rexBytes, splitPrefixes, ofByte?_of_mem_opcodeStarts hb, isRexByte_of_mem_opcodeStarts m hb]
  | some r => simp [rexBytes, splitPrefixes, ofByte?_rexByte, ofByte?_of_mem_opcodeStarts hb]

theorem takeRex_opcode {m : Mode} {rex : Option Rex} {b : Byte} (rest : List Byte)
    (hrex : m = .long64 ∨ rex = none) (hb : b ∈ opcodeStarts) :
    takeRex m (rexBytes rex ++ b :: rest) = (rex, b :: rest) := by
  cases rex with
  | none => simp [rexBytes, takeRex, isRexByte_of_mem_opcodeStarts m hb]
  | some r =>
    obtain rfl : m = .long64 := hrex.resolve_right (by simp)
    simp [rexBytes, takeRex, isRexByte_rexByte, rex_ofByte_byte]

theorem takeRex_spec (m : Mode) (bytes : List Byte) :
    bytes = rexBytes (takeRex m bytes).1 ++ (takeRex m bytes).2 ∧
      (m = .long64 ∨ (takeRex m bytes).1 = none) := by
  cases bytes with
  | nil => exact ⟨rfl, .inr rfl⟩
  | cons b bytes =>
    simp only [takeRex]
    split_ifs with hb
    · obtain ⟨hm, hbyte, -⟩ := rex_byte_ofByte hb
      exact ⟨by rw [rexBytes, hbyte]; rfl, .inl hm⟩
    · exact ⟨rfl, .inr rfl⟩

/-- A run of prefixes as it stands before an opcode: each dropped REX byte has a legacy one after it, and
there is one in 64-bit mode only (R94). -/
structure PrefixRun (m : Mode) (pre : List Prefix) : Prop where
  dropped : droppedRexOk pre = true
  rexMode : ∀ w, .droppedRex w ∈ pre → m = .long64

theorem PrefixRun.nil (m : Mode) : PrefixRun m [] := ⟨rfl, nofun⟩

theorem droppedRexOk_cons_of_legacy {p : Prefix} (pre : List Prefix) (hp : ∀ w, p ≠ .droppedRex w) :
    droppedRexOk (p :: pre) = droppedRexOk pre := by
  cases p with
  | droppedRex w => exact absurd rfl (hp w)
  | _ => rfl

theorem droppedRexOk_droppedRex_cons_iff {w : BitVec 4} {pre : List Prefix} :
    droppedRexOk (.droppedRex w :: pre) = true ↔
      ∃ q pre', pre = q :: pre' ∧ (∀ v, q ≠ .droppedRex v) ∧ droppedRexOk pre' = true := by
  cases pre with
  | nil => simp [droppedRexOk]
  | cons q pre => cases q <;> simp [droppedRexOk]

/-- What is taken off as prefixes is a run of them, standing before a rest that begins with none. -/
theorem splitPrefixes_spec (m : Mode) (bytes : List Byte) :
    bytes = preBytes (splitPrefixes m bytes).1 ++ (splitPrefixes m bytes).2 ∧
      PrefixRun m (splitPrefixes m bytes).1 ∧
      splitPrefixes m (splitPrefixes m bytes).2 = ([], (splitPrefixes m bytes).2) := by
  induction bytes with
  | nil => exact ⟨rfl, .nil m, rfl⟩
  | cons b bytes ih =>
    obtain ⟨hbytes, hrun, hrest⟩ := ih
    cases hb : Prefix.ofByte? b with
    | some p =>
      obtain ⟨hbyte, hp⟩ := byte_of_ofByte? hb
      have hsplit : splitPrefixes m (b :: bytes) =
          (p :: (splitPrefixes m bytes).1, (splitPrefixes m bytes).2) := by rw [splitPrefixes, hb]
      rw [hsplit]
      refine ⟨?_, ⟨?_, ?_⟩, hrest⟩
      · rw [preBytes, List.map_cons, hbyte, List.cons_append]
        exact congrArg _ hbytes
      · rw [droppedRexOk_cons_of_legacy _ hp]
        exact hrun.dropped
      · intro w hw
        exact hrun.rexMode w ((List.mem_cons.mp hw).resolve_left (hp w).symm)
    | none =>
      by_cases hrex : (isRexByte m b && (bytes.head?.bind Prefix.ofByte?).isSome) = true
      · obtain ⟨hisRex, hnext⟩ := Bool.and_eq_true_iff.mp hrex
        obtain ⟨hm, -, hbyte⟩ := rex_byte_ofByte hisRex
        have hsplit : splitPrefixes m (b :: bytes) =
            (.droppedRex (b.extractLsb' 0 4) :: (splitPrefixes m bytes).1, (splitPrefixes m bytes).2) := by
          rw [splitPrefixes, hb]
          exact if_pos hrex
        rw [hsplit]
        refine ⟨?_, ⟨?_, fun _ _ => hm⟩, hrest⟩
        · rw [preBytes, List.map_cons, hbyte, List.cons_append]
          exact congrArg _ hbytes
        · cases bytes with
          | nil => simp at hnext
          | cons c bytes =>
            obtain ⟨q, hq⟩ := Option.isSome_iff_exists.mp hnext
            have hq' : Prefix.ofByte? c = some q := hq
            obtain ⟨-, hlegacy⟩ := byte_of_ofByte? hq'
            have hdropped := hrun.dropped
            simp only [splitPrefixes, hq', droppedRexOk_cons_of_legacy _ hlegacy] at hdropped ⊢
            exact droppedRexOk_droppedRex_cons_iff.mpr ⟨q, _, rfl, hlegacy, hdropped⟩
      · have hsplit : splitPrefixes m (b :: bytes) = ([], b :: bytes) := by
          rw [splitPrefixes, hb]
          exact if_neg hrex
        rw [hsplit]
        exact ⟨rfl, .nil m, hsplit⟩

theorem droppedRexOk_insert {p : Prefix} {pre : List Prefix} (hp : ∀ w, p ≠ .droppedRex w) (k : Nat)
    (h : droppedRexOk pre = true) : droppedRexOk (pre.take k ++ p :: pre.drop k) = true := by
  induction pre generalizing k with
  | nil => simpa only [List.take_nil, List.drop_nil, List.nil_append, droppedRexOk_cons_of_legacy _ hp] using h
  | cons q pre ih =>
    cases k with
    | zero => exact (droppedRexOk_cons_of_legacy _ hp).trans h
    | succ k =>
      rw [List.take_succ_cons, List.drop_succ_cons, List.cons_append]
      by_cases hq : ∀ w, q ≠ .droppedRex w
      · rw [droppedRexOk_cons_of_legacy _ hq] at h ⊢
        exact ih k h
      · obtain ⟨w, rfl⟩ : ∃ w, q = .droppedRex w := by simpa using hq
        obtain ⟨q, pre', rfl, hq, hpre'⟩ := droppedRexOk_droppedRex_cons_iff.mp h
        rw [← droppedRexOk_cons_of_legacy pre' hq] at hpre'
        rw [droppedRexOk_droppedRex_cons_iff]
        cases k with
        | zero => exact ⟨p, _, rfl, hp, hpre'⟩
        | succ k =>
          have hrest := ih (k + 1) hpre'
          rw [List.take_succ_cons, List.drop_succ_cons, List.cons_append] at hrest ⊢
          exact ⟨q, _, rfl, hq, (droppedRexOk_cons_of_legacy _ hq).symm.trans hrest⟩

/-- A byte of R92 can be put at any place among prefixes. -/
theorem PrefixRun.insert {m : Mode} {pre : List Prefix} {p : Prefix} (h : PrefixRun m pre)
    (hp : ∀ w, p ≠ .droppedRex w) (k : Nat) : PrefixRun m (pre.take k ++ p :: pre.drop k) where
  dropped := droppedRexOk_insert hp k h.dropped
  rexMode w hw := by
    rw [List.mem_append, List.mem_cons] at hw
    obtain hw | hw | hw := hw
    · exact h.rexMode w (List.mem_of_mem_take hw)
    · exact absurd hw.symm (hp w)
    · exact h.rexMode w (List.mem_of_mem_drop hw)

/-- Decoding takes the prefixes and REX off and goes on with the class of the opcode (R114). -/
theorem decode_prefixed {m : Mode} {pre : List Prefix} {rex : Option Rex} {b : Byte} (rest : List Byte)
    (hrun : PrefixRun m pre) (hlen : pre.length < 15) (hrex : m = .long64 ∨ rex = none)
    (hb : b ∈ opcodeStarts) :
    decode m (preBytes pre ++ (rexBytes rex ++ b :: rest)) = decodeClass m pre rex (b :: rest) := by
  have hsplit := splitPrefixes_preBytes hrun.dropped hrun.rexMode (splitPrefixes_opcode m rex rest hb)
  simp only [decode, hsplit, takeRex_opcode rest hrex hb]
  exact if_neg (by omega)

/-- Without prefixes and REX decoding begins with the class. -/
theorem decode_opcode (m : Mode) {b : Byte} (rest : List Byte) (hb : b ∈ opcodeStarts) :
    decode m (b :: rest) = decodeClass m [] none (b :: rest) :=
  decode_prefixed rest (.nil m) (by decide) (.inr rfl) hb

/-! ### The classes by their first byte (R114 step 3) -/

theorem decodeClass_0F_5C (m : Mode) (pre : List Prefix) (rex : Option Rex) (tail : List Byte) :
    decodeClass m pre rex (0x0F#8 :: 0x5C#8 :: tail) = decodeLegacy m pre rex tail := rfl

theorem decodeClass_C5 (m : Mode) (pre : List Prefix) (rex : Option Rex) (rest : List Byte) :
    decodeClass m pre rex (0xC5#8 :: rest) = decodeVex2 m pre rex rest := rfl

theorem decodeClass_C4 (m : Mode) (pre : List Prefix) (rex : Option Rex) (rest : List Byte) :
    decodeClass m pre rex (0xC4#8 :: rest) = decodeVex3 m pre rex rest := rfl

theorem decodeClass_62 (m : Mode) (pre : List Prefix) (rex : Option Rex) (rest : List Byte) :
    decodeClass m pre rex (0x62#8 :: rest) = decodeEvex m pre rex rest := rfl

/-! ### The prefixes a form may have (R92, R99, R105) -/

theorem prefixesOk_iff {m : Mode} {pre : List Prefix} :
    prefixesOk m pre = true ↔ PrefixRun m pre ∧ .lock ∉ pre ∧ .repne ∉ pre ∧ .rep ∉ pre := by
  rw [prefixesOk, Bool.and_eq_true, List.all_eq_true]
  constructor
  · rintro ⟨hdropped, hall⟩
    exact ⟨⟨hdropped, fun w hw => by simpa using hall _ hw⟩, fun h => by simpa using hall _ h,
      fun h => by simpa using hall _ h, fun h => by simpa using hall _ h⟩
  · rintro ⟨hrun, hlock, hrepne, hrep⟩
    refine ⟨hrun.dropped, fun p hp => ?_⟩
    cases p with
    | droppedRex w => simpa using hrun.rexMode w hp
    | lock => exact absurd hp hlock
    | repne => exact absurd hp hrepne
    | rep => exact absurd hp hrep
    | _ => rfl

theorem any_forbiddenBeforeVex_eq_false_iff {pre : List Prefix} :
    pre.any Prefix.forbiddenBeforeVex = false ↔
      .opSize ∉ pre ∧ .lock ∉ pre ∧ .repne ∉ pre ∧ .rep ∉ pre := by
  rw [List.any_eq_false]
  constructor
  · intro h
    exact ⟨fun hp => h _ hp rfl, fun hp => h _ hp rfl, fun hp => h _ hp rfl, fun hp => h _ hp rfl⟩
  · rintro ⟨hop, hlock, hrepne, hrep⟩ p hp
    cases p with
    | opSize => exact absurd hp hop
    | lock => exact absurd hp hlock
    | repne => exact absurd hp hrepne
    | rep => exact absurd hp hrep
    | _ => nofun

/-- Before a VEX or EVEX byte the allowed prefixes are those that are not forbidden. -/
theorem prefixesOk_noOpSize_iff {m : Mode} {pre : List Prefix} :
    prefixesOk m pre = true ∧ noOpSize pre = true ↔
      PrefixRun m pre ∧ pre.any Prefix.forbiddenBeforeVex = false := by
  rw [prefixesOk_iff, any_forbiddenBeforeVex_eq_false_iff, noOpSize, Bool.not_eq_true', List.contains_eq_mem,
    decide_eq_false_iff_not]
  tauto

end Sys2Proof
end

