-- ==== Sys2Proof/Proofs/DecodeEncode.lean ====
section
/-! SUPPORT. Each class of the decoder answers an instruction exactly for the encodings of well-formed ones, so
decoding and encoding undo each other (R90 to R114). -/

namespace Sys2Proof

/-! ### The layout of an encoding -/

/-- The REX byte, which the legacy form alone can have (R94). -/
def Instr.rex : Instr → Option Rex
  | .subpd _ rex _ _ => rex
  | _ => none

/-- The bytes after prefixes and REX (R95 to R105). -/
def Instr.opcodeBytes : Instr → List Byte
  | .subpd _ _ reg rm => 0x0F#8 :: 0x5C#8 :: encodeRm reg rm
  | .vsubpdVex2x128 _ p reg rm => 0xC5#8 :: p.byte false :: 0x5C#8 :: encodeRm reg rm
  | .vsubpdVex3x128 _ p reg rm => 0xC4#8 :: p.byte1 :: p.byte2 false :: 0x5C#8 :: encodeRm reg rm
  | .vsubpdVex2x256 _ p reg rm => 0xC5#8 :: p.byte true :: 0x5C#8 :: encodeRm reg rm
  | .vsubpdVex3x256 _ p reg rm => 0xC4#8 :: p.byte1 :: p.byte2 true :: 0x5C#8 :: encodeRm reg rm
  | .vsubpdEvex128 _ e b reg rm => 0x62#8 :: e.p0 :: e.p1 :: e.p2 0 b :: 0x5C#8 :: encodeRm reg rm
  | .vsubpdEvex256 _ e b reg rm => 0x62#8 :: e.p0 :: e.p1 :: e.p2 1 b :: 0x5C#8 :: encodeRm reg rm
  | .vsubpdEvex512 _ e b reg rm => 0x62#8 :: e.p0 :: e.p1 :: e.p2 2 b :: 0x5C#8 :: encodeRm reg rm
  | .vsubpdEvex512er _ e rc reg rm =>
    0x62#8 :: e.p0 :: e.p1 :: e.p2 rc.bits true :: 0x5C#8 :: encodeRm reg (.reg rm)

/-- The operand of ModRM, SIB and displacement (R107 to R110). -/
def Instr.operand : Instr → RmOperand
  | .subpd _ _ _ rm => rm
  | .vsubpdVex2x128 _ _ _ rm => rm
  | .vsubpdVex3x128 _ _ _ rm => rm
  | .vsubpdVex2x256 _ _ _ rm => rm
  | .vsubpdVex3x256 _ _ _ rm => rm
  | .vsubpdEvex128 _ _ _ _ rm => rm
  | .vsubpdEvex256 _ _ _ _ rm => rm
  | .vsubpdEvex512 _ _ _ _ rm => rm
  | .vsubpdEvex512er _ _ _ _ rm => .reg rm

theorem encode_eq (i : Instr) : encode i = preBytes i.prefixes ++ (rexBytes i.rex ++ i.opcodeBytes) := by
  cases i with
  | subpd pre rex reg rm => exact List.append_assoc _ _ _
  | _ => rfl

/-- The encoding has the instruction's length. -/
theorem length_encode (i : Instr) : (encode i).length = i.length := by
  cases i with
  | subpd pre rex reg rm => exact Laws.EncodedLength.subpd pre rex reg rm
  | vsubpdVex2x128 pre p reg rm => exact Laws.EncodedLength.vsubpdVex2x128 pre p reg rm
  | vsubpdVex3x128 pre p reg rm => exact Laws.EncodedLength.vsubpdVex3x128 pre p reg rm
  | vsubpdVex2x256 pre p reg rm => exact Laws.EncodedLength.vsubpdVex2x256 pre p reg rm
  | vsubpdVex3x256 pre p reg rm => exact Laws.EncodedLength.vsubpdVex3x256 pre p reg rm
  | vsubpdEvex128 pre e b reg rm => exact Laws.EncodedLength.vsubpdEvex128 pre e b reg rm
  | vsubpdEvex256 pre e b reg rm => exact Laws.EncodedLength.vsubpdEvex256 pre e b reg rm
  | vsubpdEvex512 pre e b reg rm => exact Laws.EncodedLength.vsubpdEvex512 pre e b reg rm
  | vsubpdEvex512er pre e rc reg rm => exact Laws.EncodedLength.vsubpdEvex512er pre e rc reg rm

theorem exists_opcodeBytes_append (i : Instr) (rest : List Byte) :
    ∃ b ∈ opcodeStarts, ∃ bytes, i.opcodeBytes ++ rest = b :: bytes := by
  cases i <;> exact ⟨_, by decide, _, rfl⟩

theorem commonOk_iff {m : Mode} {pre : List Prefix} {rm : RmOperand} {len : Nat} :
    commonOk m pre rm len = true ↔
      (m = .long64 ∨ m = .prot32) ∧ prefixesOk m pre = true ∧ rm.ok = true ∧
        addressingOk m pre rm = true ∧ len ≤ 15 := by
  simp only [commonOk, Bool.and_eq_true, Bool.or_eq_true, decide_eq_true_eq, and_assoc]

theorem commonOk_of_wellFormed {m : Mode} {i : Instr} (h : wellFormed m i = true) :
    commonOk m i.prefixes i.operand i.length = true := by
  cases i with
  | subpd pre rex reg rm => exact (Bool.and_eq_true_iff.mp h).1
  | _ =>
    simp only [wellFormed, Bool.and_eq_true, and_assoc] at h
    exact h.1

theorem operand_ok_of_wellFormed {m : Mode} {i : Instr} (h : wellFormed m i = true) :
    i.operand.ok = true := by
  obtain ⟨-, -, hok, -, -⟩ := commonOk_iff.mp (commonOk_of_wellFormed h)
  exact hok

/-- What the well-formedness of any form asks of its prefixes and REX. -/
theorem prefixRun_of_wellFormed {m : Mode} {i : Instr} (h : wellFormed m i = true) :
    PrefixRun m i.prefixes ∧ (m = .long64 ∨ i.rex = none) ∧ i.prefixes.length + 3 ≤ i.length ∧
      i.length ≤ 15 := by
  obtain ⟨-, hpre, -, -, hshort⟩ := commonOk_iff.mp (commonOk_of_wellFormed h)
  refine ⟨(prefixesOk_iff.mp hpre).1, ?_, ?_, hshort⟩
  · cases i with
    | subpd pre rex reg rm =>
      simp only [wellFormed, legacyOk, Bool.and_eq_true, Bool.or_eq_true, decide_eq_true_eq,
        Option.isNone_iff_eq_none] at h
      obtain ⟨-, -, hrex⟩ := h
      exact hrex
    | _ => exact .inr rfl
  · cases i with
    | subpd pre rex reg rm =>
      have hrm := rm.one_le_length
      simp only [Instr.length, Instr.prefixes]
      omega
    | _ => simp only [Instr.length, Instr.prefixes]; omega

theorem prefixesOk_of_commonOk {m : Mode} {pre : List Prefix} {rm : RmOperand} {len : Nat}
    (h : commonOk m pre rm len = true) : prefixesOk m pre = true := by
  obtain ⟨-, hpre, -⟩ := commonOk_iff.mp h
  exact hpre

/-- Behind allowed prefixes the operand stage answers what has the common part of well-formedness. -/
theorem withOperand_eq_instr_iff_commonOk {m : Mode} {pre : List Prefix} {c : FormClass} {len : Nat}
    {tail : List Byte} {mk : BitVec 3 → RmOperand → Option Instr} {i : Instr}
    (hpre : prefixesOk m pre = true) :
    withOperand m pre c len tail mk = .instr i ↔
      ∃ reg rm rest, tail = encodeRm reg rm ++ rest ∧ commonOk m pre rm (len + rm.length) = true ∧
        mk reg rm = some i := by
  simp only [withOperand_eq_instr_iff, decodeRm_eq_some_iff, commonOk_iff, hpre, true_and]
  constructor
  · rintro ⟨reg, rm, rest, ⟨hok, htail⟩, hmode, haddr, hlen, hi⟩
    exact ⟨reg, rm, rest, htail, ⟨hmode, hok, haddr, hlen⟩, hi⟩
  · rintro ⟨reg, rm, rest, htail, ⟨hmode, hok, haddr, hlen⟩, hi⟩
    exact ⟨reg, rm, rest, ⟨hok, htail⟩, hmode, haddr, hlen, hi⟩

theorem illegal_ne_instr (n : Nat) (i : Instr) : illegal n ≠ .instr i := by
  unfold illegal
  split_ifs <;> nofun

/-! ### The legacy class (R95) -/

theorem decodeLegacy_eq_instr_iff {m : Mode} {pre : List Prefix} {rex : Option Rex} {tail : List Byte}
    {i : Instr} (hrun : PrefixRun m pre) (hrex : m = .long64 ∨ rex = none) :
    decodeLegacy m pre rex tail = .instr i ↔
      ∃ reg rm rest, i = .subpd pre rex reg rm ∧ wellFormed m i = true ∧ tail = encodeRm reg rm ++ rest := by
  have hlegacy : legacyOk m pre rex = true ↔ .opSize ∈ pre := by simp [legacyOk, hrex]
  constructor
  · intro h
    simp only [decodeLegacy] at h
    split_ifs at h with hlock hrep hrepne hop
    · exact absurd h (illegal_ne_instr _ _)
    simp only [List.contains_eq_mem, decide_eq_true_eq, Bool.not_eq_true', decide_eq_false_iff_not,
      not_not] at hlock hrep hrepne hop
    have hpre := prefixesOk_iff.mpr ⟨hrun, hlock, hrepne, hrep⟩
    obtain ⟨reg, rm, rest, rfl, hcommon, hi⟩ := (withOperand_eq_instr_iff_commonOk hpre).mp h
    obtain rfl := Option.some.inj hi
    exact ⟨reg, rm, rest, rfl, Bool.and_eq_true_iff.mpr ⟨hcommon, hlegacy.mpr hop⟩, rfl⟩
  · rintro ⟨reg, rm, rest, rfl, hwf, rfl⟩
    obtain ⟨hcommon, hop⟩ := Bool.and_eq_true_iff.mp hwf
    have hop := hlegacy.mp hop
    have hpre := prefixesOk_of_commonOk hcommon
    obtain ⟨-, hlock, hrepne, hrep⟩ := prefixesOk_iff.mp hpre
    simp only [decodeLegacy, List.contains_eq_mem, hlock, hrep, hrepne, hop, decide_true, decide_false,
      Bool.not_true, Bool.false_eq_true, if_false]
    exact (withOperand_eq_instr_iff_commonOk hpre).mpr ⟨reg, rm, rest, rfl, hcommon, rfl⟩

/-! ### The two-byte VEX class (R96) -/

/-- The instruction of the two-byte class, `l` being `VEX.L` (R98). -/
def vex2Instr (l : Bool) (pre : List Prefix) (p : Vex2) (reg : BitVec 3) (rm : RmOperand) : Instr :=
  if l then .vsubpdVex2x256 pre p reg rm else .vsubpdVex2x128 pre p reg rm

theorem wellFormed_vex2Instr_iff {m : Mode} {l : Bool} {pre : List Prefix} {p : Vex2} {reg : BitVec 3}
    {rm : RmOperand} :
    wellFormed m (vex2Instr l pre p reg rm) = true ↔
      commonOk m pre rm (pre.length + 3 + rm.length) = true ∧ noOpSize pre = true ∧ p.ok m = true := by
  rw [← and_assoc, ← Bool.and_eq_true, ← Bool.and_eq_true]
  cases l <;> rfl

theorem vex2_byte_low (p : Vex2) (l : Bool) :
    (p.byte l).extractLsb' 0 2 = 1#2 ∧ (p.byte l).getLsbD 2 = l := by
  have h : ∀ (r l : Bool) (v : BitVec 4), (Vex2.byte ⟨r, v⟩ l).extractLsb' 0 2 = 1#2 ∧
      (Vex2.byte ⟨r, v⟩ l).getLsbD 2 = l := by decide +kernel
  exact h p.r l p.vvvv

theorem startsVex_vex2 (m : Mode) (p : Vex2) (l : Bool) : startsVex m (p.byte l) = p.ok m := by
  have h : ∀ (r l : Bool) (v : BitVec 4),
      decide ((Vex2.byte ⟨r, v⟩ l).extractLsb' 6 2 = 3#2) = (!r && !v.getLsbD 3) := by decide +kernel
  rw [startsVex, Vex2.ok, h p.r l p.vvvv]

theorem vex2_byte_ofByte {b : Byte} (h : b.extractLsb' 0 2 = 1#2) :
    (Vex2.ofByte b).byte (b.getLsbD 2) = b := by
  revert b; decide +kernel

/-- The two-byte VEX class, once its bytes are there (R114 step 3). -/
theorem decodeVex2_cons (m : Mode) (pre : List Prefix) (rex : Option Rex) (b op : Byte) (tail : List Byte) :
    decodeVex2 m pre rex (b :: op :: tail) =
      if !startsVex m b then .foreign .ldsLesBound (pre.length + rexLength rex + 2)
      else if pre.any Prefix.forbiddenBeforeVex || rex.isSome then
        illegalVex m pre (pre.length + rexLength rex + 3) op tail
      else if b.extractLsb' 0 2 ≠ 1#2 ∨ op ≠ 0x5C#8 then .foreign .otherVex (pre.length + rexLength rex + 3)
      else withOperand m pre .vex (pre.length + rexLength rex + 3) tail fun reg rm =>
        some (vex2Instr (b.getLsbD 2) pre (Vex2.ofByte b) reg rm) := rfl

theorem decodeVex2_eq_instr_iff {m : Mode} {pre : List Prefix} {rex : Option Rex} {bytes : List Byte}
    {i : Instr} (hrun : PrefixRun m pre) :
    decodeVex2 m pre rex bytes = .instr i ↔
      rex = none ∧ ∃ l p reg rm rest, i = vex2Instr l pre p reg rm ∧ wellFormed m i = true ∧
        bytes = p.byte l :: 0x5C#8 :: (encodeRm reg rm ++ rest) := by
  constructor
  · intro h
    match bytes, h with
    | b :: op :: tail, h =>
      rw [decodeVex2_cons] at h
      split_ifs at h with hstart hforbidden h5c
      · exact absurd h (illegal_ne_instr _ _)
      rw [Bool.not_eq_true, Bool.or_eq_false_iff, Option.isSome_eq_false_iff, Option.isNone_iff_eq_none]
        at hforbidden
      obtain ⟨hforbidden, rfl⟩ := hforbidden
      rw [not_or, not_not, not_not] at h5c
      obtain ⟨hlow, rfl⟩ := h5c
      obtain ⟨hpre, hop⟩ := prefixesOk_noOpSize_iff.mpr ⟨hrun, hforbidden⟩
      obtain ⟨reg, rm, rest, rfl, hcommon, hi⟩ := (withOperand_eq_instr_iff_commonOk hpre).mp h
      obtain rfl := Option.some.inj hi
      have hbyte := vex2_byte_ofByte hlow
      refine ⟨rfl, b.getLsbD 2, Vex2.ofByte b, reg, rm, rest, rfl,
        wellFormed_vex2Instr_iff.mpr ⟨hcommon, hop, ?_⟩, by rw [hbyte]⟩
      rw [← startsVex_vex2 m _ (b.getLsbD 2), hbyte]
      simpa using hstart
  · rintro ⟨rfl, l, p, reg, rm, rest, rfl, hwf, rfl⟩
    obtain ⟨hcommon, hop, hp⟩ := wellFormed_vex2Instr_iff.mp hwf
    have hpre := prefixesOk_of_commonOk hcommon
    obtain ⟨-, hforbidden⟩ := prefixesOk_noOpSize_iff.mp ⟨hpre, hop⟩
    obtain ⟨hlow, hl⟩ := vex2_byte_low p l
    rw [decodeVex2_cons]
    simp only [startsVex_vex2, hp, hforbidden, hlow, hl, vex2_ofByte_byte, ne_eq, not_true_eq_false, or_self,
      Bool.not_true, Bool.false_eq_true, Bool.false_or, Option.isSome_none, if_false]
    exact (withOperand_eq_instr_iff_commonOk hpre).mpr ⟨reg, rm, rest, rfl, hcommon, rfl⟩

/-! ### The three-byte VEX class (R97) -/

/-- The instruction of the three-byte class, `l` being `VEX.L` (R98). -/
def vex3Instr (l : Bool) (pre : List Prefix) (p : Vex3) (reg : BitVec 3) (rm : RmOperand) : Instr :=
  if l then .vsubpdVex3x256 pre p reg rm else .vsubpdVex3x128 pre p reg rm

theorem wellFormed_vex3Instr_iff {m : Mode} {l : Bool} {pre : List Prefix} {p : Vex3} {reg : BitVec 3}
    {rm : RmOperand} :
    wellFormed m (vex3Instr l pre p reg rm) = true ↔
      commonOk m pre rm (pre.length + 4 + rm.length) = true ∧ noOpSize pre = true ∧ p.ok m = true := by
  rw [← and_assoc, ← Bool.and_eq_true, ← Bool.and_eq_true]
  cases l <;> rfl

theorem vex3_bytes_low (p : Vex3) (l : Bool) :
    p.byte1.extractLsb' 0 5 = 1#5 ∧ (p.byte2 l).extractLsb' 0 2 = 1#2 ∧ (p.byte2 l).getLsbD 2 = l := by
  have h : ∀ (r x b w l : Bool) (v : BitVec 4), (Vex3.byte1 ⟨r, x, b, w, v⟩).extractLsb' 0 5 = 1#5 ∧
      (Vex3.byte2 ⟨r, x, b, w, v⟩ l).extractLsb' 0 2 = 1#2 ∧
      (Vex3.byte2 ⟨r, x, b, w, v⟩ l).getLsbD 2 = l := by decide +kernel
  exact h p.r p.x p.b p.w l p.vvvv

theorem startsVex_vex3 (m : Mode) (p : Vex3) : startsVex m p.byte1 = p.ok m := by
  have h : ∀ r x b : Bool, decide ((Vex3.byte1 ⟨r, x, b, false, 0⟩).extractLsb' 6 2 = 3#2) = (!r && !x) := by
    decide
  rw [startsVex, Vex3.ok, ← h p.r p.x p.b]
  rfl

theorem vex3_bytes_ofBytes {b1 b2 : Byte} (h1 : b1.extractLsb' 0 5 = 1#5) (h2 : b2.extractLsb' 0 2 = 1#2) :
    (Vex3.ofBytes b1 b2).byte1 = b1 ∧ (Vex3.ofBytes b1 b2).byte2 (b2.getLsbD 2) = b2 := by
  have hb1 : ∀ b1 : Byte, b1.extractLsb' 0 5 = 1#5 → (Vex3.ofBytes b1 0).byte1 = b1 := by decide +kernel
  have hb2 : ∀ b2 : Byte, b2.extractLsb' 0 2 = 1#2 →
      (Vex3.ofBytes 0 b2).byte2 (b2.getLsbD 2) = b2 := by decide +kernel
  exact ⟨hb1 b1 h1, hb2 b2 h2⟩

/-- The three-byte VEX class, once its bytes are there (R114 step 3). -/
theorem decodeVex3_cons (m : Mode) (pre : List Prefix) (rex : Option Rex) (b1 b2 op : Byte)
    (tail : List Byte) :
    decodeVex3 m pre rex (b1 :: b2 :: op :: tail) =
      if !startsVex m b1 then .foreign .ldsLesBound (pre.length + rexLength rex + 2)
      else if pre.any Prefix.forbiddenBeforeVex || rex.isSome then
        illegalVex m pre (pre.length + rexLength rex + 4) op tail
      else if b1.extractLsb' 0 5 ≠ 1#5 ∨ b2.extractLsb' 0 2 ≠ 1#2 ∨ op ≠ 0x5C#8 then
        .foreign .otherVex (pre.length + rexLength rex + 4)
      else withOperand m pre .vex (pre.length + rexLength rex + 4) tail fun reg rm =>
        some (vex3Instr (b2.getLsbD 2) pre (Vex3.ofBytes b1 b2) reg rm) := rfl

theorem decodeVex3_eq_instr_iff {m : Mode} {pre : List Prefix} {rex : Option Rex} {bytes : List Byte}
    {i : Instr} (hrun : PrefixRun m pre) :
    decodeVex3 m pre rex bytes = .instr i ↔
      rex = none ∧ ∃ l p reg rm rest, i = vex3Instr l pre p reg rm ∧ wellFormed m i = true ∧
        bytes = p.byte1 :: p.byte2 l :: 0x5C#8 :: (encodeRm reg rm ++ rest) := by
  constructor
  · intro h
    match bytes, h with
    | b1 :: b2 :: op :: tail, h =>
      rw [decodeVex3_cons] at h
      split_ifs at h with hstart hforbidden h5c
      · exact absurd h (illegal_ne_instr _ _)
      rw [Bool.not_eq_true, Bool.or_eq_false_iff, Option.isSome_eq_false_iff, Option.isNone_iff_eq_none]
        at hforbidden
      obtain ⟨hforbidden, rfl⟩ := hforbidden
      rw [not_or, not_or, not_not, not_not, not_not] at h5c
      obtain ⟨hmap, hlow, rfl⟩ := h5c
      obtain ⟨hpre, hop⟩ := prefixesOk_noOpSize_iff.mpr ⟨hrun, hforbidden⟩
      obtain ⟨reg, rm, rest, rfl, hcommon, hi⟩ := (withOperand_eq_instr_iff_commonOk hpre).mp h
      obtain rfl := Option.some.inj hi
      obtain ⟨hbyte1, hbyte2⟩ := vex3_bytes_ofBytes hmap hlow
      refine ⟨rfl, b2.getLsbD 2, Vex3.ofBytes b1 b2, reg, rm, rest, rfl,
        wellFormed_vex3Instr_iff.mpr ⟨hcommon, hop, ?_⟩, by rw [hbyte1, hbyte2]⟩
      rw [← startsVex_vex3, hbyte1]
      simpa using hstart
  · rintro ⟨rfl, l, p, reg, rm, rest, rfl, hwf, rfl⟩
    obtain ⟨hcommon, hop, hp⟩ := wellFormed_vex3Instr_iff.mp hwf
    have hpre := prefixesOk_of_commonOk hcommon
    obtain ⟨-, hforbidden⟩ := prefixesOk_noOpSize_iff.mp ⟨hpre, hop⟩
    obtain ⟨hmap, hlow, hl⟩ := vex3_bytes_low p l
    rw [decodeVex3_cons]
    simp only [startsVex_vex3, hp, hforbidden, hmap, hlow, hl, vex3_ofBytes_bytes, ne_eq, not_true_eq_false, or_self,
      Bool.not_true, Bool.false_eq_true, Bool.false_or, Option.isSome_none, if_false]
    exact (withOperand_eq_instr_iff_commonOk hpre).mpr ⟨reg, rm, rest, rfl, hcommon, rfl⟩

/-! ### The EVEX class (R100 to R105) -/

theorem rounding_bits_ofBits (ll : BitVec 2) : (Rounding.ofBits ll).bits = ll := by
  revert ll; decide

theorem rounding_ofBits_bits (rc : Rounding) : Rounding.ofBits rc.bits = rc := by
  cases rc <;> rfl

/-- The row that the fields of an EVEX encoding select (R102, R103). -/
theorem evexInstr_eq_some_iff {pre : List Prefix} {e : Evex} {ll : BitVec 2} {b : Bool} {reg : BitVec 3}
    {rm : RmOperand} {i : Instr} :
    evexInstr pre e ll b reg rm = some i ↔
      (∃ r, rm = .reg r ∧ b = true ∧ i = .vsubpdEvex512er pre e (Rounding.ofBits ll) reg r) ∨
      bcstOk b rm = true ∧ (ll = 0 ∧ i = .vsubpdEvex128 pre e b reg rm ∨
        ll = 1 ∧ i = .vsubpdEvex256 pre e b reg rm ∨ ll = 2 ∧ i = .vsubpdEvex512 pre e b reg rm) := by
  unfold evexInstr
  split
  · constructor
    · intro h
      exact .inl ⟨_, rfl, rfl, (Option.some.inj h).symm⟩
    · rintro (⟨r, hr, -, rfl⟩ | ⟨hbcst, -⟩)
      · cases hr
        rfl
      · cases hbcst
  · rename_i hrow
    have hbcst : bcstOk b rm = true := by
      cases rm <;> cases b <;> simp_all [bcstOk, RmOperand.isMem]
    constructor
    · intro h
      refine .inr ⟨hbcst, ?_⟩
      split_ifs at h with h0 h1 h2
      · exact .inl ⟨h0, (Option.some.inj h).symm⟩
      · exact .inr (.inl ⟨h1, (Option.some.inj h).symm⟩)
      · exact .inr (.inr ⟨h2, (Option.some.inj h).symm⟩)
    · rintro (⟨r, rfl, rfl, -⟩ | ⟨-, ⟨rfl, rfl⟩ | ⟨rfl, rfl⟩ | ⟨rfl, rfl⟩⟩)
      · cases hbcst
      all_goals rfl

theorem evexInstr_layout {pre : List Prefix} {e : Evex} {ll : BitVec 2} {b : Bool} {reg : BitVec 3}
    {rm : RmOperand} {i : Instr} (h : evexInstr pre e ll b reg rm = some i) :
    i.prefixes = pre ∧ i.rex = none ∧
      i.opcodeBytes = 0x62#8 :: e.p0 :: e.p1 :: e.p2 ll b :: 0x5C#8 :: encodeRm reg rm := by
  obtain ⟨r, rfl, rfl, rfl⟩ | ⟨-, ⟨rfl, rfl⟩ | ⟨rfl, rfl⟩ | ⟨rfl, rfl⟩⟩ := evexInstr_eq_some_iff.mp h
  · exact ⟨rfl, rfl, by simp only [Instr.opcodeBytes, rounding_bits_ofBits]⟩
  all_goals exact ⟨rfl, rfl, rfl⟩

theorem evexInstr_wellFormed_iff {m : Mode} {pre : List Prefix} {e : Evex} {ll : BitVec 2} {b : Bool}
    {reg : BitVec 3} {rm : RmOperand} {i : Instr} (h : evexInstr pre e ll b reg rm = some i) :
    wellFormed m i = true ↔
      commonOk m pre rm (pre.length + 5 + rm.length) = true ∧ noOpSize pre = true ∧ e.ok m = true := by
  rw [← and_assoc, ← Bool.and_eq_true, ← Bool.and_eq_true]
  obtain ⟨r, rfl, rfl, rfl⟩ | ⟨hbcst, ⟨-, rfl⟩ | ⟨-, rfl⟩ | ⟨-, rfl⟩⟩ := evexInstr_eq_some_iff.mp h
  · rfl
  all_goals rw [wellFormed, hbcst, Bool.and_true, Instr.length]

/-- The EVEX class, once its bytes are there (R114 step 3). -/
theorem decodeEvex_cons (m : Mode) (pre : List Prefix) (rex : Option Rex) (p0 p1 p2 op modRm : Byte)
    (tail : List Byte) :
    decodeEvex m pre rex (p0 :: p1 :: p2 :: op :: modRm :: tail) =
      if !startsVex m p0 then .foreign .ldsLesBound (pre.length + rexLength rex + 2)
      else if evexReserved pre rex p0 p1 then
        illegalEvex m pre (pre.length + rexLength rex + 5) (modRm :: tail)
      else if p0.extractLsb' 0 2 ≠ 1#2 ∨ p1.extractLsb' 0 2 ≠ 1#2 ∨ op ≠ 0x5C#8 then
        .foreign .otherEvex (pre.length + rexLength rex + 6)
      else if evexIllegal m p1 p2 then
        illegalEvex m pre (pre.length + rexLength rex + 5) (modRm :: tail)
      else withOperand m pre (.evex 512) (pre.length + rexLength rex + 5) (modRm :: tail) fun reg rm =>
        evexInstr pre (Evex.ofBytes p0 p1 p2) (p2.extractLsb' 5 2) (p2.getLsbD 4) reg rm := rfl

theorem evex_payload_fields (e : Evex) (ll : BitVec 2) (b : Bool) :
    e.p0.extractLsb' 0 4 = 1#4 ∧ e.p1.extractLsb' 0 3 = 5#3 ∧ e.p1.getLsbD 7 = true ∧
      (e.p2 ll b).extractLsb' 5 2 = ll ∧ (e.p2 ll b).getLsbD 4 = b := by
  have h0 : ∀ r x b r2 : Bool, (Evex.p0 ⟨r, x, b, r2, 0, false, false, 0⟩).extractLsb' 0 4 = 1#4 := by
    decide
  have h1 : ∀ v : BitVec 4, (Evex.p1 ⟨false, false, false, false, v, false, false, 0⟩).extractLsb' 0 3 = 5#3 ∧
      (Evex.p1 ⟨false, false, false, false, v, false, false, 0⟩).getLsbD 7 = true := by decide
  have h2 : ∀ (z v2 b : Bool) (ll : BitVec 2) (a : BitVec 3),
      (Evex.p2 ⟨false, false, false, false, 0, z, v2, a⟩ ll b).extractLsb' 5 2 = ll ∧
      (Evex.p2 ⟨false, false, false, false, 0, z, v2, a⟩ ll b).getLsbD 4 = b := by decide +kernel
  exact ⟨h0 e.r e.x e.b e.r2, (h1 e.vvvv).1, (h1 e.vvvv).2, h2 e.z e.v2 b ll e.aaa⟩

/-- The bits that every EVEX row fixes (R100, R101, R105). -/
theorem evex_fixed_bits :
    (∀ p0 : Byte, p0.extractLsb' 0 4 = 1#4 ↔ p0.extractLsb' 2 2 = 0#2 ∧ p0.extractLsb' 0 2 = 1#2) ∧
    (∀ p1 : Byte, p1.extractLsb' 0 3 = 5#3 ↔ p1.getLsbD 2 = true ∧ p1.extractLsb' 0 2 = 1#2) := by
  decide +kernel

theorem evex_bytes_ofBytes {p0 p1 : Byte} (p2 : Byte) (h0 : p0.extractLsb' 0 4 = 1#4)
    (h1 : p1.extractLsb' 0 3 = 5#3) (hw : p1.getLsbD 7 = true) :
    (Evex.ofBytes p0 p1 p2).p0 = p0 ∧ (Evex.ofBytes p0 p1 p2).p1 = p1 ∧
      (Evex.ofBytes p0 p1 p2).p2 (p2.extractLsb' 5 2) (p2.getLsbD 4) = p2 := by
  have hp0 : ∀ p0 : Byte, p0.extractLsb' 0 4 = 1#4 → (Evex.ofBytes p0 0 0).p0 = p0 := by decide +kernel
  have hp1 : ∀ p1 : Byte, p1.extractLsb' 0 3 = 5#3 → p1.getLsbD 7 = true →
      (Evex.ofBytes 0 p1 0).p1 = p1 := by decide +kernel
  have hp2 : ∀ p2 : Byte, (Evex.ofBytes 0 0 p2).p2 (p2.extractLsb' 5 2) (p2.getLsbD 4) = p2 := by
    decide +kernel
  exact ⟨hp0 p0 h0, hp1 p1 h1 hw, hp2 p2⟩

/-- The conditions on the payload that are left once the fixed bits are right are those on the fields. -/
theorem evex_ok_iff (m : Mode) (e : Evex) (ll : BitVec 2) (b : Bool) :
    e.ok m = true ↔ startsVex m e.p0 = true ∧ evexIllegal m e.p1 (e.p2 ll b) = false := by
  have h0 : ∀ r x b r2 : Bool,
      decide ((Evex.p0 ⟨r, x, b, r2, 0, false, false, 0⟩).extractLsb' 6 2 = 3#2) = (!r && !x) := by
    decide
  have h2 : ∀ (z v2 b : Bool) (ll : BitVec 2) (a : BitVec 3),
      (Evex.p2 ⟨false, false, false, false, 0, z, v2, a⟩ ll b).getLsbD 7 = z ∧
      (Evex.p2 ⟨false, false, false, false, 0, z, v2, a⟩ ll b).extractLsb' 0 3 = a ∧
      (Evex.p2 ⟨false, false, false, false, 0, z, v2, a⟩ ll b).getLsbD 3 = !v2 := by decide +kernel
  obtain ⟨hz, ha, hv⟩ := h2 e.z e.v2 b ll e.aaa
  have hp0 : startsVex m e.p0 = (decide (m = .long64) || (!e.r && !e.x)) := by
    rw [startsVex, ← h0 e.r e.x e.b e.r2]
    rfl
  have hp2 : evexIllegal m e.p1 (e.p2 ll b) =
      ((e.z && decide (e.aaa = 0)) || (decide (m ≠ .long64) && e.v2)) := by
    obtain ⟨-, -, hw, -, -⟩ := evex_payload_fields e ll b
    simp only [Evex.p2] at hz ha hv
    simp only [evexIllegal, hw, Evex.p2, hz, ha, hv, Bool.not_true, Bool.false_or, Bool.not_not]
    rfl
  rw [hp0, hp2, Evex.ok]
  by_cases hm : m = .long64
  · simp [hm, imp_iff_not_or]
  · simp only [hm, Bool.and_eq_true, Bool.or_eq_true, Bool.or_eq_false_iff, Bool.and_eq_false_iff,
      Bool.not_eq_true', decide_false, decide_true, decide_eq_true_eq, decide_eq_false_iff_not, ne_eq,
      not_false_eq_true, Bool.false_or, Bool.true_and]
    tauto

theorem evexReserved_eq_false_iff {pre : List Prefix} {rex : Option Rex} {p0 p1 : Byte} :
    evexReserved pre rex p0 p1 = false ↔
      pre.any Prefix.forbiddenBeforeVex = false ∧ rex = none ∧ p0.extractLsb' 2 2 = 0#2 ∧
        p1.getLsbD 2 = true ∧ p0.extractLsb' 0 2 ≠ 0#2 := by
  simp only [evexReserved, Bool.or_eq_false_iff, Option.isSome_eq_false_iff, Option.isNone_iff_eq_none,
    decide_eq_false_iff_not, ne_eq, not_not, Bool.not_eq_false', and_assoc]

theorem decodeEvex_eq_instr_iff {m : Mode} {pre : List Prefix} {rex : Option Rex} {bytes : List Byte}
    {i : Instr} (hrun : PrefixRun m pre) :
    decodeEvex m pre rex bytes = .instr i ↔
      rex = none ∧ ∃ e ll b reg rm rest, evexInstr pre e ll b reg rm = some i ∧ wellFormed m i = true ∧
        bytes = e.p0 :: e.p1 :: e.p2 ll b :: 0x5C#8 :: (encodeRm reg rm ++ rest) := by
  constructor
  · intro h
    match bytes, h with
    | p0 :: p1 :: p2 :: op :: modRm :: tail, h =>
      rw [decodeEvex_cons] at h
      split_ifs at h with hstart hreserved h5c hillegal
      · exact absurd h (illegal_ne_instr _ _)
      · exact absurd h (illegal_ne_instr _ _)
      rw [Bool.not_eq_true, evexReserved_eq_false_iff] at hreserved
      obtain ⟨hforbidden, rfl, hzero, hone, -⟩ := hreserved
      rw [not_or, not_or, not_not, not_not, not_not] at h5c
      obtain ⟨hmap, hpp, rfl⟩ := h5c
      have hw : p1.getLsbD 7 = true := by
        rw [Bool.not_eq_true, evexIllegal, Bool.or_eq_false_iff, Bool.or_eq_false_iff] at hillegal
        obtain ⟨⟨hw, -⟩, -⟩ := hillegal
        simpa using hw
      obtain ⟨hpre, hop⟩ := prefixesOk_noOpSize_iff.mpr ⟨hrun, hforbidden⟩
      obtain ⟨reg, rm, rest, htail, hcommon, hi⟩ := (withOperand_eq_instr_iff_commonOk hpre).mp h
      obtain ⟨hb0, hb1, hb2⟩ := evex_bytes_ofBytes p2 ((evex_fixed_bits.1 p0).mpr ⟨hzero, hmap⟩)
        ((evex_fixed_bits.2 p1).mpr ⟨hone, hpp⟩) hw
      refine ⟨rfl, _, _, _, reg, rm, rest, hi, (evexInstr_wellFormed_iff hi).mpr ⟨hcommon, hop, ?_⟩,
        by rw [hb0, hb1, hb2, htail]⟩
      rw [evex_ok_iff m _ (p2.extractLsb' 5 2) (p2.getLsbD 4), hb0, hb1, hb2]
      simpa using And.intro hstart hillegal
  · rintro ⟨rfl, e, ll, b, reg, rm, rest, hi, hwf, rfl⟩
    obtain ⟨hcommon, hop, he⟩ := (evexInstr_wellFormed_iff hi).mp hwf
    have hpre := prefixesOk_of_commonOk hcommon
    obtain ⟨-, hforbidden⟩ := prefixesOk_noOpSize_iff.mp ⟨hpre, hop⟩
    obtain ⟨hstart, hlegal⟩ := (evex_ok_iff m e ll b).mp he
    obtain ⟨hf0, hf1, -, hll, hb⟩ := evex_payload_fields e ll b
    obtain ⟨hzero, hmap⟩ := (evex_fixed_bits.1 _).mp hf0
    obtain ⟨hone, hpp⟩ := (evex_fixed_bits.2 _).mp hf1
    have hreserved : evexReserved pre none e.p0 e.p1 = false :=
      evexReserved_eq_false_iff.mpr ⟨hforbidden, rfl, hzero, hone, by rw [hmap]; decide⟩
    have hwith := (withOperand_eq_instr_iff_commonOk (c := .evex 512) hpre).mpr
      ⟨reg, rm, rest, rfl, hcommon, hi⟩
    obtain ⟨modRm, tail, hcons⟩ := encodeRm_append_eq_cons reg rm rest
    rw [hcons] at hwith ⊢
    rw [decodeEvex_cons]
    simp only [hstart, hreserved, hmap, hpp, hlegal, hll, hb, evex_ofBytes_bytes, ne_eq, not_true_eq_false,
      or_self, Bool.not_true, Bool.false_eq_true, if_false]
    exact hwith

/-! ### All classes -/

/-- Past prefixes and REX, what decodes to an instruction is what its encoding has there. -/
theorem decodeClass_eq_instr_iff {m : Mode} {pre : List Prefix} {rex : Option Rex} {bytes : List Byte}
    {i : Instr} (hrun : PrefixRun m pre) (hrex : m = .long64 ∨ rex = none) :
    decodeClass m pre rex bytes = .instr i ↔
      wellFormed m i = true ∧ i.prefixes = pre ∧ i.rex = rex ∧ ∃ rest, bytes = i.opcodeBytes ++ rest := by
  constructor
  · intro h
    unfold decodeClass at h
    split at h
    · cases h
    · rename_i b bytes
      simp only at h
      split_ifs at h with h0f hc5 hc4 h62
      · split at h
        · cases h
        · split_ifs at h with h5c
          obtain ⟨reg, rm, rest, rfl, hwf, rfl⟩ := (decodeLegacy_eq_instr_iff hrun hrex).mp h
          exact ⟨hwf, rfl, rfl, rest, by rw [h0f, h5c]; rfl⟩
      · obtain ⟨rfl, l, p, reg, rm, rest, rfl, hwf, rfl⟩ := (decodeVex2_eq_instr_iff hrun).mp h
        rw [hc5]
        cases l <;> exact ⟨hwf, rfl, rfl, rest, rfl⟩
      · obtain ⟨rfl, l, p, reg, rm, rest, rfl, hwf, rfl⟩ := (decodeVex3_eq_instr_iff hrun).mp h
        rw [hc4]
        cases l <;> exact ⟨hwf, rfl, rfl, rest, rfl⟩
      · obtain ⟨rfl, e, ll, b, reg, rm, rest, hi, hwf, rfl⟩ := (decodeEvex_eq_instr_iff hrun).mp h
        obtain ⟨hpre, hnone, hbytes⟩ := evexInstr_layout hi
        exact ⟨hwf, hpre, hnone, rest, by rw [h62, hbytes]; rfl⟩
  · rintro ⟨hwf, rfl, rfl, rest, rfl⟩
    cases i with
    | subpd pre rex reg rm =>
      exact (decodeLegacy_eq_instr_iff hrun hrex).mpr ⟨reg, rm, rest, rfl, hwf, rfl⟩
    | vsubpdVex2x128 pre p reg rm =>
      exact (decodeVex2_eq_instr_iff hrun).mpr ⟨rfl, false, p, reg, rm, rest, rfl, hwf, rfl⟩
    | vsubpdVex3x128 pre p reg rm =>
      exact (decodeVex3_eq_instr_iff hrun).mpr ⟨rfl, false, p, reg, rm, rest, rfl, hwf, rfl⟩
    | vsubpdVex2x256 pre p reg rm =>
      exact (decodeVex2_eq_instr_iff hrun).mpr ⟨rfl, true, p, reg, rm, rest, rfl, hwf, rfl⟩
    | vsubpdVex3x256 pre p reg rm =>
      exact (decodeVex3_eq_instr_iff hrun).mpr ⟨rfl, true, p, reg, rm, rest, rfl, hwf, rfl⟩
    | vsubpdEvex128 pre e b reg rm =>
      obtain ⟨-, hbcst⟩ := Bool.and_eq_true_iff.mp hwf
      exact (decodeEvex_eq_instr_iff hrun).mpr ⟨rfl, e, 0, b, reg, rm, rest,
        evexInstr_eq_some_iff.mpr (.inr ⟨hbcst, .inl ⟨rfl, rfl⟩⟩), hwf, rfl⟩
    | vsubpdEvex256 pre e b reg rm =>
      obtain ⟨-, hbcst⟩ := Bool.and_eq_true_iff.mp hwf
      exact (decodeEvex_eq_instr_iff hrun).mpr ⟨rfl, e, 1, b, reg, rm, rest,
        evexInstr_eq_some_iff.mpr (.inr ⟨hbcst, .inr (.inl ⟨rfl, rfl⟩)⟩), hwf, rfl⟩
    | vsubpdEvex512 pre e b reg rm =>
      obtain ⟨-, hbcst⟩ := Bool.and_eq_true_iff.mp hwf
      exact (decodeEvex_eq_instr_iff hrun).mpr ⟨rfl, e, 2, b, reg, rm, rest,
        evexInstr_eq_some_iff.mpr (.inr ⟨hbcst, .inr (.inr ⟨rfl, rfl⟩)⟩), hwf, rfl⟩
    | vsubpdEvex512er pre e rc reg rm =>
      exact (decodeEvex_eq_instr_iff hrun).mpr ⟨rfl, e, rc.bits, true, reg, .reg rm, rest,
        evexInstr_eq_some_iff.mpr (.inl ⟨rm, rfl, rfl, by rw [rounding_ofBits_bits]; rfl⟩), hwf, rfl⟩

/-- Bytes decode to an instruction exactly when it is well formed and they begin with its encoding. -/
theorem decode_eq_instr_iff {m : Mode} {bytes : List Byte} {i : Instr} :
    decode m bytes = .instr i ↔ wellFormed m i = true ∧ ∃ rest, bytes = encode i ++ rest := by
  constructor
  · intro h
    obtain ⟨hsplit, hrun, -⟩ := splitPrefixes_spec m bytes
    obtain ⟨htake, hrex⟩ := takeRex_spec m (splitPrefixes m bytes).2
    simp only [decode] at h
    split_ifs at h with hlong
    obtain ⟨hwf, hpre, hirex, rest, hrest⟩ := (decodeClass_eq_instr_iff hrun hrex).mp h
    refine ⟨hwf, rest, ?_⟩
    rw [encode_eq, hpre, hirex, List.append_assoc, List.append_assoc, ← hrest, ← htake]
    exact hsplit
  · rintro ⟨hwf, rest, rfl⟩
    obtain ⟨hrun, hrex, hlen, hshort⟩ := prefixRun_of_wellFormed hwf
    obtain ⟨b, hb, bytes, hcons⟩ := exists_opcodeBytes_append i rest
    rw [encode_eq, List.append_assoc, List.append_assoc, hcons,
      decode_prefixed bytes hrun (by omega) hrex hb, ← hcons]
    exact (decodeClass_eq_instr_iff hrun hrex).mpr ⟨hwf, rfl, rfl, rest, rfl⟩

/-! ### The statements -/

/-- Settles O41: the bytes begin with the encoding. -/
theorem decodeEncode : Obligations.DecodeEncode := fun _ _ tail hwf =>
  decode_eq_instr_iff.mpr ⟨hwf, tail, rfl⟩

/-- Settles O42: the encoding, with which the bytes begin, is as long as the instruction. -/
theorem decodeSound : Obligations.DecodeSound := by
  intro m bytes i h
  obtain ⟨hwf, rest, rfl⟩ := decode_eq_instr_iff.mp h
  refine ⟨hwf, ?_⟩
  rw [← length_encode, List.take_left]

/-- Settles O43: a well-formed instruction is one that decodes, and an EVEX one has five bytes before its
operand. -/
theorem lengthBounds : Obligations.LengthBounds := by
  intro m i hwf
  obtain ⟨hlow, hhigh⟩ := decode_length_bounds (decodeEncode m i [] hwf)
  refine ⟨hlow, hhigh, ?_⟩
  rintro ⟨vl, hvl⟩
  cases i with
  | subpd | vsubpdVex2x128 | vsubpdVex3x128 | vsubpdVex2x256 | vsubpdVex3x256 => cases hvl
  | vsubpdEvex128 _ _ _ _ rm | vsubpdEvex256 _ _ _ _ rm | vsubpdEvex512 _ _ _ _ rm =>
    have hrm := rm.one_le_length
    simp only [Instr.length]
    omega
  | vsubpdEvex512er => simp only [Instr.length]; omega

/-- Settles O48: each word is the encoding of the well-formed instruction it stands for. -/
theorem writtenWordsDecode : Obligations.WrittenWordsDecode :=
  ⟨decodeEncode .long64 (.subpd [.opSize] none 0 (.reg 1)) [] (by decide),
    decodeEncode .long64 (.vsubpdVex2x128 [] ⟨false, 1⟩ 0 (.reg 2)) [] (by decide),
    decodeEncode .long64 (.vsubpdVex3x256 [] ⟨false, false, false, true, 1⟩ 0 (.reg 2)) [] (by decide),
    decodeEncode .long64 (.vsubpdEvex128 [] ⟨false, false, false, false, 1, false, false, 2⟩ false 0
      (.base 0 (.d8 1))) [] (by decide),
    decodeEncode .long64 (.vsubpdEvex512er [] ⟨false, false, false, false, 1, true, false, 1⟩ .rz 0 2) []
      (by decide)⟩

end Sys2Proof
end

