-- ==== Sys2Proof/Proofs/Illegal.lean ====
section
/-! SUPPORT. Encodings that are `#UD` and encodings that are refused (R99, R105, R114, R118, R119). -/

namespace Sys2Proof

theorem RmOperand.length_le_six (rm : RmOperand) : rm.length ≤ 6 := by
  have hdisp : ∀ d : Disp, d.length ≤ 4 := by
    intro d
    cases d <;> simp [Disp.length]
  cases rm with
  | base r d =>
    have := hdisp d
    simp only [RmOperand.length]
    omega
  | sib s d =>
    have := hdisp d
    simp only [RmOperand.length]
    omega
  | _ => simp [RmOperand.length]

theorem illegal_of_le {len : Nat} (h : len ≤ 15) : illegal len = .ud len := if_neg (by omega)

/-- The length of an instruction is that of its prefixes, REX and the bytes after them. -/
theorem length_eq (i : Instr) :
    i.length = i.prefixes.length + rexLength i.rex + i.opcodeBytes.length := by
  have hrex : (rexBytes i.rex).length = rexLength i.rex := by cases i.rex <;> rfl
  rw [← length_encode, encode_eq, List.length_append, List.length_append, hrex, preBytes, List.length_map,
    Nat.add_assoc]

/-! ### Forbidden prefixes (R92, R99, R105) -/

section Forbidden

variable {pre : List Prefix} {rex : Option Rex} {reg : BitVec 3} {rm : RmOperand} (tail : List Byte)

theorem decodeLegacy_lock (hlock : .lock ∈ pre) (hok : rm.ok = true) :
    decodeLegacy .long64 pre rex (encodeRm reg rm ++ tail) =
      illegal (pre.length + rexLength rex + 2 + rm.length) := by
  simp [decodeLegacy, hlock, tailLength_encodeRm tail hok, addressedLength_long64]

theorem illegalVex_encodeRm (len : Nat) (hok : rm.ok = true) :
    illegalVex .long64 pre len 0x5C#8 (encodeRm reg rm ++ tail) = illegal (len + rm.length) := by
  simp [illegalVex, tailLength_encodeRm tail hok, addressedLength_long64]

theorem illegalEvex_encodeRm (len : Nat) (hok : rm.ok = true) :
    illegalEvex .long64 pre len (encodeRm reg rm ++ tail) = illegal (len + rm.length) := by
  rw [illegalEvex, tailLength_encodeRm tail hok, addressedLength_long64]

theorem decodeVex2_forbidden (b : Byte) (h : (pre.any Prefix.forbiddenBeforeVex || rex.isSome) = true)
    (hok : rm.ok = true) :
    decodeVex2 .long64 pre rex (b :: 0x5C#8 :: (encodeRm reg rm ++ tail)) =
      illegal (pre.length + rexLength rex + 3 + rm.length) := by
  rw [decodeVex2_cons, if_neg (by simp [startsVex]), if_pos h, illegalVex_encodeRm tail _ hok]

theorem decodeVex3_forbidden (b1 b2 : Byte) (h : (pre.any Prefix.forbiddenBeforeVex || rex.isSome) = true)
    (hok : rm.ok = true) :
    decodeVex3 .long64 pre rex (b1 :: b2 :: 0x5C#8 :: (encodeRm reg rm ++ tail)) =
      illegal (pre.length + rexLength rex + 4 + rm.length) := by
  rw [decodeVex3_cons, if_neg (by simp [startsVex]), if_pos h, illegalVex_encodeRm tail _ hok]

/-- The EVEX class in 64-bit mode, once ModRM announces an operand. -/
theorem decodeEvex_encodeRm (p0 p1 p2 op : Byte) (hok : rm.ok = true) :
    decodeEvex .long64 pre rex (p0 :: p1 :: p2 :: op :: (encodeRm reg rm ++ tail)) =
      if evexReserved pre rex p0 p1 then illegal (pre.length + rexLength rex + 5 + rm.length)
      else if p0.extractLsb' 0 2 ≠ 1#2 ∨ p1.extractLsb' 0 2 ≠ 1#2 ∨ op ≠ 0x5C#8 then
        .foreign .otherEvex (pre.length + rexLength rex + 6)
      else if evexIllegal .long64 p1 p2 then illegal (pre.length + rexLength rex + 5 + rm.length)
      else withOperand .long64 pre (.evex 512) (pre.length + rexLength rex + 5) (encodeRm reg rm ++ tail)
        fun reg rm => evexInstr pre (Evex.ofBytes p0 p1 p2) (p2.extractLsb' 5 2) (p2.getLsbD 4) reg rm := by
  have hillegal := illegalEvex_encodeRm (pre := pre) (reg := reg) tail (pre.length + rexLength rex + 5) hok
  obtain ⟨modRm, bytes, hcons⟩ := encodeRm_append_eq_cons reg rm tail
  rw [hcons] at hillegal ⊢
  rw [decodeEvex_cons, if_neg (by simp [startsVex]), hillegal]

theorem decodeEvex_forbidden (p0 p1 p2 op : Byte)
    (h : (pre.any Prefix.forbiddenBeforeVex || rex.isSome) = true) (hok : rm.ok = true) :
    decodeEvex .long64 pre rex (p0 :: p1 :: p2 :: op :: (encodeRm reg rm ++ tail)) =
      illegal (pre.length + rexLength rex + 5 + rm.length) := by
  rw [decodeEvex_encodeRm tail p0 p1 p2 op hok, if_pos]
  simp only [evexReserved, h, Bool.true_or]

/-- The bytes before ModRM and the operand make up the bytes after prefixes and REX. -/
theorem illegal_opcodeBytes {n k : Nat} {bytes : List Byte}
    (h : bytes.length = k + (encodeRm reg rm).length) :
    illegal (n + k + rm.length) = illegal (n + bytes.length) := by
  rw [h, Laws.EncodedLength.encodeRm_length, Nat.add_assoc]

/-- LOCK, or before a VEX or EVEX byte any forbidden prefixes or REX, makes a form illegal, all its bytes
counting. -/
theorem decodeClass_forbidden {i : Instr} (hok : i.operand.ok = true)
    (h : .lock ∈ pre ∨ i.cls ≠ .legacy ∧ (pre.any Prefix.forbiddenBeforeVex || rex.isSome) = true) :
    decodeClass .long64 pre rex (i.opcodeBytes ++ tail) =
      illegal (pre.length + rexLength rex + i.opcodeBytes.length) := by
  have hvex : i.cls ≠ .legacy → (pre.any Prefix.forbiddenBeforeVex || rex.isSome) = true := fun _ =>
    h.elim (fun hlock => Bool.or_eq_true_iff.mpr (.inl (List.any_eq_true.mpr ⟨_, hlock, rfl⟩))) (·.2)
  cases i with
  | subpd _ _ reg rm =>
    have hlock : .lock ∈ pre := h.resolve_right fun hcls => hcls.1 rfl
    exact (decodeLegacy_lock tail hlock hok).trans (illegal_opcodeBytes (Nat.add_comm _ 2))
  | vsubpdVex2x128 | vsubpdVex2x256 =>
    exact (decodeVex2_forbidden tail _ (hvex nofun) hok).trans (illegal_opcodeBytes (Nat.add_comm _ 3))
  | vsubpdVex3x128 | vsubpdVex3x256 =>
    exact (decodeVex3_forbidden tail _ _ (hvex nofun) hok).trans (illegal_opcodeBytes (Nat.add_comm _ 4))
  | vsubpdEvex128 | vsubpdEvex256 | vsubpdEvex512 | vsubpdEvex512er =>
    exact (decodeEvex_forbidden tail _ _ _ _ (hvex nofun) hok).trans
      (illegal_opcodeBytes (Nat.add_comm _ 5))

end Forbidden

/-- Bytes with prefixes and REX before the opcode part of a form, LOCK, or for VEX and EVEX a forbidden
one, among them. -/
theorem decode_forbidden {i : Instr} {pre : List Prefix} {rex : Option Rex} (tail : List Byte)
    (hrun : PrefixRun .long64 pre) (hlen : pre.length < 15) (hok : i.operand.ok = true)
    (h : .lock ∈ pre ∨ i.cls ≠ .legacy ∧ (pre.any Prefix.forbiddenBeforeVex || rex.isSome) = true) :
    decode .long64 (preBytes pre ++ (rexBytes rex ++ (i.opcodeBytes ++ tail))) =
      illegal (pre.length + rexLength rex + i.opcodeBytes.length) := by
  obtain ⟨b, hb, bytes, hcons⟩ := exists_opcodeBytes_append i tail
  rw [hcons, decode_prefixed bytes hrun hlen (.inl rfl) hb, ← hcons]
  exact decodeClass_forbidden tail hok h

/-- One byte more makes an illegal form too long exactly when it had 15. -/
theorem illegal_succ (len : Nat) : illegal (len + 1) = if len < 15 then .ud (len + 1) else .tooLong (len + 1) := by
  unfold illegal
  split_ifs
  · omega
  · rfl
  · rfl
  · omega

/-- A byte put among the prefixes of an encoding is one more of them. -/
theorem insert_legacy_byte (i : Instr) (p : Prefix) {k : Nat} (tail : List Byte) (h : k ≤ i.prefixes.length) :
    (encode i).take k ++ p.byte :: ((encode i).drop k ++ tail) =
      preBytes (i.prefixes.take k ++ p :: i.prefixes.drop k) ++
        (rexBytes i.rex ++ (i.opcodeBytes ++ tail)) := by
  have hk : k ≤ (preBytes i.prefixes).length := by rwa [preBytes, List.length_map]
  rw [encode_eq, List.take_append_of_le_length hk, List.drop_append_of_le_length hk]
  simp only [preBytes, List.map_append, List.map_cons, List.map_take, List.map_drop, List.append_assoc,
    List.cons_append]

theorem rex_eq_none_of_cls {i : Instr} (h : i.cls ≠ .legacy) : i.rex = none := by
  cases i with
  | subpd => exact absurd rfl h
  | _ => rfl

theorem insert_rex_byte {i : Instr} (r : Rex) (tail : List Byte) (h : i.cls ≠ .legacy) :
    (encode i).take i.prefixes.length ++ r.byte :: ((encode i).drop i.prefixes.length ++ tail) =
      preBytes i.prefixes ++ (rexBytes (some r) ++ (i.opcodeBytes ++ tail)) := by
  have hk : i.prefixes.length = (preBytes i.prefixes).length := (List.length_map _).symm
  rw [encode_eq, rex_eq_none_of_cls h, hk, List.take_left, List.drop_left]
  rfl

/-- Settles O44: the byte put in is one of the prefixes, or the REX byte, of what is decoded. -/
theorem forbiddenPrefixes : Obligations.ForbiddenPrefixes := by
  intro i tail hwf verdict insert
  obtain ⟨hrun, -, hlen, hshort⟩ := prefixRun_of_wellFormed hwf
  have hok := operand_ok_of_wellFormed hwf
  have hverdict : verdict = illegal (i.length + 1) := (illegal_succ i.length).symm
  rw [hverdict, length_eq]
  refine ⟨fun p k hp hk => ?_, fun r hcls => ?_⟩
  · have hlegacy : ∀ w, p ≠ .droppedRex w := by
      rintro w rfl
      simp [Prefix.forbiddenBeforeVex] at hp
    have hmem : p ∈ i.prefixes.take k ++ p :: i.prefixes.drop k := by simp
    have hpre : (i.prefixes.take k ++ p :: i.prefixes.drop k).length = i.prefixes.length + 1 := by
      simp only [List.length_append, List.length_cons, List.length_take, List.length_drop]
      omega
    have hbad : .lock ∈ i.prefixes.take k ++ p :: i.prefixes.drop k ∨ i.cls ≠ .legacy ∧
        ((i.prefixes.take k ++ p :: i.prefixes.drop k).any Prefix.forbiddenBeforeVex || i.rex.isSome) = true := by
      rcases hp with rfl | ⟨hcls, hforbidden⟩
      · exact .inl hmem
      · exact .inr ⟨hcls, Bool.or_eq_true_iff.mpr (.inl (List.any_eq_true.mpr ⟨p, hmem, hforbidden⟩))⟩
    refine (congrArg (decode .long64) (insert_legacy_byte i p tail hk)).trans ?_
    rw [decode_forbidden tail (hrun.insert hlegacy k) (by omega) hok hbad, hpre]
    congr 1
    omega
  · refine (congrArg (decode .long64) (insert_rex_byte r tail hcls)).trans ?_
    rw [decode_forbidden tail hrun (by omega) hok (.inr ⟨hcls, Bool.or_eq_true_iff.mpr (.inr rfl)⟩),
      rex_eq_none_of_cls hcls]
    congr 1
    simp only [rexLength, Option.isSome_some, Option.isSome_none, Bool.false_eq_true, if_true, if_false]
    omega

/-! ### Illegal EVEX payloads (R102, R104, R105) -/

theorem evexInstr_eq_none {pre : List Prefix} {e : Evex} {b : Bool} {reg : BitVec 3} {rm : RmOperand}
    (h : rm.isMem = true ∨ b = false) : evexInstr pre e 3 b reg rm = none := by
  cases rm with
  | reg r =>
    obtain rfl : b = false := h.resolve_left nofun
    rfl
  | _ => cases b <;> rfl

/-- Settles O45: the reserved bits, then the other payload bits, then the length field. -/
theorem evexIllegal_holds : Obligations.EvexIllegal := by
  intro p0 p1 p2 op reg rm tail hok h
  have hud : illegal (5 + rm.length) = .ud (5 + rm.length) :=
    illegal_of_le (by have := rm.length_le_six; omega)
  rw [decode_opcode .long64 _ (by decide), decodeClass_62, decodeEvex_encodeRm tail p0 p1 p2 op hok]
  simp only [List.length_nil, rexLength, Option.isSome_none, Bool.false_eq_true, if_false, Nat.zero_add]
  by_cases hreserved : evexReserved [] none p0 p1 = true
  · rw [if_pos hreserved, hud]
  rw [if_neg hreserved]
  rw [Bool.not_eq_true, evexReserved_eq_false_iff] at hreserved
  obtain ⟨-, -, hzero, hone, hmap⟩ := hreserved
  obtain ⟨hmap, hpp, rfl, hlate⟩ := h.resolve_left (by simp [hzero, hone, hmap])
  rw [if_neg (by simp [hmap, hpp])]
  by_cases hillegal : evexIllegal .long64 p1 p2 = true
  · rw [if_pos hillegal, hud]
  rw [if_neg hillegal]
  obtain ⟨hll, hrow⟩ : p2.extractLsb' 5 2 = 3#2 ∧ (rm.isMem = true ∨ p2.getLsbD 4 = false) := by
    rcases hlate with hw | hz | hll
    · exact absurd (by rw [evexIllegal, hw]; rfl) hillegal
    · simp [evexIllegal, hz] at hillegal
    · exact hll
  rw [withOperand_long64 tail hok (by have := rm.length_le_six; omega), hll]
  exact congrArg (Option.elim · _ _) (evexInstr_eq_none hrow)

/-! ### Neighbours of opcode `0F 5C` (R118) -/

theorem decode_0F_5C {m : Mode} {pre : List Prefix} (tail : List Byte) (hrun : PrefixRun m pre)
    (hlen : pre.length < 15) :
    decode m (preBytes pre ++ 0x0F#8 :: 0x5C#8 :: tail) = decodeLegacy m pre none tail :=
  decode_prefixed (rex := none) (0x5C#8 :: tail) hrun hlen (.inr rfl) (by decide)

/-- Settles O46: each class by its guards; of the legacy prefixes `F3` decides before `F2` and both before
`66`. -/
theorem neighboursRefused : Obligations.NeighboursRefused := by
  intro m tail b b1 b2 p0 p1 p2 modRm
  refine ⟨?subps, ?subss, ?subsd, ?subss66, ?subsd66, fun hpp => ?vex2, fun hmap hpp => ?vex3,
    fun hfixed hone hpp => ?evex⟩
  case subps => exact decode_0F_5C tail (.nil m) (by decide)
  case subss => exact decode_0F_5C (pre := [.rep]) tail ⟨rfl, by simp⟩ (by decide)
  case subsd => exact decode_0F_5C (pre := [.repne]) tail ⟨rfl, by simp⟩ (by decide)
  case subss66 => exact decode_0F_5C (pre := [.opSize, .rep]) tail ⟨rfl, by simp⟩ (by decide)
  case subsd66 => exact decode_0F_5C (pre := [.opSize, .repne]) tail ⟨rfl, by simp⟩ (by decide)
  case vex2 =>
    rw [decode_opcode _ _ (by decide), decodeClass_C5, decodeVex2_cons]
    simp [startsVex, hpp, rexLength]
  case vex3 =>
    rw [decode_opcode _ _ (by decide), decodeClass_C4, decodeVex3_cons]
    simp [startsVex, hmap, hpp, rexLength]
  case evex =>
    obtain ⟨hzero, hmap⟩ := (evex_fixed_bits.1 p0).mp hfixed
    have hreserved : evexReserved [] none p0 p1 = false :=
      evexReserved_eq_false_iff.mpr ⟨rfl, rfl, hzero, hone, by rw [hmap]; decide⟩
    rw [decode_opcode _ _ (by decide), decodeClass_62, decodeEvex_cons]
    simp [startsVex, hreserved, hpp, rexLength]

end Sys2Proof
end

