-- ==== Sys2Proof/Proofs/Window.lean ====
section
/-! SUPPORT. How many bytes decide what an instruction is (R114, R115): after its prefixes and REX eleven, and a
fetched window holds its prefixes and twelve bytes more (log entry 18). -/

namespace Sys2Proof

/-- The bytes decide what `f` reads: more of them change nothing, and there are enough. -/
structure Decides (f : List Byte → Decoded) (bytes : List Byte) : Prop where
  append : ∀ more, f (bytes ++ more) = f bytes
  complete : ∀ n, f bytes ≠ .foreign .truncated n

theorem tailLength_append {m : Mode} {pre : List Prefix} {tail : List Byte} (more : List Byte)
    (h : 6 ≤ tail.length) : tailLength m pre (tail ++ more) = tailLength m pre tail := by
  obtain ⟨reg, rm, rest, hrm⟩ := exists_decodeRm_eq_some h
  simp only [tailLength, hrm, decodeRm_append more hrm]

@[simp] theorem illegal_ne_foreign (len n : Nat) (why : Foreign) : illegal len ≠ .foreign why n := by
  unfold illegal
  split_ifs <;> nofun

theorem withOperand_decides {m : Mode} {pre : List Prefix} {c : FormClass} {len : Nat} {tail : List Byte}
    {mk : BitVec 3 → RmOperand → Option Instr} (h : 6 ≤ tail.length) :
    Decides (withOperand m pre c len · mk) tail := by
  obtain ⟨reg, rm, rest, hrm⟩ := exists_decodeRm_eq_some h
  refine ⟨fun more => ?_, fun n => ?_⟩
  · simp only [withOperand, hrm, decodeRm_append more hrm]
  · simp only [withOperand, hrm]
    cases mk reg rm <;> split_ifs <;> simp

theorem decodeLegacy_decides {m : Mode} {pre : List Prefix} {rex : Option Rex} {tail : List Byte}
    (h : 6 ≤ tail.length) : Decides (decodeLegacy m pre rex) tail := by
  refine ⟨fun more => ?_, fun n => ?_⟩
  · simp only [decodeLegacy, tailLength_append more h, (withOperand_decides h).append more]
  · simp only [decodeLegacy]
    split_ifs
    · exact illegal_ne_foreign _ _ _
    · nofun
    · nofun
    · nofun
    · exact (withOperand_decides h).complete n

theorem decodeVex2_decides {m : Mode} {pre : List Prefix} {rex : Option Rex} {bytes : List Byte}
    (h : 8 ≤ bytes.length) : Decides (decodeVex2 m pre rex) bytes := by
  match bytes, h with
  | b :: op :: tail, h =>
    have htail : 6 ≤ tail.length := by simpa using h
    refine ⟨fun more => ?_, fun n => ?_⟩
    · simp only [List.cons_append, decodeVex2_cons, illegalVex, tailLength_append more htail,
        (withOperand_decides htail).append more]
    · rw [decodeVex2_cons]
      split_ifs
      · nofun
      · exact illegal_ne_foreign _ _ _
      · nofun
      · exact (withOperand_decides htail).complete n

theorem decodeVex3_decides {m : Mode} {pre : List Prefix} {rex : Option Rex} {bytes : List Byte}
    (h : 9 ≤ bytes.length) : Decides (decodeVex3 m pre rex) bytes := by
  match bytes, h with
  | b1 :: b2 :: op :: tail, h =>
    have htail : 6 ≤ tail.length := by simpa using h
    refine ⟨fun more => ?_, fun n => ?_⟩
    · simp only [List.cons_append, decodeVex3_cons, illegalVex, tailLength_append more htail,
        (withOperand_decides htail).append more]
    · rw [decodeVex3_cons]
      split_ifs
      · nofun
      · exact illegal_ne_foreign _ _ _
      · nofun
      · exact (withOperand_decides htail).complete n

theorem decodeEvex_decides {m : Mode} {pre : List Prefix} {rex : Option Rex} {bytes : List Byte}
    (h : 10 ≤ bytes.length) : Decides (decodeEvex m pre rex) bytes := by
  match bytes, h with
  | p0 :: p1 :: p2 :: op :: modRm :: tail, h =>
    have htail : 6 ≤ (modRm :: tail).length := by simpa using h
    refine ⟨fun more => ?_, fun n => ?_⟩
    · have hlength := tailLength_append (m := m) (pre := pre) more htail
      have hoperand := fun mk =>
        (withOperand_decides (m := m) (pre := pre) (c := .evex 512) (len := pre.length + rexLength rex + 5)
          (mk := mk) htail).append more
      simp only [List.cons_append] at hlength hoperand
      simp only [List.cons_append, decodeEvex_cons, illegalEvex, hlength, hoperand]
    · rw [decodeEvex_cons]
      split_ifs
      · nofun
      · exact illegal_ne_foreign _ _ _
      · nofun
      · exact illegal_ne_foreign _ _ _
      · exact (withOperand_decides htail).complete n

/-- `62 P0 P1 P2 5C`, ModRM, SIB and a 32-bit displacement are eleven bytes. -/
theorem decodeClass_decides {m : Mode} {pre : List Prefix} {rex : Option Rex} {bytes : List Byte}
    (h : 11 ≤ bytes.length) : Decides (decodeClass m pre rex) bytes := by
  match bytes, h with
  | b :: c :: tail, h =>
    have hrest : 10 ≤ (c :: tail).length := by simpa using h
    have htail : 6 ≤ tail.length := by simp only [List.length_cons] at h; omega
    have hvex2 := decodeVex2_decides (m := m) (pre := pre) (rex := rex) (bytes := c :: tail) (by omega)
    have hvex3 := decodeVex3_decides (m := m) (pre := pre) (rex := rex) (bytes := c :: tail) (by omega)
    have hevex := decodeEvex_decides (m := m) (pre := pre) (rex := rex) hrest
    refine ⟨fun more => ?_, fun n => ?_⟩
    · have hvex2 := hvex2.append more
      have hvex3 := hvex3.append more
      have hevex := hevex.append more
      simp only [List.cons_append] at hvex2 hvex3 hevex
      simp only [List.cons_append, decodeClass, (decodeLegacy_decides htail).append more, hvex2, hvex3, hevex]
    · simp only [decodeClass]
      split_ifs
      · exact (decodeLegacy_decides htail).complete n
      · nofun
      · exact hvex2.complete n
      · exact hvex3.complete n
      · exact hevex.complete n
      · nofun

/-! ### Prefixes and REX -/

/-- The first two bytes tell whether any prefixes come first. -/
theorem splitPrefixes_cons_cons_eq_nil_iff {m : Mode} {b c : Byte} {rest : List Byte} :
    splitPrefixes m (b :: c :: rest) = ([], b :: c :: rest) ↔
      Prefix.ofByte? b = none ∧ ¬(isRexByte m b && (Prefix.ofByte? c).isSome) = true := by
  rw [splitPrefixes]
  cases Prefix.ofByte? b with
  | some p => simp
  | none =>
    simp only [List.head?_cons, Option.bind_some, true_and]
    split_ifs with hrex <;> simp [hrex]

theorem splitPrefixes_append {m : Mode} {bytes : List Byte} (more : List Byte)
    (h : 2 ≤ (splitPrefixes m bytes).2.length) :
    splitPrefixes m (bytes ++ more) = ((splitPrefixes m bytes).1, (splitPrefixes m bytes).2 ++ more) := by
  obtain ⟨hbytes, hrun, hrest⟩ := splitPrefixes_spec m bytes
  have hstop : splitPrefixes m ((splitPrefixes m bytes).2 ++ more) =
      ([], (splitPrefixes m bytes).2 ++ more) := by
    match (splitPrefixes m bytes).2, h, hrest with
    | b :: c :: rest, _, hrest =>
      exact splitPrefixes_cons_cons_eq_nil_iff.mpr (splitPrefixes_cons_cons_eq_nil_iff.mp hrest)
  have happend : bytes ++ more =
      preBytes (splitPrefixes m bytes).1 ++ ((splitPrefixes m bytes).2 ++ more) := by
    rw [← List.append_assoc, ← hbytes]
  rw [happend, splitPrefixes_preBytes hrun.dropped hrun.rexMode hstop]

theorem takeRex_append {m : Mode} {bytes : List Byte} (more : List Byte) (h : bytes ≠ []) :
    takeRex m (bytes ++ more) = ((takeRex m bytes).1, (takeRex m bytes).2 ++ more) := by
  cases bytes with
  | nil => exact absurd rfl h
  | cons b bytes =>
    simp only [List.cons_append, takeRex]
    split_ifs <;> rfl

theorem length_takeRex (m : Mode) (bytes : List Byte) : bytes.length ≤ (takeRex m bytes).2.length + 1 := by
  cases bytes with
  | nil => exact Nat.zero_le _
  | cons b bytes =>
    simp only [takeRex]
    split_ifs <;> simp

/-- With twelve bytes after the prefixes decoding is decided. -/
theorem decode_decides {m : Mode} {bytes : List Byte} (h : 12 ≤ (splitPrefixes m bytes).2.length) :
    Decides (decode m) bytes := by
  have hclass : Decides (decodeClass m (splitPrefixes m bytes).1 (takeRex m (splitPrefixes m bytes).2).1)
      (takeRex m (splitPrefixes m bytes).2).2 := by
    have hrex := length_takeRex m (splitPrefixes m bytes).2
    exact decodeClass_decides (by omega)
  refine ⟨fun more => ?_, fun n => ?_⟩
  · have hne : (splitPrefixes m bytes).2 ≠ [] := List.ne_nil_of_length_pos (by omega)
    simp only [decode, splitPrefixes_append more (by omega : 2 ≤ (splitPrefixes m bytes).2.length),
      takeRex_append more hne, hclass.append more]
  · simp only [decode]
    split_ifs
    · nofun
    · exact hclass.complete n

/-- Of 26 bytes either fifteen are prefixes, which is too long, or twelve are left after them. -/
theorem decode_ne_truncated {m : Mode} {bytes : List Byte} (h : decodeWindow ≤ bytes.length) (n : Nat) :
    decode m bytes ≠ .foreign .truncated n := by
  by_cases hlong : (splitPrefixes m bytes).1.length ≥ 15
  · simp only [decode, if_pos hlong]
    nofun
  · obtain ⟨hbytes, -, -⟩ := splitPrefixes_spec m bytes
    have hlen := congrArg List.length hbytes
    rw [List.length_append, preBytes, List.length_map] at hlen
    have hrest : 12 ≤ (splitPrefixes m bytes).2.length := by
      simp only [decodeWindow] at h
      omega
    exact (decode_decides hrest).complete n

end Sys2Proof

namespace Sys2Proof.Machine

open Sys2Proof

/-! ### The fetched window -/

theorem Memory.mem_of_read_ne_zero {mem : Memory} {a : Nat} (h : mem.read a ≠ 0#8) :
    a ∈ mem.map Prod.fst := by
  induction mem with
  | nil => exact absurd rfl h
  | cons cell mem ih =>
    simp only [Memory.read] at h
    rw [List.map_cons, List.mem_cons]
    split_ifs at h with ha
    · exact .inl ha.symm
    · exact .inr (ih h)

theorem Memory.readBytes_add (mem : Memory) (a n k : Nat) :
    mem.readBytes a (n + k) = mem.readBytes a n ++ mem.readBytes (a + n) k := by
  induction n generalizing a with
  | zero => simp [Memory.readBytes]
  | succ n ih =>
    rw [Nat.succ_add, Memory.readBytes, Memory.readBytes, ih, List.cons_append, Nat.add_right_comm,
      Nat.add_assoc]

/-- No byte of R92 or R94 is zero, so memory lists each of them: there are no more than it lists bytes. -/
theorem length_prefixes_le {mem : Memory} {a n : Nat} {pre : List Prefix} {rest : List Byte}
    (h : mem.readBytes a n = preBytes pre ++ rest) : pre.length ≤ mem.length := by
  have hlisted : (List.range pre.length).map (a + ·) ⊆ mem.map Prod.fst := by
    intro c hc
    obtain ⟨i, hi, rfl⟩ := List.mem_map.mp hc
    have hi : i < pre.length := List.mem_range.mp hi
    have hpre : i < (preBytes pre).length := by rwa [preBytes, List.length_map]
    have hread : mem.read (a + i) = pre[i].byte := by
      have hget : (mem.readBytes a n)[i]? = (preBytes pre ++ rest)[i]? := by rw [h]
      rw [List.getElem?_append_left hpre, List.getElem?_eq_getElem hpre, List.getElem?_eq_some_iff] at hget
      obtain ⟨hlt, hget⟩ := hget
      rw [Memory.getElem_readBytes] at hget
      rw [hget]
      exact List.getElem_map _
    exact Memory.mem_of_read_ne_zero (by rw [hread]; exact prefix_byte_ne_zero _)
  have hnodup : ((List.range pre.length).map (a + ·)).Nodup :=
    List.nodup_range.map (add_right_injective a)
  simpa using (hnodup.subperm hlisted).length_le

/-- Settles O47: the window holds all prefixes, which are bytes that memory lists, and 26 bytes more. -/
theorem windowSuffices : Obligations.WindowSuffices := by
  refine ⟨fun m bytes h n => decode_ne_truncated h n, fun s k hk => ?_⟩
  obtain ⟨more, rfl⟩ := Nat.exists_eq_add_of_le hk
  rw [Memory.readBytes_add]
  obtain ⟨hbytes, -, -⟩ := splitPrefixes_spec s.mode (fetchWindow s)
  have hpre := length_prefixes_le hbytes
  have hlen := congrArg List.length hbytes
  rw [List.length_append, preBytes, List.length_map] at hlen
  have hwindow : (fetchWindow s).length = s.mem.length + 26 := Memory.length_readBytes _ _ _
  have hrest : 12 ≤ (splitPrefixes s.mode (fetchWindow s)).2.length := by omega
  exact (decode_decides hrest).append _

end Sys2Proof.Machine
end

