-- ==== Sys2Proof/Proofs/Addresses.lean ====
section
/-! SUPPORT. The segment and the linear address of a memory operand, in 64-bit words and in integers (R32, R63,
R93, R109, R111). -/

namespace Sys2Proof.Machine

open Sys2Proof

/-! ### The segment override (R93) -/

theorem segOverride_concat_seg (pre : List Prefix) (sg : Seg) : segOverride (pre ++ [.seg sg]) = some sg :=
  List.foldl_append

theorem segOverride_concat_of_ne_seg {p : Prefix} (pre : List Prefix) (h : ∀ sg, p ≠ .seg sg) :
    segOverride (pre ++ [p]) = segOverride pre := by
  unfold segOverride
  rw [List.foldl_append]
  cases p with
  | seg sg => exact absurd rfl (h sg)
  | _ => rfl

/-- Prefixes that are no segment override leave the override before them. -/
theorem segOverride_append {q : List Prefix} (pre : List Prefix) (h : ∀ sg, .seg sg ∉ q) :
    segOverride (pre ++ q) = segOverride pre := by
  induction q using List.reverseRecOn with
  | nil => rw [List.append_nil]
  | append_singleton q p ih =>
    simp only [List.mem_append, List.mem_singleton, not_or] at h
    rw [← List.append_assoc, segOverride_concat_of_ne_seg _ fun sg hp => (h sg).2 hp.symm]
    exact ih fun sg => (h sg).1

theorem segOverride_eq_none {pre : List Prefix} (h : ∀ sg, .seg sg ∉ pre) : segOverride pre = none :=
  segOverride_append [] h

/-- The one segment override counts wherever it stands. -/
theorem segOverride_of_only {p p' : List Prefix} {sg : Seg} (h : ∀ sg', .seg sg' ∉ p ++ p') :
    segOverride (p ++ .seg sg :: p') = some sg := by
  have hp' : ∀ sg', .seg sg' ∉ p' := fun sg' hmem => h sg' (List.mem_append_right p hmem)
  rw [List.append_cons, segOverride_append _ hp', segOverride_concat_seg]

/-! ### Words -/

/-- A memory operand's address depends on its prefixes by the override and the address size. -/
theorem operandAddress_congr {s : State} {pre pre' : List Prefix} {x x' b b' : Bool} {n n' len len' : Nat}
    {rm rm' : RmOperand} (hseg : segOverride pre' = segOverride pre)
    (hsize : pre'.contains .addrSize = pre.contains .addrSize)
    (hraw : rawAddress s (addr32 s pre) (s.ext x') (s.ext b') n' len' rm' =
      rawAddress s (addr32 s pre) (s.ext x) (s.ext b) n len rm) :
    operandAddress s pre' x' b' n' len' rm' = operandAddress s pre x b n len rm := by
  have h32 : addr32 s pre' = addr32 s pre := by rw [addr32, addr32, hsize]
  simp only [operandAddress, effectiveAddress, h32, hseg, hraw]

/-- A lone displacement in 64-bit mode: from the next instruction, cut to the address size, then the segment
base added. -/
theorem operandAddress_disp_long64 {s : State} (h : s.mode = .long64) (pre : List Prefix) (x b : Bool)
    (n len : Nat) (d : BitVec 32) :
    operandAddress s pre x b n len (.disp d) =
      ((segOverride pre).getD .ds, segBase s ((segOverride pre).getD .ds) +
        truncAddr (pre.contains .addrSize) (s.rip + BitVec.ofNat 64 len + d.signExtend 64)) := by
  simp [operandAddress, effectiveAddress, rawAddress, linearAddress, addr32, State.nextPc, h, truncAddr]

/-- In 64-bit mode FS and GS alone have a base (R32). -/
theorem segBase_long64_add {s : State} (h : s.mode = .long64) {sg : Seg} (hfs : sg ≠ .fs) (hgs : sg ≠ .gs)
    (a : Quad) : segBase s sg + a = a := by
  have hzero : segBase s sg = 0 := by
    cases sg with
    | fs => exact absurd rfl hfs
    | gs => exact absurd rfl hgs
    | _ => exact if_pos h
  rw [hzero, zero_add]

/-- Settles O51: the override names the segment, and the segments but FS and GS add nothing. -/
theorem ripRelativeAddress : Obligations.RipRelativeAddress := by
  intro s x b n len d hmode ea
  have haddr := fun pre => operandAddress_disp_long64 hmode pre x b n len d
  have hbase : ∀ sg a, sg ≠ .fs → sg ≠ .gs → (sg, segBase s sg + a) = (sg, a) := fun sg a hfs hgs =>
    congrArg (Prod.mk sg) (segBase_long64_add hmode hfs hgs a)
  exact ⟨(haddr []).trans (hbase .ds ea nofun nofun),
    (haddr [.seg .cs]).trans (hbase .cs ea nofun nofun),
    (haddr [.seg .ds]).trans (hbase .ds ea nofun nofun),
    (haddr [.seg .es]).trans (hbase .es ea nofun nofun),
    (haddr [.seg .ss]).trans (hbase .ss ea nofun nofun),
    haddr [.seg .fs], haddr [.seg .gs],
    (haddr [.addrSize]).trans (hbase .ds (truncAddr true ea) nofun nofun)⟩

/-! ### The compressed displacement (R111) -/

/-- An 8-bit displacement times `N` fits in 32 bits, so it is the same by either width. -/
theorem signExtend_mul_factor {k : Nat} (hk : k = 8 ∨ k = 16 ∨ k = 32 ∨ k = 64) (d : BitVec 8) :
    d.signExtend 64 * BitVec.ofNat 64 k = (d.signExtend 32 * BitVec.ofNat 32 k).signExtend 64 := by
  have hall : ∀ d : BitVec 8, ∀ k ∈ [8, 16, 32, 64],
      d.signExtend 64 * BitVec.ofNat 64 k = (d.signExtend 32 * BitVec.ofNat 32 k).signExtend 64 := by
    decide +kernel
  exact hall d k (by simpa using hk)

/-- Settles O50: the two displacements have one value, and no other part of the address reads them. -/
theorem compressedDisplacement : Obligations.CompressedDisplacement := by
  intro s pre x b bcst n len len' d hn big
  have hk : dispFactor n bcst = 8 ∨ dispFactor n bcst = 16 ∨ dispFactor n bcst = 32 ∨
      dispFactor n bcst = 64 := by
    unfold dispFactor
    split_ifs <;> omega
  have hdisp : dispValue (dispFactor n bcst) (.d8 d) = dispValue (dispFactor n bcst) big :=
    signExtend_mul_factor hk d
  exact ⟨fun rm => operandAddress_congr rfl rfl (by simp only [rawAddress, hdisp]),
    fun sb => operandAddress_congr rfl rfl (by simp only [rawAddress, hdisp])⟩

/-! ### Integers (R109) -/

/-- How many addresses there are. -/
def addressCount (is32 : Bool) : Int := if is32 then 2 ^ 32 else 2 ^ 64

theorem truncAddr_ofInt (is32 : Bool) (z : Int) :
    truncAddr is32 (BitVec.ofInt 64 z) = BitVec.ofInt 64 (z % addressCount is32) := by
  apply BitVec.eq_of_toNat_eq
  cases is32 with
  | true =>
    simp only [truncAddr, addressCount, if_true, BitVec.truncate_eq_setWidth, BitVec.toNat_setWidth,
      BitVec.toNat_ofInt]
    omega
  | false =>
    simp only [truncAddr, addressCount, Bool.false_eq_true, if_false, BitVec.toNat_ofInt]
    omega

theorem eq_ofInt_toNat (q : Quad) : q = BitVec.ofInt 64 (q.toNat : Int) := by
  rw [BitVec.ofInt_natCast, BitVec.ofNat_toNat, BitVec.setWidth_eq]

/-- `g(i)` of R109 as an integer. -/
theorem addrReg_eq_ofInt (s : State) (is32 : Bool) (r : BitVec 4) :
    addrReg s is32 r = BitVec.ofInt 64 ((s.readX r).toNat % addressCount is32) := by
  rw [addrReg, ← truncAddr_ofInt, ← eq_ofInt_toNat]

/-- The address and segment of a memory operand, from its address before truncation as an integer. -/
theorem operandAddress_of_rawAddress {s : State} {pre : List Prefix} {x b : Bool} {n len : Nat}
    {rm : RmOperand} {sg : Seg} {z : Int}
    (h : rawAddress s (addr32 s pre) (s.ext x) (s.ext b) n len rm = (sg, BitVec.ofInt 64 z)) :
    operandAddress s pre x b n len rm =
      ((segOverride pre).getD sg,
        BitVec.ofInt 64 (((segBase s ((segOverride pre).getD sg)).toNat + z % addressCount (addr32 s pre)) %
          addressCount (decide (s.mode ≠ .long64)))) := by
  rw [← truncAddr_ofInt, BitVec.ofInt_add, ← eq_ofInt_toNat, ← truncAddr_ofInt]
  simp only [operandAddress, effectiveAddress, h, linearAddress]

/-- A register number with its extension bit, which 64-bit mode alone reads (R112, R117). -/
theorem num4_ext_toNat (s : State) (hi : Bool) (low : BitVec 3) :
    (num4 (s.ext hi) low).toNat = (if decide (s.mode = .long64) && hi then 8 else 0) + low.toNat := by
  have h : ∀ (hi : Bool) (low : BitVec 3), (num4 hi low).toNat = (if hi then 8 else 0) + low.toNat := by
    decide
  exact h (s.ext hi) low

theorem ofInt_shiftLeft (z : Int) (k : Nat) :
    BitVec.ofInt 64 z <<< k = BitVec.ofInt 64 (z * 2 ^ k) := by
  have hpow : BitVec.twoPow 64 k = BitVec.ofInt 64 (2 ^ k) := by
    have hcast : (2 : Int) ^ k = ((2 ^ k : Nat) : Int) := by push_cast; rfl
    rw [hcast, BitVec.ofInt_natCast]
    exact BitVec.eq_of_toNat_eq (BitVec.toNat_twoPow 64 k)
  rw [BitVec.shiftLeft_eq_mul_twoPow, BitVec.ofInt_mul, hpow]

/-- Settles O52: each part of the address is a word that stands for its integer, and the two truncations are
remainders. -/
theorem effectiveAddress_holds : Obligations.EffectiveAddress := by
  intro s pre override x b n len hmode hover long size num g index disp base operand stack
  have hsize : addressCount (addr32 s pre) = size := by
    rcases hmode with h | h <;> simp [size, long, addressCount, addr32, h]
  have hnum : ∀ hi low, (num4 (s.ext hi) low).toNat = num hi low := num4_ext_toNat s
  have hnumEq : ∀ hi low (c : BitVec 4), num4 (s.ext hi) low = c ↔ num hi low = c.toNat := fun hi low c => by
    rw [← BitVec.toNat_inj, hnum]
  have hreg : ∀ hi low, addrReg s (addr32 s pre) (num4 (s.ext hi) low) = BitVec.ofInt 64 (g (num hi low)) := by
    intro hi low
    have hnumber : num4 (s.ext hi) low = BitVec.ofNat 4 (num hi low) := by
      rw [← hnum, BitVec.ofNat_toNat, BitVec.setWidth_eq]
    rw [addrReg_eq_ofInt, hnumber, hsize]
  have hindex : ∀ i scale, scaledIndex s (addr32 s pre) (s.ext x) i scale = BitVec.ofInt 64 (index i scale) := by
    intro i scale
    simp only [scaledIndex, index, hreg, ofInt_shiftLeft, hnumEq]
    split_ifs <;> simp_all
  have hdisp : ∀ d, dispValue n d = BitVec.ofInt 64 (disp d) := by
    intro d
    cases d with
    | none => rfl
    | d8 d => exact ((BitVec.ofInt_mul _ _).trans (by rw [BitVec.ofInt_natCast]; rfl)).symm
    | d32 d => rfl
  have hoverride : segOverride pre = override := by
    cases override with
    | none => exact segOverride_eq_none hover
    | some sg =>
      obtain ⟨p, p', rfl, honly⟩ := hover
      exact segOverride_of_only honly
  have hbase : ∀ sg, ((segBase s sg).toNat : Int) = base sg := by
    intro sg
    rcases hmode with h | h <;> cases sg <;> simp [segBase, base, long, h]
  have hstack : ∀ low, defaultSeg (num4 (s.ext b) low) = if stack (num b low) then .ss else .ds := by
    intro low
    simp [defaultSeg, stack, hnumEq]
  have hoperand : ∀ {rm onStack z},
      rawAddress s (addr32 s pre) (s.ext x) (s.ext b) n len rm =
        (if onStack then .ss else .ds, BitVec.ofInt 64 z) →
      operandAddress s pre x b n len rm = operand onStack z := by
    intro rm onStack z h
    have hwrap : addressCount (decide (s.mode ≠ .long64)) = if long then 2 ^ 64 else 2 ^ 32 := by
      rcases hmode with h | h <;> simp [addressCount, long, h]
    rw [operandAddress_of_rawAddress h, hoverride, hbase, hsize, hwrap]
  refine ⟨fun rm d => hoperand ?_, fun sb d => hoperand ?_, fun scale i d => hoperand ?_, fun d => hoperand ?_⟩
  · rw [rawAddress, hstack, hreg, hdisp, BitVec.ofInt_add]
  · rw [rawAddress, hstack, hreg, hindex, hdisp, BitVec.ofInt_add, BitVec.ofInt_add]
  · rw [rawAddress, hindex, BitVec.ofInt_add]
    rfl
  · have hnext : (if s.mode = .long64 then s.nextPc len else 0) =
        BitVec.ofInt 64 (if long then (s.rip.toNat + len : Int) else 0) := by
      rcases hmode with h | h
      · simp [long, State.nextPc, h, BitVec.ofInt_add]
      · simp [long, h]
    rw [rawAddress, BitVec.ofInt_add, hnext]
    rfl

end Sys2Proof.Machine
end

