-- ==== Sys2Proof/Proofs/VexEncodings.lean ====
section
/-! SUPPORT. The encodings of a VEX form with one operation: only the second source and the length are read
from what they differ in (R98, R182). -/

namespace Sys2Proof.Machine

open Sys2Proof

/-- A VEX form completes as another with the same registers does, when their second sources are read alike; the
pc apart, which each moves past itself. -/
theorem exec_vexForm_of_source_eq {i i' : Instr} {n : Nat} {pre pre' : List Prefix} {d s1 : BitVec 5}
    {x x' b b' : Bool} {rm rm' : RmOperand} {s t : State} (hi : VexForm i n pre d s1 x b rm)
    (hi' : VexForm i' n pre' d s1 x' b' rm')
    (hsrc : vexSource s pre' x' b' n i'.length rm' = vexSource s pre x b n i.length rm)
    (h : exec i s = .next t) : exec i' s = .next { t with rip := s.nextPc i'.length } := by
  rw [exec_vexForm hi, outcome_eq_next, vexSub_eq_ok] at h
  obtain ⟨henabled, src, mx, hread, hmx, rfl⟩ := h
  rw [exec_vexForm hi', outcome_eq_next, vexSub_eq_ok]
  exact ⟨henabled, src, mx, hsrc.trans hread, hmx, rfl⟩

/-- The same operand bytes under the same override and address size: `X` is read with a SIB byte only, the
length of the instruction by a lone displacement only. -/
theorem operandAddress_eq_of_same_operand {s : State} {pre pre' : List Prefix} {x x' b : Bool}
    {n len len' : Nat} {rm : RmOperand} (hmem : rm.isMem = true) (hseg : segOverride pre' = segOverride pre)
    (hsize : pre'.contains .addrSize = pre.contains .addrSize)
    (hx : (∃ r dsp, rm = .base r dsp) ∨ (x' = x ∧ ∀ dsp, rm ≠ .disp dsp)) :
    operandAddress s pre' x' b n len' rm = operandAddress s pre x b n len rm := by
  refine operandAddress_congr hseg hsize ?_
  rcases hx with ⟨r, dsp, rfl⟩ | ⟨rfl, hdisp⟩
  · rfl
  · cases rm with
    | reg r => cases hmem
    | disp d => exact absurd rfl (hdisp d)
    | base | sib | sibNoBase => rfl

/-- Settles O53: in each of the three ways the second sources are read alike. -/
theorem vexEncodingsAgree : Obligations.VexEncodingsAgree := by
  intro i i' n pre pre' d s1 x x' b b' rm rm' s t hi hi' hsame h
  refine exec_vexForm_of_source_eq hi hi' ?_ h
  rcases hsame with ⟨r, r', rfl, rfl, hreg⟩ | ⟨hmem, hmem', haddr⟩ | ⟨hmem, rfl, rfl, hseg, hsize, hx⟩
  · exact congrArg (fun q => Except.ok (regLanes s q)) hreg.symm
  · rw [vexSource_mem hmem, vexSource_mem hmem', haddr]
  · rw [vexSource_mem hmem, vexSource_mem hmem, operandAddress_eq_of_same_operand hmem hseg hsize hx]

end Sys2Proof.Machine
end

