-- ==== Sys2Proof/Proofs/RoundedMagnitude.lean ====
section
/-! SUPPORT. Rounding a magnitude to 53 bits (spec/40_numerics.md R147 step 6): the values of 53 significant
bits, and that rounding crosses none of them. -/

namespace Sys2Proof.Machine

open Sys2Proof

/-- A significand of at most 53 bits at any exponent: what rounding may deliver before it looks for overflow. -/
def Fits53 (g : Nat) : Prop := ∃ n k, n < 2 ^ 53 ∧ g = n * 2 ^ k

/-- `sh` of R147 step 6; a magnitude of 53 bits or fewer loses no bit. -/
def droppedBits (m : Nat) : Nat := m.log2 - 52

/-- `n` of R147 step 6 before rounding. -/
def keptUnits (m : Nat) : Nat := m >>> droppedBits m

/-- `rem` of R147 step 6. -/
def droppedPart (m : Nat) : Nat := m % 2 ^ droppedBits m

/-- `up` of R147 step 6. -/
def addsUnit (rc : Rounding) (s : Bool) (m : Nat) : Bool :=
  roundsUp rc s (keptUnits m) (droppedPart m) (2 ^ (droppedBits m - 1))

/-- `n` of R147 step 6 after rounding, before a carry moves it to the next exponent. -/
def roundedUnits (rc : Rounding) (s : Bool) (m : Nat) : Nat :=
  if addsUnit rc s m then keptUnits m + 1 else keptUnits m

/-- The magnitude `m` rounded to 53 bits with the exponent unbounded. -/
def roundedMag (rc : Rounding) (s : Bool) (m : Nat) : Nat := roundedUnits rc s m * 2 ^ droppedBits m

/-! ### The kept and the dropped part -/

theorem keptUnits_mul_add_droppedPart (m : Nat) : keptUnits m * 2 ^ droppedBits m + droppedPart m = m := by
  rw [keptUnits, droppedPart, Nat.shiftRight_eq_div_pow]
  exact Nat.div_add_mod' m _

theorem droppedPart_lt (m : Nat) : droppedPart m < 2 ^ droppedBits m := Nat.mod_lt _ (Nat.two_pow_pos _)

theorem keptUnits_lt (m : Nat) : keptUnits m < 2 ^ 53 := by
  rw [keptUnits, Nat.shiftRight_eq_div_pow, Nat.div_lt_iff_lt_mul (Nat.two_pow_pos _), ← Nat.pow_add]
  exact Nat.lt_log2_self.trans_le (Nat.pow_le_pow_right (by decide) (by rw [droppedBits]; omega))

/-- Bits are dropped only from a magnitude of more than 53 bits, and then 53 are kept. -/
theorem le_keptUnits {m : Nat} (h : droppedBits m ≠ 0) : 2 ^ 52 ≤ keptUnits m := by
  have hexp : 52 + droppedBits m = m.log2 := by
    rw [droppedBits] at h ⊢
    omega
  rw [keptUnits, Nat.shiftRight_eq_div_pow, Nat.le_div_iff_mul_le (Nat.two_pow_pos _), ← Nat.pow_add, hexp]
  refine Nat.log2_self_le ?_
  rintro rfl
  exact h rfl

theorem droppedBits_eq_zero {m : Nat} (h : m < 2 ^ 53) : droppedBits m = 0 := by
  by_cases hm : m = 0
  · rw [hm]
    rfl
  · have hlog := (Nat.log2_lt hm).mpr h
    rw [droppedBits]
    omega

theorem droppedPart_eq_zero_of_droppedBits {m : Nat} (h : droppedBits m = 0) : droppedPart m = 0 := by
  rw [droppedPart, h, Nat.pow_zero, Nat.mod_one]

theorem addsUnit_of_droppedPart_eq_zero {m : Nat} (rc : Rounding) (s : Bool) (h : droppedPart m = 0) :
    addsUnit rc s m = false := by
  simp [addsUnit, roundsUp, h]

theorem addsUnit_rn {s : Bool} {m : Nat} (h : droppedPart m ≠ 0) :
    addsUnit .rn s m = true ↔ 2 ^ (droppedBits m - 1) < droppedPart m ∨
      droppedPart m = 2 ^ (droppedBits m - 1) ∧ keptUnits m % 2 = 1 := by
  simp [addsUnit, roundsUp, h]

theorem addsUnit_rd (s : Bool) (m : Nat) : addsUnit .rd s m = (decide (droppedPart m ≠ 0) && s) := rfl

theorem addsUnit_ru (s : Bool) (m : Nat) : addsUnit .ru s m = (decide (droppedPart m ≠ 0) && !s) := rfl

theorem addsUnit_rz (s : Bool) (m : Nat) : addsUnit .rz s m = false := Bool.and_false _

/-! ### The rounded magnitude -/

/-- Rounding gives the multiple of the unit at or below `m`, or the next one. -/
theorem roundedMag_eq (rc : Rounding) (s : Bool) (m : Nat) :
    roundedMag rc s m =
      keptUnits m * 2 ^ droppedBits m + if addsUnit rc s m then 2 ^ droppedBits m else 0 := by
  rw [roundedMag, roundedUnits]
  split
  · exact Nat.succ_mul _ _
  · rfl

theorem roundedMag_of_droppedPart_eq_zero {m : Nat} (rc : Rounding) (s : Bool) (h : droppedPart m = 0) :
    roundedMag rc s m = m := by
  have hsplit := keptUnits_mul_add_droppedPart m
  rw [roundedMag, roundedUnits, addsUnit_of_droppedPart_eq_zero rc s h]
  rwa [h] at hsplit

theorem roundedMag_le_self {rc : Rounding} {s : Bool} {m : Nat} (h : addsUnit rc s m = false) :
    roundedMag rc s m ≤ m := by
  have hsplit := keptUnits_mul_add_droppedPart m
  rw [roundedMag_eq, h, if_neg Bool.false_ne_true]
  omega

theorem le_roundedMag_self {rc : Rounding} {s : Bool} {m : Nat}
    (h : droppedPart m ≠ 0 → addsUnit rc s m = true) : m ≤ roundedMag rc s m := by
  by_cases hpart : droppedPart m = 0
  · exact (roundedMag_of_droppedPart_eq_zero rc s hpart).ge
  · have hsplit := keptUnits_mul_add_droppedPart m
    have hlt := droppedPart_lt m
    rw [roundedMag_eq, if_pos (h hpart)]
    omega

/-- RN and RZ round a magnitude alike whatever the sign. -/
theorem roundedMag_of_symmetric {rc : Rounding} (h : rc = .rn ∨ rc = .rz) (s s' : Bool) (m : Nat) :
    roundedMag rc s m = roundedMag rc s' m := by
  rcases h with rfl | rfl <;> rfl

/-! ### Values of 53 significant bits -/

theorem fits53_of_lt {n : Nat} (h : n < 2 ^ 53) : Fits53 n := ⟨n, 0, h, by rw [Nat.pow_zero, Nat.mul_one]⟩

theorem fits53_two_pow (k : Nat) : Fits53 (2 ^ k) := ⟨1, k, by decide, (Nat.one_mul _).symm⟩

theorem fits53_of_dvd {m k : Nat} (hdvd : 2 ^ k ∣ m) (hlt : m < 2 ^ 53 * 2 ^ k) : Fits53 m := by
  obtain ⟨n, rfl⟩ := hdvd
  rw [Nat.mul_comm] at hlt ⊢
  exact ⟨n, k, Nat.lt_of_mul_lt_mul_right hlt, rfl⟩

/-- No value of 53 significant bits lies strictly between the two multiples of the unit next to `m`: one with a
smaller unit is too small. -/
theorem Fits53.le_or_le {g : Nat} (hg : Fits53 g) (m : Nat) :
    g ≤ keptUnits m * 2 ^ droppedBits m ∨ keptUnits m * 2 ^ droppedBits m + 2 ^ droppedBits m ≤ g := by
  obtain ⟨n, k, hn, rfl⟩ := hg
  rw [← Nat.succ_mul]
  rcases Nat.lt_or_ge k (droppedBits m) with hk | hk
  · left
    calc n * 2 ^ k ≤ 2 ^ 53 * 2 ^ k := Nat.mul_le_mul_right _ hn.le
      _ = 2 ^ 52 * 2 ^ (k + 1) := by ring
      _ ≤ keptUnits m * 2 ^ droppedBits m :=
        Nat.mul_le_mul (le_keptUnits (by omega)) (Nat.pow_le_pow_right (by decide) hk)
  · have hmul : n * 2 ^ k = n * 2 ^ (k - droppedBits m) * 2 ^ droppedBits m := by
      rw [Nat.mul_assoc, ← Nat.pow_add, Nat.sub_add_cancel hk]
    rw [hmul]
    rcases Nat.lt_or_ge (keptUnits m) (n * 2 ^ (k - droppedBits m)) with h | h
    · exact .inr (Nat.mul_le_mul_right _ h)
    · exact .inl (Nat.mul_le_mul_right _ h)

theorem Fits53.droppedPart_eq_zero {m : Nat} (h : Fits53 m) : droppedPart m = 0 := by
  have hsplit := keptUnits_mul_add_droppedPart m
  have hlt := droppedPart_lt m
  rcases h.le_or_le m with hle | hle <;> omega

/-- Rounding does not cross a value of 53 significant bits, in any mode. -/
theorem Fits53.le_roundedMag {g m : Nat} (hg : Fits53 g) (rc : Rounding) (s : Bool) (h : g ≤ m) :
    g ≤ roundedMag rc s m := by
  have hsplit := keptUnits_mul_add_droppedPart m
  have hlt := droppedPart_lt m
  rw [roundedMag_eq]
  rcases hg.le_or_le m with hle | hle <;> omega

/-- The same from below. -/
theorem Fits53.roundedMag_le {g m : Nat} (hg : Fits53 g) (rc : Rounding) (s : Bool) (h : m ≤ g) :
    roundedMag rc s m ≤ g := by
  by_cases hpart : droppedPart m = 0
  · rwa [roundedMag_of_droppedPart_eq_zero rc s hpart]
  · have hsplit := keptUnits_mul_add_droppedPart m
    rw [roundedMag_eq]
    rcases hg.le_or_le m with hle | hle
    · omega
    · split <;> omega

theorem roundedMag_of_lt {m : Nat} (rc : Rounding) (s : Bool) (h : m < 2 ^ 53) : roundedMag rc s m = m :=
  roundedMag_of_droppedPart_eq_zero rc s (fits53_of_lt h).droppedPart_eq_zero

theorem roundedUnits_of_lt {m : Nat} (rc : Rounding) (s : Bool) (h : m < 2 ^ 53) : roundedUnits rc s m = m := by
  have hmag := roundedMag_of_lt rc s h
  rwa [roundedMag, droppedBits_eq_zero h, Nat.pow_zero, Nat.mul_one] at hmag

/-- In RN no value of 53 significant bits is nearer, and of two as near the one with even units is taken. -/
theorem roundedMag_rn_nearest {g : Nat} (s : Bool) (m : Nat) (hg : Fits53 g) :
    ((roundedMag .rn s m : Int) - m).natAbs ≤ ((g : Int) - m).natAbs ∧
      (((roundedMag .rn s m : Int) - m).natAbs = ((g : Int) - m).natAbs → g ≠ roundedMag .rn s m →
        roundedUnits .rn s m % 2 = 0) := by
  by_cases hpart : droppedPart m = 0
  · rw [roundedMag_of_droppedPart_eq_zero .rn s hpart]
    omega
  · have hsplit := keptUnits_mul_add_droppedPart m
    have hlt := droppedPart_lt m
    have hbits : droppedBits m ≠ 0 := mt droppedPart_eq_zero_of_droppedBits hpart
    have hhalf : 2 ^ droppedBits m = 2 * 2 ^ (droppedBits m - 1) := by
      rw [← Nat.pow_succ', Nat.succ_eq_add_one, Nat.sub_add_cancel (by omega)]
    have hup := addsUnit_rn (s := s) hpart
    have hbetween := hg.le_or_le m
    rw [roundedMag_eq, roundedUnits]
    cases hcase : addsUnit .rn s m with
    | false =>
      simp only [hcase, Bool.false_eq_true, if_false, false_iff] at hup ⊢
      omega
    | true =>
      simp only [hcase, if_true, true_iff] at hup ⊢
      omega

/-! ### Reaching a power of two -/

/-- Between the greatest value at an exponent and the next power of two every kept bit is a one. -/
theorem keptUnits_of_top {m k : Nat} (hge : (2 ^ 53 - 1) * 2 ^ k ≤ m) (hlt : m < 2 ^ 53 * 2 ^ k) :
    droppedBits m = k ∧ keptUnits m = 2 ^ 53 - 1 := by
  have hpos := Nat.two_pow_pos k
  have hlog : m.log2 = 52 + k := by
    rw [Nat.log2_eq_iff (by omega), Nat.pow_succ', Nat.pow_add]
    omega
  have hbits : droppedBits m = k := by rw [droppedBits, hlog, Nat.add_sub_cancel_left]
  refine ⟨hbits, ?_⟩
  rw [keptUnits, hbits, Nat.shiftRight_eq_div_pow]
  exact Nat.div_eq_of_lt_le hge hlt

/-- A magnitude rounds to `2^53 * 2^(k+1)` or more when it is as great, or when it is not below the last value
before that and rounds up from it; `2^k` is half a unit there. -/
theorem le_roundedMag_iff (rc : Rounding) (s : Bool) (m k : Nat) :
    2 ^ 53 * 2 ^ (k + 1) ≤ roundedMag rc s m ↔ 2 ^ 53 * 2 ^ (k + 1) ≤ m ∨
      ((2 ^ 53 - 1) * 2 ^ (k + 1) ≤ m ∧
        roundsUp rc s (2 ^ 53 - 1) (m - (2 ^ 53 - 1) * 2 ^ (k + 1)) (2 ^ k) = true) := by
  have hmax : Fits53 ((2 ^ 53 - 1) * 2 ^ (k + 1)) := ⟨_, _, by decide, rfl⟩
  have htop : Fits53 (2 ^ 53 * 2 ^ (k + 1)) := by
    rw [← Nat.pow_add]
    exact fits53_two_pow _
  have hpos := Nat.two_pow_pos (k + 1)
  rcases Nat.lt_or_ge m (2 ^ 53 * 2 ^ (k + 1)) with hlt | hge
  · rcases Nat.lt_or_ge m ((2 ^ 53 - 1) * 2 ^ (k + 1)) with hlow | hhigh
    · have hle := hmax.roundedMag_le rc s hlow.le
      constructor <;> omega
    · obtain ⟨hbits, hunits⟩ := keptUnits_of_top hhigh hlt
      have hsplit := keptUnits_mul_add_droppedPart m
      rw [hbits, hunits] at hsplit
      have hpart : m - (2 ^ 53 - 1) * 2 ^ (k + 1) = droppedPart m := by omega
      have hup : addsUnit rc s m =
          roundsUp rc s (2 ^ 53 - 1) (m - (2 ^ 53 - 1) * 2 ^ (k + 1)) (2 ^ k) := by
        rw [addsUnit, hbits, hunits, hpart, Nat.add_sub_cancel]
      rw [roundedMag_eq, hbits, hunits, hup]
      split
      case isTrue h => exact iff_of_true (by omega) (.inr ⟨hhigh, h⟩)
      case isFalse h => exact iff_of_false (by omega) (not_or.mpr ⟨by omega, fun h' => h h'.2⟩)
  · exact iff_of_true (htop.le_roundedMag rc s hge) (.inl hge)

end Sys2Proof.Machine
end

