-- ==== Sys2Proof/Proofs/DoubleFields.lean ====
section
/-! SUPPORT. The double format by its fields (spec/40_numerics.md R140, R142, R145): packing, the sign, quieting,
the classes, and denormals-are-zeros. -/

namespace Sys2Proof.Machine

open Sys2Proof

/-! ### Fields -/

theorem expOf_lt (x : Quad) : expOf x < 2 ^ 11 := BitVec.isLt _

theorem fracOf_lt (x : Quad) : fracOf x < 2 ^ 52 := BitVec.isLt _

/-- A double is its three fields. -/
theorem quad_ext {x y : Quad} (hs : signOf x = signOf y) (he : expOf x = expOf y)
    (hf : fracOf x = fracOf y) : x = y := by
  apply BitVec.eq_of_getLsbD_eq
  intro i hi
  have hexp := congrArg (·.getLsbD (i - 52)) (BitVec.eq_of_toNat_eq he)
  have hfrac := congrArg (·.getLsbD i) (BitVec.eq_of_toNat_eq hf)
  simp only [BitVec.getLsbD_extractLsb'] at hexp hfrac
  by_cases h52 : i < 52
  · simpa [h52] using hfrac
  · by_cases h63 : i < 63
    · simpa [show i - 52 < 11 by omega, show 52 + (i - 52) = i by omega] using hexp
    · rw [show i = 63 by omega]
      exact hs

theorem getLsbD_pack (s : Bool) (e f i : Nat) :
    (pack s e f).getLsbD i = if i < 52 then (BitVec.ofNat 52 f).getLsbD i
      else if i < 63 then (BitVec.ofNat 11 e).getLsbD (i - 52) else (BitVec.ofBool s).getLsbD (i - 63) := by
  refine BitVec.getLsbD_append.trans (ite_congr rfl (fun _ => rfl) fun h => ?_)
  exact BitVec.getLsbD_append.trans (ite_congr (propext (by omega)) (fun _ => rfl) fun _ => by rw [Nat.sub_sub])

@[simp] theorem signOf_pack (s : Bool) (e f : Nat) : signOf (pack s e f) = s := by
  simp only [signOf, getLsbD_pack]
  simp

theorem expOf_pack {e : Nat} (s : Bool) (f : Nat) (he : e < 2 ^ 11) : expOf (pack s e f) = e := by
  have h : (pack s e f).extractLsb' 52 11 = BitVec.ofNat 11 e := by
    apply BitVec.eq_of_getLsbD_eq
    intro i hi
    rw [BitVec.getLsbD_extractLsb', getLsbD_pack, if_neg (by omega), if_pos (by omega)]
    simp [hi]
  rw [expOf, h, BitVec.toNat_ofNat, Nat.mod_eq_of_lt he]

theorem fracOf_pack {f : Nat} (s : Bool) (e : Nat) (hf : f < 2 ^ 52) : fracOf (pack s e f) = f := by
  have h : (pack s e f).extractLsb' 0 52 = BitVec.ofNat 52 f := by
    apply BitVec.eq_of_getLsbD_eq
    intro i hi
    rw [BitVec.getLsbD_extractLsb', getLsbD_pack, if_pos (by omega)]
    simp [hi]
  rw [fracOf, h, BitVec.toNat_ofNat, Nat.mod_eq_of_lt hf]

/-! ### A new sign -/

theorem expOf_congr {x y : Quad} (h : ∀ i, i < 63 → x.getLsbD i = y.getLsbD i) : expOf x = expOf y := by
  refine congrArg BitVec.toNat (BitVec.eq_of_getLsbD_eq fun i hi => ?_)
  rw [BitVec.getLsbD_extractLsb', BitVec.getLsbD_extractLsb', h (52 + i) (by omega)]

theorem fracOf_congr {x y : Quad} (h : ∀ i, i < 63 → x.getLsbD i = y.getLsbD i) : fracOf x = fracOf y := by
  refine congrArg BitVec.toNat (BitVec.eq_of_getLsbD_eq fun i hi => ?_)
  rw [BitVec.getLsbD_extractLsb', BitVec.getLsbD_extractLsb', h (0 + i) (by omega)]

theorem getLsbD_withSign (s : Bool) (w : Quad) (i : Nat) :
    (withSign s w).getLsbD i = if i < 63 then w.getLsbD i else (BitVec.ofBool s).getLsbD (i - 63) :=
  BitVec.getLsbD_append.trans (ite_congr rfl (fun h => by simp [h]) fun _ => rfl)

@[simp] theorem signOf_withSign (s : Bool) (w : Quad) : signOf (withSign s w) = s := by
  rw [signOf, getLsbD_withSign]
  simp

@[simp] theorem expOf_withSign (s : Bool) (w : Quad) : expOf (withSign s w) = expOf w :=
  expOf_congr fun i hi => (getLsbD_withSign s w i).trans (if_pos hi)

@[simp] theorem fracOf_withSign (s : Bool) (w : Quad) : fracOf (withSign s w) = fracOf w :=
  fracOf_congr fun i hi => (getLsbD_withSign s w i).trans (if_pos hi)

@[simp] theorem signOf_signedZero (s : Bool) : signOf (signedZero s) = s := signOf_withSign s 0

@[simp] theorem expOf_signedZero (s : Bool) : expOf (signedZero s) = 0 := expOf_withSign s 0

@[simp] theorem fracOf_signedZero (s : Bool) : fracOf (signedZero s) = 0 := fracOf_withSign s 0

theorem getLsbD_negate (x : Quad) {i : Nat} (hi : i < 63) : (negate x).getLsbD i = x.getLsbD i := by
  have hmask : ∀ i : Fin 63, (0x8000000000000000#64).getLsbD i = false := by decide
  rw [negate, BitVec.getLsbD_xor, hmask ⟨i, hi⟩, Bool.xor_false]

@[simp] theorem signOf_negate (x : Quad) : signOf (negate x) = !signOf x := by
  simp [signOf, negate]

@[simp] theorem expOf_negate (x : Quad) : expOf (negate x) = expOf x :=
  expOf_congr fun _ => getLsbD_negate x

@[simp] theorem fracOf_negate (x : Quad) : fracOf (negate x) = fracOf x :=
  fracOf_congr fun _ => getLsbD_negate x

theorem negate_signedZero (s : Bool) : negate (signedZero s) = signedZero (!s) :=
  quad_ext (by simp) (by simp) (by simp)

/-! ### Classes -/

theorem isFinite_iff {x : Quad} : isFinite x = true ↔ expOf x < 2047 := by
  have hlt := expOf_lt x
  simp only [isFinite, decide_eq_true_eq]
  omega

theorem isInf_iff {x : Quad} : isInf x = true ↔ expOf x = 2047 ∧ fracOf x = 0 := by
  simp [isInf]

theorem testBit_fracOf (x : Quad) : (fracOf x).testBit 51 = x.getLsbD 51 := by
  rw [fracOf, BitVec.testBit_toNat, BitVec.getLsbD_extractLsb']
  rfl

/-- The quiet bit is one of the fraction's, so a NaN of either kind has a fraction. -/
theorem isNaN_iff {x : Quad} : isNaN x = true ↔ expOf x = 2047 ∧ fracOf x ≠ 0 := by
  have hbit : x.getLsbD 51 = true → fracOf x ≠ 0 := by
    intro h h0
    rw [← testBit_fracOf, h0] at h
    exact absurd h (by decide)
  rw [isNaN, isSNaN, isQNaN]
  cases hq : x.getLsbD 51 with
  | false => simp
  | true => simp [hbit hq]

theorem isNaN_or_isInf_or_isFinite (x : Quad) : isNaN x = true ∨ isInf x = true ∨ isFinite x = true := by
  rw [isNaN_iff, isInf_iff, isFinite_iff]
  have hlt := expOf_lt x
  omega

theorem isNaN_of_isFinite {x : Quad} (h : isFinite x = true) : isNaN x = false := by
  rw [isFinite_iff] at h
  rw [← Bool.not_eq_true, isNaN_iff]
  omega

theorem isInf_of_isFinite {x : Quad} (h : isFinite x = true) : isInf x = false := by
  rw [isFinite_iff] at h
  rw [← Bool.not_eq_true, isInf_iff]
  omega

theorem isNaN_of_isInf {x : Quad} (h : isInf x = true) : isNaN x = false := by
  rw [isInf_iff] at h
  rw [← Bool.not_eq_true, isNaN_iff]
  omega

theorem isFinite_of_isInf {x : Quad} (h : isInf x = true) : isFinite x = false := by
  rw [← Bool.not_eq_true]
  exact fun hfin => Bool.false_ne_true ((isInf_of_isFinite hfin).symm.trans h)

theorem isFinite_of_isNaN {x : Quad} (h : isNaN x = true) : isFinite x = false := by
  rw [← Bool.not_eq_true]
  exact fun hfin => Bool.false_ne_true ((isNaN_of_isFinite hfin).symm.trans h)

theorem isSNaN_of_isNaN {x : Quad} (h : isNaN x = false) : isSNaN x = false := (Bool.or_eq_false_iff.mp h).1

theorem isSNaN_of_isQNaN {x : Quad} (h : isQNaN x = true) : isSNaN x = false := by
  rw [isQNaN, Bool.and_eq_true] at h
  rw [isSNaN, h.2, Bool.not_true, Bool.and_false]

theorem isFinite_of_isDen {x : Quad} (h : isDen x = true) : isFinite x = true := by
  rw [isDen, Bool.and_eq_true, decide_eq_true_eq] at h
  rw [isFinite_iff, h.1]
  decide

theorem isDen_of_not_isFinite {x : Quad} (h : isFinite x = false) : isDen x = false := by
  rw [← Bool.not_eq_true] at h ⊢
  exact mt isFinite_of_isDen h

theorem isZero_iff_eq_signedZero {x : Quad} : isZero x = true ↔ x = signedZero (signOf x) := by
  rw [isZero, Bool.and_eq_true, decide_eq_true_eq, decide_eq_true_eq]
  constructor
  · rintro ⟨hexp, hfrac⟩
    exact quad_ext (by simp) (by simp [hexp]) (by simp [hfrac])
  · intro h
    rw [h]
    simp

@[simp] theorem isFinite_signedZero (s : Bool) : isFinite (signedZero s) = true := by
  simp [isFinite]

@[simp] theorem isDen_signedZero (s : Bool) : isDen (signedZero s) = false := by
  simp [isDen]

@[simp] theorem isInf_negate (x : Quad) : isInf (negate x) = isInf x := by
  simp [isInf]

@[simp] theorem isFinite_negate (x : Quad) : isFinite (negate x) = isFinite x := by
  simp [isFinite]

theorem isFinite_pack {e f : Nat} (s : Bool) (he : e < 2047) : isFinite (pack s e f) = true := by
  rwa [isFinite_iff, expOf_pack s f (by omega)]

/-! ### A quieted NaN (R142) -/

theorem getLsbD_quiet (x : Quad) (i : Nat) : (quiet x).getLsbD i = (x.getLsbD i || decide (i = 51)) := by
  have hmask : 0x0008000000000000#64 = BitVec.twoPow 64 51 := by decide
  rw [quiet, BitVec.getLsbD_or, hmask, BitVec.getLsbD_twoPow]
  simp [eq_comm]

@[simp] theorem signOf_quiet (x : Quad) : signOf (quiet x) = signOf x := by
  rw [signOf, getLsbD_quiet]
  exact Bool.or_false _

@[simp] theorem expOf_quiet (x : Quad) : expOf (quiet x) = expOf x := by
  refine congrArg BitVec.toNat (BitVec.eq_of_getLsbD_eq fun i hi => ?_)
  rw [BitVec.getLsbD_extractLsb', BitVec.getLsbD_extractLsb', getLsbD_quiet]
  simp [show 52 + i ≠ 51 by omega]

theorem extractLsb'_quiet (x : Quad) : (quiet x).extractLsb' 0 51 = x.extractLsb' 0 51 := by
  refine BitVec.eq_of_getLsbD_eq fun i hi => ?_
  rw [BitVec.getLsbD_extractLsb', BitVec.getLsbD_extractLsb', getLsbD_quiet]
  simp [show i ≠ 51 by omega]

theorem isQNaN_quiet {x : Quad} (h : isNaN x = true) : isQNaN (quiet x) = true := by
  simp [isQNaN, getLsbD_quiet, (isNaN_iff.mp h).1]

@[simp] theorem isFinite_quiet (x : Quad) : isFinite (quiet x) = isFinite x := by
  simp [isFinite]

/-! ### Denormals-are-zeros (R145) -/

theorem and_signBit (x : Quad) : x &&& 0x8000000000000000#64 = signedZero (signOf x) := by
  have hmask : 0x8000000000000000#64 = BitVec.twoPow 64 63 := by decide
  refine BitVec.eq_of_getLsbD_eq fun i hi => ?_
  rw [BitVec.getLsbD_and, hmask, BitVec.getLsbD_twoPow, signedZero, getLsbD_withSign]
  by_cases h63 : i < 63
  · simp [h63, show 63 ≠ i by omega]
  · rw [show i = 63 by omega]
    simp [signOf]

theorem dazIn_eq (x : Quad) (daz : Bool) :
    dazIn x daz = if isDen x && daz then signedZero (signOf x) else x := by
  rw [dazIn, and_signBit, Bool.and_comm]

@[simp] theorem dazIn_false (x : Quad) : dazIn x false = x := by simp [dazIn]

theorem dazIn_of_not_isDen {x : Quad} (daz : Bool) (h : isDen x = false) : dazIn x daz = x := by
  simp [dazIn, h]

/-- An infinity or a NaN passes unchanged. -/
theorem dazIn_of_not_isFinite {x : Quad} (daz : Bool) (h : isFinite x = false) : dazIn x daz = x :=
  dazIn_of_not_isDen daz (isDen_of_not_isFinite h)

theorem dazIn_zero (daz : Bool) : dazIn 0 daz = 0 := dazIn_of_not_isDen daz (by decide)

@[simp] theorem signOf_dazIn (x : Quad) (daz : Bool) : signOf (dazIn x daz) = signOf x := by
  rw [dazIn_eq]
  split
  · exact signOf_signedZero _
  · rfl

@[simp] theorem isDen_dazIn (x : Quad) (daz : Bool) : isDen (dazIn x daz) = (isDen x && !daz) := by
  rw [dazIn_eq]
  cases daz <;> cases h : isDen x <;> simp [h]

/-- Every class that holds no finite value is kept. -/
theorem class_dazIn {P : Quad → Bool} (h : ∀ x, isFinite x = true → P x = false) (x : Quad) (daz : Bool) :
    P (dazIn x daz) = P x := by
  rw [dazIn_eq]
  split
  case isTrue hden =>
    rw [h _ (isFinite_signedZero _), h x (isFinite_of_isDen (Bool.and_eq_true_iff.mp hden).1)]
  case isFalse => rfl

@[simp] theorem isNaN_dazIn (x : Quad) (daz : Bool) : isNaN (dazIn x daz) = isNaN x :=
  class_dazIn (fun _ => isNaN_of_isFinite) x daz

@[simp] theorem isSNaN_dazIn (x : Quad) (daz : Bool) : isSNaN (dazIn x daz) = isSNaN x :=
  class_dazIn (fun _ h => isSNaN_of_isNaN (isNaN_of_isFinite h)) x daz

@[simp] theorem isFinite_dazIn (x : Quad) (daz : Bool) : isFinite (dazIn x daz) = isFinite x :=
  Bool.not_inj (class_dazIn (P := fun x => !isFinite x) (fun _ h => by rw [h]; rfl) x daz)

end Sys2Proof.Machine
end

