-- ==== Sys2Proof/Proofs/DoubleValues.lean ====
section
/-! SUPPORT. The exact value of a finite double (spec/40_numerics.md R143): its bounds, that it has 53 significant
bits, and that it fixes the double unless it is zero. -/

namespace Sys2Proof.Machine

open Sys2Proof

/-! ### Significand and magnitude -/

theorem significand_lt (x : Quad) : significand x < 2 ^ 53 := by
  have hlt := fracOf_lt x
  rw [significand]
  split <;> omega

/-- A value with an exponent field that is not zero has its leading bit. -/
theorem le_significand {x : Quad} (h : expOf x ≠ 0) : 2 ^ 52 ≤ significand x := by
  rw [significand, if_neg h]
  exact Nat.le_add_right _ _

theorem fits53_magnitude (x : Quad) : Fits53 (magnitude x) := ⟨_, _, significand_lt x, rfl⟩

theorem magnitude_lt_of_expOf_le {x : Quad} {k : Nat} (h : max (expOf x) 1 - 1 ≤ k) :
    magnitude x < 2 ^ 53 * 2 ^ k :=
  calc magnitude x < 2 ^ 53 * 2 ^ (max (expOf x) 1 - 1) :=
        Nat.mul_lt_mul_of_pos_right (significand_lt x) (Nat.two_pow_pos _)
    _ ≤ 2 ^ 53 * 2 ^ k := Nat.mul_le_mul_left _ (Nat.pow_le_pow_right (by decide) h)

theorem magnitude_lt_of_expOf_lt {x y : Quad} (h : max (expOf x) 1 < max (expOf y) 1) :
    magnitude x < magnitude y :=
  calc magnitude x < 2 ^ 53 * 2 ^ (max (expOf x) 1 - 1) := magnitude_lt_of_expOf_le le_rfl
    _ = 2 ^ 52 * 2 ^ (max (expOf x) 1 - 1 + 1) := by ring
    _ ≤ magnitude y :=
        Nat.mul_le_mul (le_significand (by omega)) (Nat.pow_le_pow_right (by decide) (by omega))

theorem magnitude_of_expOf_eq_zero {x : Quad} (h : expOf x = 0) : magnitude x = fracOf x := by
  simp [magnitude, significand, h]

theorem magnitude_lt_iff {x : Quad} : magnitude x < 2 ^ 52 ↔ expOf x = 0 := by
  constructor
  · intro hlt
    by_contra hexp
    have hle : significand x ≤ magnitude x := Nat.le_mul_of_pos_right _ (Nat.two_pow_pos _)
    have hlead := le_significand hexp
    omega
  · intro hexp
    rw [magnitude_of_expOf_eq_zero hexp]
    exact fracOf_lt x

theorem isDen_iff {x : Quad} : isDen x = true ↔ magnitude x ≠ 0 ∧ magnitude x < 2 ^ 52 := by
  rw [magnitude_lt_iff, isDen, Bool.and_eq_true, decide_eq_true_eq, decide_eq_true_eq, and_comm]
  exact and_congr_left fun h => by rw [magnitude_of_expOf_eq_zero h]

theorem isZero_iff_magnitude {x : Quad} : isZero x = true ↔ magnitude x = 0 := by
  have hzero : magnitude x = 0 → expOf x = 0 := fun h => magnitude_lt_iff.mp (h ▸ by decide)
  rw [isZero, Bool.and_eq_true, decide_eq_true_eq, decide_eq_true_eq, ← and_iff_right_of_imp hzero]
  exact and_congr_right fun h => by rw [magnitude_of_expOf_eq_zero h]

@[simp] theorem magnitude_signedZero (s : Bool) : magnitude (signedZero s) = 0 := by
  rw [magnitude_of_expOf_eq_zero (expOf_signedZero s), fracOf_signedZero]

@[simp] theorem magnitude_negate (x : Quad) : magnitude (negate x) = magnitude x := by
  simp [magnitude, significand]

theorem magnitude_pack_denormal {f : Nat} (s : Bool) (hf : f < 2 ^ 52) : magnitude (pack s 0 f) = f := by
  rw [magnitude_of_expOf_eq_zero (expOf_pack s f (by decide)), fracOf_pack s 0 hf]

theorem magnitude_pack_normal {n k : Nat} (s : Bool) (hk : k < 2047) (hn : 2 ^ 52 ≤ n) (hn' : n < 2 ^ 53) :
    magnitude (pack s (k + 1) (n - 2 ^ 52)) = n * 2 ^ k := by
  rw [magnitude, significand, expOf_pack s _ (by omega), fracOf_pack s _ (by omega), if_neg (by omega),
    Nat.add_sub_cancel' hn, Nat.max_eq_left (Nat.le_add_left 1 k), Nat.add_sub_cancel]

/-- A double is fixed by its sign and magnitude: no value has two encodings. -/
theorem eq_of_magnitude_eq {x y : Quad} (hs : signOf x = signOf y) (hm : magnitude x = magnitude y) :
    x = y := by
  have hmax : max (expOf x) 1 = max (expOf y) 1 := by
    rcases Nat.lt_trichotomy (max (expOf x) 1) (max (expOf y) 1) with h | h | h
    · exact absurd hm (magnitude_lt_of_expOf_lt h).ne
    · exact h
    · exact absurd hm (magnitude_lt_of_expOf_lt h).ne'
  have hzero : expOf x = 0 ↔ expOf y = 0 := by rw [← magnitude_lt_iff, ← magnitude_lt_iff, hm]
  have hexp : expOf x = expOf y := by omega
  have hsig : significand x = significand y := by
    rw [magnitude, magnitude, hexp] at hm
    exact Nat.eq_of_mul_eq_mul_right (Nat.two_pow_pos _) hm
  have hfrac : fracOf x = fracOf y := by
    rw [significand, significand, hexp] at hsig
    split at hsig <;> omega
  exact quad_ext hs hexp hfrac

/-! ### The bound of finite values -/

/-- The least magnitude of 53 significant bits above `MAXF`, in units of `2^-1074` (R147 step 7). -/
def overflowBound : Nat := 2 ^ 53 * 2 ^ 2045

theorem magnitude_lt_overflowBound {x : Quad} (h : isFinite x = true) : magnitude x < overflowBound := by
  have hexp := isFinite_iff.mp h
  exact magnitude_lt_of_expOf_le (k := 2045) (by omega)

theorem two_pow_53_mul_le_iff {n k j : Nat} (hn : 2 ^ 52 ≤ n) (hn' : n < 2 ^ 53) :
    2 ^ 53 * 2 ^ j ≤ n * 2 ^ k ↔ j < k := by
  constructor
  · intro h
    by_contra hk
    have hle : n * 2 ^ k ≤ n * 2 ^ j := Nat.mul_le_mul_left _ (Nat.pow_le_pow_right (by decide) (by omega))
    have hlt : n * 2 ^ j < 2 ^ 53 * 2 ^ j := Nat.mul_lt_mul_of_pos_right hn' (Nat.two_pow_pos _)
    omega
  · intro h
    calc 2 ^ 53 * 2 ^ j = 2 ^ 52 * 2 ^ (j + 1) := by ring
      _ ≤ n * 2 ^ k := Nat.mul_le_mul hn (Nat.pow_le_pow_right (by decide) h)

/-- A magnitude with a normalised significand reaches the bound exactly when its biased exponent `k + 1` is 2047
or more. -/
theorem overflowBound_le_iff {n k : Nat} (hn : 2 ^ 52 ≤ n) (hn' : n < 2 ^ 53) :
    overflowBound ≤ n * 2 ^ k ↔ 2045 < k := two_pow_53_mul_le_iff hn hn'

theorem two_pow_53_le_mul (j : Nat) : 2 ^ 53 ≤ 2 ^ 53 * 2 ^ j := Nat.le_mul_of_pos_right _ (Nat.two_pow_pos j)

theorem two_pow_53_le_overflowBound : 2 ^ 53 ≤ overflowBound := two_pow_53_le_mul 2045

/-! ### The signed value -/

/-- A magnitude with the sign of `d`. -/
def signedLike (d : Int) (m : Nat) : Int := if d < 0 then -(m : Int) else m

@[simp] theorem natAbs_signedLike (d : Int) (m : Nat) : (signedLike d m).natAbs = m := by
  rw [signedLike]
  split <;> omega

theorem signedLike_natAbs (d : Int) : signedLike d d.natAbs = d := by
  rw [signedLike]
  split <;> omega

theorem signedLike_neg {d : Int} (hd : d ≠ 0) (m : Nat) : signedLike (-d) m = -signedLike d m := by
  rw [signedLike, signedLike]
  split <;> split <;> omega

theorem intValue_eq_signedLike {x : Quad} {d : Int} (h : signOf x = decide (d < 0)) :
    intValue x = signedLike d (magnitude x) := by
  simp [intValue, signedLike, h]

@[simp] theorem natAbs_intValue (x : Quad) : (intValue x).natAbs = magnitude x := by
  rw [intValue]
  split <;> simp

theorem intValue_eq_or_neg (x : Quad) : intValue x = magnitude x ∨ intValue x = -magnitude x := by
  rw [intValue]
  split
  · exact .inr rfl
  · exact .inl rfl

theorem intValue_eq_zero_iff {x : Quad} : intValue x = 0 ↔ isZero x = true := by
  rw [isZero_iff_magnitude, ← natAbs_intValue, Int.natAbs_eq_zero]

@[simp] theorem intValue_signedZero (s : Bool) : intValue (signedZero s) = 0 := by
  rw [← Int.natAbs_eq_zero, natAbs_intValue, magnitude_signedZero]

@[simp] theorem intValue_negate (x : Quad) : intValue (negate x) = -intValue x := by
  rw [intValue, intValue, signOf_negate, magnitude_negate]
  cases signOf x with
  | false => rfl
  | true => exact (neg_neg _).symm

theorem signOf_eq_of_intValue_ne_zero {x : Quad} (h : intValue x ≠ 0) :
    signOf x = decide (intValue x < 0) := by
  rw [intValue] at h ⊢
  split at h
  case isTrue hs => simp only [hs, if_true, true_eq_decide_iff]; omega
  case isFalse hs => simp only [hs, if_false, Bool.false_eq_true, false_eq_decide_iff]; omega

/-- A non-zero value has one encoding; only zero has two. -/
theorem eq_of_intValue_eq {x y : Quad} (h : intValue x = intValue y) (h0 : intValue x ≠ 0) : x = y := by
  refine eq_of_magnitude_eq ?_ (by rw [← natAbs_intValue, h, natAbs_intValue])
  rw [signOf_eq_of_intValue_ne_zero h0, signOf_eq_of_intValue_ne_zero (h ▸ h0), h]

theorem two_pow_dvd_intValue {x : Quad} {k : Nat} (h : k ≤ max (expOf x) 1 - 1) :
    ((2 ^ k : Nat) : Int) ∣ intValue x := by
  rw [Int.natCast_dvd, natAbs_intValue]
  exact Dvd.dvd.mul_left (Nat.pow_dvd_pow 2 h) _

/-- Sterbenz: a difference no greater than either operand is a multiple of the smaller of their two units, and
needs no more bits than the operand with that unit. -/
theorem fits53_sub {a b : Quad} (ha : (intValue a - intValue b).natAbs ≤ magnitude a)
    (hb : (intValue a - intValue b).natAbs ≤ magnitude b) : Fits53 (intValue a - intValue b).natAbs := by
  have hdvd : ∀ {k}, k ≤ max (expOf a) 1 - 1 → k ≤ max (expOf b) 1 - 1 →
      2 ^ k ∣ (intValue a - intValue b).natAbs := fun ha hb =>
    Int.natCast_dvd.mp (Int.dvd_sub (two_pow_dvd_intValue ha) (two_pow_dvd_intValue hb))
  rcases Nat.le_total (max (expOf a) 1 - 1) (max (expOf b) 1 - 1) with hle | hle
  · exact fits53_of_dvd (hdvd le_rfl hle) (ha.trans_lt (magnitude_lt_of_expOf_le le_rfl))
  · exact fits53_of_dvd (hdvd hle le_rfl) (hb.trans_lt (magnitude_lt_of_expOf_le le_rfl))

/-! ### The rounded value -/

/-- The difference `d` rounded to 53 bits with the exponent unbounded. -/
def roundedValue (rc : Rounding) (d : Int) : Int := signedLike d (roundedMag rc (decide (d < 0)) d.natAbs)

/-- Rounding crosses no double, in any mode. -/
theorem intValue_le_roundedValue {x : Quad} {d : Int} (rc : Rounding) (h : intValue x ≤ d) :
    intValue x ≤ roundedValue rc d := by
  have hle := (fits53_magnitude x).le_roundedMag (m := d.natAbs) rc (decide (d < 0))
  have hge := (fits53_magnitude x).roundedMag_le (m := d.natAbs) rc (decide (d < 0))
  have hsign := intValue_eq_or_neg x
  rw [roundedValue, signedLike]
  split <;> omega

/-- The same from below. -/
theorem roundedValue_le_intValue {x : Quad} {d : Int} (rc : Rounding) (h : d ≤ intValue x) :
    roundedValue rc d ≤ intValue x := by
  have hle := (fits53_magnitude x).le_roundedMag (m := d.natAbs) rc (decide (d < 0))
  have hge := (fits53_magnitude x).roundedMag_le (m := d.natAbs) rc (decide (d < 0))
  have hsign := intValue_eq_or_neg x
  rw [roundedValue, signedLike]
  split <;> omega

/-- A positive difference is truncated in RD, a negative one rounded away from zero. -/
theorem roundedValue_rd_le (d : Int) : roundedValue .rd d ≤ d := by
  rw [roundedValue, signedLike]
  by_cases hd : d < 0
  · have hge : d.natAbs ≤ roundedMag .rd true d.natAbs :=
      le_roundedMag_self fun hpart => by rw [addsUnit_rd, decide_eq_true hpart]; rfl
    rw [if_pos hd, decide_eq_true hd]
    omega
  · have hle : roundedMag .rd false d.natAbs ≤ d.natAbs :=
      roundedMag_le_self ((addsUnit_rd _ _).trans (Bool.and_false _))
    rw [if_neg hd, decide_eq_false hd]
    omega

/-- RU the other way. -/
theorem le_roundedValue_ru (d : Int) : d ≤ roundedValue .ru d := by
  rw [roundedValue, signedLike]
  by_cases hd : d < 0
  · have hle : roundedMag .ru true d.natAbs ≤ d.natAbs :=
      roundedMag_le_self ((addsUnit_ru _ _).trans (Bool.and_false _))
    rw [if_pos hd, decide_eq_true hd]
    omega
  · have hge : d.natAbs ≤ roundedMag .ru false d.natAbs :=
      le_roundedMag_self fun hpart => by rw [addsUnit_ru, decide_eq_true hpart]; rfl
    rw [if_neg hd, decide_eq_false hd]
    omega

theorem natAbs_roundedValue (rc : Rounding) (d : Int) :
    (roundedValue rc d).natAbs = roundedMag rc (decide (d < 0)) d.natAbs := natAbs_signedLike d _

theorem natAbs_roundedValue_rz_le (d : Int) : (roundedValue .rz d).natAbs ≤ d.natAbs := by
  rw [natAbs_roundedValue]
  exact roundedMag_le_self (addsUnit_rz _ _)

theorem roundedValue_mul_nonneg (rc : Rounding) (d : Int) : 0 ≤ roundedValue rc d * d := by
  rw [roundedValue, signedLike]
  split
  · exact mul_nonneg_of_nonpos_of_nonpos (by omega) (by omega)
  · exact mul_nonneg (by omega) (by omega)

/-- In RN no double is nearer; one of the other sign is no nearer than zero. -/
theorem roundedValue_rn_nearest (d : Int) (x : Quad) :
    (roundedValue .rn d - d).natAbs ≤ (intValue x - d).natAbs ∧
      ((roundedValue .rn d - d).natAbs = (intValue x - d).natAbs → intValue x ≠ roundedValue .rn d →
        roundedUnits .rn (decide (d < 0)) d.natAbs % 2 = 0) := by
  have hx := roundedMag_rn_nearest (decide (d < 0)) d.natAbs (fits53_magnitude x)
  have hzero := roundedMag_rn_nearest (decide (d < 0)) d.natAbs (fits53_of_lt (n := 0) (by decide))
  have hsign := intValue_eq_or_neg x
  rw [roundedValue, signedLike]
  split <;> omega

theorem roundedValue_of_droppedPart_eq_zero {d : Int} (rc : Rounding) (h : droppedPart d.natAbs = 0) :
    roundedValue rc d = d := by
  rw [roundedValue, roundedMag_of_droppedPart_eq_zero _ _ h, signedLike_natAbs]

/-- A difference that is not zero does not round to zero. -/
theorem roundedValue_ne_zero {d : Int} (rc : Rounding) (hd : d ≠ 0) : roundedValue rc d ≠ 0 := by
  have hpos := (fits53_two_pow 0).le_roundedMag rc (decide (d < 0)) (Int.natAbs_pos.mpr hd)
  rw [← Int.natAbs_ne_zero, natAbs_roundedValue]
  omega

/-- In RN and RZ the rounding is symmetric. -/
theorem roundedValue_neg {d : Int} {rc : Rounding} (hd : d ≠ 0) (h : rc = .rn ∨ rc = .rz) :
    roundedValue rc (-d) = -roundedValue rc d := by
  rw [roundedValue, roundedValue, signedLike_neg hd, Int.natAbs_neg,
    roundedMag_of_symmetric h _ (decide (d < 0))]

/-! ### Passing the bound -/

/-- The difference `d` rounds past `maxf`, the largest value with last place `ulp` = `2 * half` (R147 step 7,
R151). -/
def RoundsPast (rc : Rounding) (maxf ulp half d : Int) : Prop :=
  match rc with
  | .rn => maxf + half ≤ (d.natAbs : Int)
  | .rz => maxf + ulp ≤ (d.natAbs : Int)
  | .rd => maxf + ulp ≤ d ∨ d < -maxf
  | .ru => maxf < d ∨ d ≤ -maxf - ulp

theorem le_roundedMag_iff_roundsPast {j k : Nat} (d : Int) (rc : Rounding) (hj : j = k + 1) :
    2 ^ 53 * 2 ^ j ≤ roundedMag rc (decide (d < 0)) d.natAbs ↔
      RoundsPast rc ((2 ^ 53 - 1) * 2 ^ j) (2 ^ j) (2 ^ k) d := by
  subst hj
  have hpos : 0 < 2 ^ k := Nat.two_pow_pos k
  have hulp : 2 ^ (k + 1) = 2 * 2 ^ k := Nat.pow_succ'
  have hhalf : (2 : Int) ^ k = ((2 ^ k : Nat) : Int) := (Nat.cast_pow 2 k).symm
  have hulp' : (2 : Int) ^ (k + 1) = 2 * ((2 ^ k : Nat) : Int) := by rw [pow_succ' 2 k, hhalf]
  rw [le_roundedMag_iff, hulp, hulp', hhalf]
  generalize 2 ^ k = p at *
  cases rc with
  | rn =>
    simp only [RoundsPast, roundsUp, Bool.and_eq_true, Bool.or_eq_true, decide_eq_true_eq]
    omega
  | rz =>
    simp only [RoundsPast, roundsUp, Bool.and_false, Bool.false_eq_true, and_false, or_false]
    omega
  | rd =>
    simp only [RoundsPast, roundsUp, Bool.and_eq_true, decide_eq_true_eq]
    omega
  | ru =>
    simp only [RoundsPast, roundsUp, Bool.and_eq_true, decide_eq_true_eq, Bool.not_eq_true',
      decide_eq_false_iff_not]
    omega

end Sys2Proof.Machine
end

