-- ==== Sys2Proof/Proofs/RoundDifference.lean ====
section
/-! SUPPORT. What `roundDifference` makes of an exact difference (spec/40_numerics.md R147 steps 4 to 7): one
description for every length of the magnitude, and what follows from it. -/

namespace Sys2Proof.Machine

open Sys2Proof

/-- The difference `d` delivered as its rounded value, or as an overflow, and the conditions of each. -/
structure Rounds (d : Int) (rc : Rounding) (den : Bool) (c : Cond) : Prop where
  inv : c.inv = false
  den : c.den = den
  tiny : c.tiny = decide (d ≠ 0 ∧ d.natAbs < 2 ^ 52)
  inx : c.inx = decide (droppedPart d.natAbs ≠ 0)
  ovf : c.ovf = decide (overflowBound ≤ roundedMag rc (decide (d < 0)) d.natAbs)
  overflow : c.ovf = true → c.r = overflowResult rc (decide (d < 0))
  finite : c.ovf = false → isFinite c.r = true
  value : c.ovf = false → intValue c.r = roundedValue rc d
  parity : c.ovf = false → fracOf c.r % 2 = roundedUnits rc (decide (d < 0)) d.natAbs % 2

/-! ### A magnitude of at most 53 bits -/

/-- A difference of at most 53 bits delivered as it is. -/
theorem rounds_exact {d : Int} {rc : Rounding} {den : Bool} {r : Quad} {tiny : Bool} (hd : d.natAbs < 2 ^ 53)
    (htiny : tiny = true ↔ d ≠ 0 ∧ d.natAbs < 2 ^ 52) (hfin : isFinite r = true) (hval : intValue r = d)
    (hfrac : fracOf r % 2 = d.natAbs % 2) : Rounds d rc den ⟨r, false, den, false, tiny, false⟩ where
  inv := rfl
  den := rfl
  tiny := Bool.eq_iff_iff.mpr (htiny.trans decide_eq_true_iff.symm)
  inx := (decide_eq_false (not_not_intro (fits53_of_lt hd).droppedPart_eq_zero)).symm
  ovf := by
    rw [roundedMag_of_lt _ _ hd]
    exact (decide_eq_false (hd.trans_le two_pow_53_le_overflowBound).not_ge).symm
  overflow := nofun
  finite _ := hfin
  value _ := by rw [hval, roundedValue_of_droppedPart_eq_zero _ (fits53_of_lt hd).droppedPart_eq_zero]
  parity _ := by rw [roundedUnits_of_lt _ _ hd, hfrac]

/-- R150: an exact zero. -/
theorem roundDifference_zero (sa sb : Bool) (rc : Rounding) (den : Bool) :
    roundDifference 0 sa sb rc den =
      .plain (signedZero (if sa = !sb then sa else decide (rc = .rd))) den := by
  rw [roundDifference, if_pos rfl]
  split <;> rfl

theorem rounds_zero (s : Bool) (rc : Rounding) (den : Bool) : Rounds 0 rc den (.plain (signedZero s) den) :=
  rounds_exact (by decide) (by simp) (isFinite_signedZero s) (intValue_signedZero s) (by simp)

/-- R147 step 5, at most 52 bits. -/
theorem rounds_denormal {d : Int} (rc : Rounding) (den : Bool) (h0 : d ≠ 0) (hd : d.natAbs < 2 ^ 52) :
    Rounds d rc den ⟨pack (decide (d < 0)) 0 d.natAbs, false, den, false, true, false⟩ := by
  refine rounds_exact (by omega) (iff_of_true rfl ⟨h0, hd⟩) (isFinite_pack _ (by decide)) ?_
    (by rw [fracOf_pack _ _ hd])
  rw [intValue_eq_signedLike (signOf_pack _ _ _), magnitude_pack_denormal _ hd, signedLike_natAbs]

/-- R147 step 5, 53 bits. -/
theorem rounds_least_normal {d : Int} (rc : Rounding) (den : Bool) (hd : 2 ^ 52 ≤ d.natAbs)
    (hd' : d.natAbs < 2 ^ 53) :
    Rounds d rc den (.plain (pack (decide (d < 0)) 1 (d.natAbs - 2 ^ 52)) den) := by
  have hfrac : fracOf (pack (decide (d < 0)) 1 (d.natAbs - 2 ^ 52)) = d.natAbs - 2 ^ 52 :=
    fracOf_pack _ _ (by omega)
  have hmag : magnitude (pack (decide (d < 0)) 1 (d.natAbs - 2 ^ 52)) = d.natAbs * 2 ^ 0 :=
    magnitude_pack_normal _ (by decide) hd hd'
  refine rounds_exact hd' (iff_of_false Bool.false_ne_true (by omega)) (isFinite_pack _ (by decide)) ?_
    (by rw [hfrac]; omega)
  rw [intValue_eq_signedLike (signOf_pack _ _ _), hmag, Nat.pow_zero, Nat.mul_one, signedLike_natAbs]

/-! ### A longer magnitude -/

/-- `roundLong` in the parts of R147 step 6. -/
theorem roundLong_droppedBits (m : Nat) (s : Bool) (rc : Rounding) (den : Bool) :
    roundLong m (droppedBits m) s rc den =
      let carry := decide (roundedUnits rc s m = 2 ^ 53)
      let e := (if carry then droppedBits m + 1 else droppedBits m) + 1
      let inx := decide (droppedPart m ≠ 0)
      if e ≥ 2047 then ⟨overflowResult rc s, false, den, true, false, inx⟩
      else ⟨pack s e ((if carry then 2 ^ 52 else roundedUnits rc s m) - 2 ^ 52), false, den, false, false, inx⟩ :=
  rfl

/-- The rounded units normalised to 53 bits: a carry out of them moves to the next exponent. -/
theorem roundLong_normalised {m : Nat} (s : Bool) (rc : Rounding) (den : Bool) (h : droppedBits m ≠ 0) :
    ∃ n k, 2 ^ 52 ≤ n ∧ n < 2 ^ 53 ∧ roundedMag rc s m = n * 2 ^ k ∧ n % 2 = roundedUnits rc s m % 2 ∧
      roundLong m (droppedBits m) s rc den =
        if k + 1 ≥ 2047 then ⟨overflowResult rc s, false, den, true, false, decide (droppedPart m ≠ 0)⟩
        else ⟨pack s (k + 1) (n - 2 ^ 52), false, den, false, false, decide (droppedPart m ≠ 0)⟩ := by
  have hunits : 2 ^ 52 ≤ roundedUnits rc s m ∧ roundedUnits rc s m ≤ 2 ^ 53 := by
    have hge := le_keptUnits h
    have hlt := keptUnits_lt m
    rw [roundedUnits]
    split <;> omega
  rw [roundLong_droppedBits]
  by_cases hcarry : roundedUnits rc s m = 2 ^ 53
  · refine ⟨2 ^ 52, droppedBits m + 1, le_rfl, by decide, ?_, by rw [hcarry]; rfl, ?_⟩
    · rw [roundedMag, hcarry]
      ring
    · simp only [hcarry, decide_true, if_true]
  · refine ⟨roundedUnits rc s m, droppedBits m, hunits.1, by omega, rfl, rfl, ?_⟩
    simp only [hcarry, decide_false, Bool.false_eq_true, if_false]

/-- R147 steps 6 and 7. -/
theorem rounds_roundLong {d : Int} (rc : Rounding) (den : Bool) (h : droppedBits d.natAbs ≠ 0) :
    Rounds d rc den (roundLong d.natAbs (droppedBits d.natAbs) (decide (d < 0)) rc den) := by
  obtain ⟨n, k, hn, hn', hmag, hparity, heq⟩ := roundLong_normalised (decide (d < 0)) rc den h
  have hlong : ¬ d.natAbs < 2 ^ 53 := mt droppedBits_eq_zero h
  have hover : overflowBound ≤ roundedMag rc (decide (d < 0)) d.natAbs ↔ 2045 < k :=
    hmag ▸ overflowBound_le_iff hn hn'
  have htiny : false = decide (d ≠ 0 ∧ d.natAbs < 2 ^ 52) := (decide_eq_false (by omega)).symm
  rw [heq]
  split
  case isTrue hk =>
    exact ⟨rfl, rfl, htiny, rfl, (decide_eq_true (hover.mpr (by omega))).symm, fun _ => rfl, nofun, nofun, nofun⟩
  case isFalse hk =>
    refine ⟨rfl, rfl, htiny, rfl, (decide_eq_false (mt hover.mp (by omega))).symm, nofun,
      fun _ => isFinite_pack _ (by omega), fun _ => ?_, fun _ => ?_⟩
    · rw [intValue_eq_signedLike (signOf_pack _ _ _), magnitude_pack_normal _ (by omega) hn hn', roundedValue, hmag]
    · have hfrac : fracOf (pack (decide (d < 0)) (k + 1) (n - 2 ^ 52)) = n - 2 ^ 52 := fracOf_pack _ _ (by omega)
      rw [hfrac]
      omega

/-! ### Every magnitude -/

theorem roundDifference_rounds (d : Int) (sa sb : Bool) (rc : Rounding) (den : Bool) :
    Rounds d rc den (roundDifference d sa sb rc den) := by
  by_cases h0 : d = 0
  · subst h0
    rw [roundDifference_zero]
    exact rounds_zero _ rc den
  · have h52 := Nat.log2_lt (k := 52) (Int.natAbs_ne_zero.mpr h0)
    have h53 := Nat.log2_lt (k := 53) (Int.natAbs_ne_zero.mpr h0)
    rw [roundDifference, if_neg h0]
    dsimp only
    split
    case isTrue hl => exact rounds_denormal rc den h0 (h52.mp (by omega))
    case isFalse hl =>
    split
    case isTrue hl' => exact rounds_least_normal rc den (by omega) (h53.mp (by omega))
    case isFalse hl' =>
      have hsh : d.natAbs.log2 + 1 - 53 = droppedBits d.natAbs := by
        rw [droppedBits]
        omega
      rw [hsh]
      exact rounds_roundLong rc den (by omega)

/-- An overflow delivers an infinity or `MAXF`. -/
theorem overflowResult_class (rc : Rounding) (s : Bool) :
    isNaN (overflowResult rc s) = false ∧ isDen (overflowResult rc s) = false := by
  cases rc <;> revert s <;> decide

namespace Rounds

variable {d : Int} {rc : Rounding} {den : Bool} {c : Cond}

theorem magnitude_eq (h : Rounds d rc den c) (hovf : c.ovf = false) :
    magnitude c.r = roundedMag rc (decide (d < 0)) d.natAbs := by
  rw [← natAbs_intValue, h.value hovf, natAbs_roundedValue]

theorem tiny_iff (h : Rounds d rc den c) : c.tiny = true ↔ d ≠ 0 ∧ d.natAbs < 2 ^ 52 := by
  rw [h.tiny, decide_eq_true_iff]

theorem inx_eq_false_iff (h : Rounds d rc den c) : c.inx = false ↔ droppedPart d.natAbs = 0 := by
  rw [h.inx, decide_eq_false_iff_not, not_not]

theorem ovf_iff (h : Rounds d rc den c) :
    c.ovf = true ↔ overflowBound ≤ roundedMag rc (decide (d < 0)) d.natAbs := by
  rw [h.ovf, decide_eq_true_iff]

/-- A difference of 53 significant bits below the bound on finite values is delivered exactly. -/
theorem exact_of_fits53 (h : Rounds d rc den c) (hfits : Fits53 d.natAbs) (hlt : d.natAbs < overflowBound) :
    c.inx = false ∧ c.ovf = false := by
  have hpart := hfits.droppedPart_eq_zero
  refine ⟨h.inx_eq_false_iff.mpr hpart, ?_⟩
  rw [← Bool.not_eq_true, h.ovf_iff, roundedMag_of_droppedPart_eq_zero _ _ hpart]
  exact hlt.not_ge

/-- R152: a tiny difference is exact. -/
theorem exact_of_tiny (h : Rounds d rc den c) (ht : c.tiny = true) : c.inx = false ∧ c.ovf = false := by
  have hlt : d.natAbs < 2 ^ 53 := (h.tiny_iff.mp ht).2.trans (by decide)
  exact h.exact_of_fits53 (fits53_of_lt hlt) (hlt.trans_le two_pow_53_le_overflowBound)

theorem not_tiny_of_ovf (h : Rounds d rc den c) (hovf : c.ovf = true) : c.tiny = false := by
  rw [← Bool.not_eq_true]
  exact fun ht => Bool.false_ne_true ((h.exact_of_tiny ht).2.symm.trans hovf)

theorem intValue_of_exact (h : Rounds d rc den c) (hinx : c.inx = false) (hovf : c.ovf = false) :
    intValue c.r = d := by
  rw [h.value hovf, roundedValue_of_droppedPart_eq_zero _ (h.inx_eq_false_iff.mp hinx)]

theorem isNaN_eq_false (h : Rounds d rc den c) : isNaN c.r = false := by
  cases hovf : c.ovf with
  | false => exact isNaN_of_isFinite (h.finite hovf)
  | true =>
    rw [h.overflow hovf]
    exact (overflowResult_class _ _).1

/-- Only a tiny difference is delivered as a denormal. -/
theorem tiny_of_isDen (h : Rounds d rc den c) (hden : isDen c.r = true) : c.tiny = true := by
  have hovf : c.ovf = false := by
    rw [← Bool.not_eq_true]
    intro hovf
    rw [h.overflow hovf, (overflowResult_class _ _).2] at hden
    cases hden
  obtain ⟨hne, hlt⟩ := isDen_iff.mp hden
  rw [h.magnitude_eq hovf] at hne hlt
  refine h.tiny_iff.mpr ⟨?_, ?_⟩
  · rintro rfl
    exact hne (roundedMag_of_lt _ _ (by decide))
  · by_contra hge
    have hle := (fits53_two_pow 52).le_roundedMag rc (decide (d < 0)) (Nat.le_of_not_lt hge)
    omega

end Rounds

end Sys2Proof.Machine
end

