-- ==== Sys2Proof/Proofs/LaneCases.lean ====
section
/-! SUPPORT. `COND` and `FSUB64` by the classes of the operands (spec/40_numerics.md R147 steps 1 to 3, R148 to
R150), and the statements that go through those cases. -/

namespace Sys2Proof.Machine

open Sys2Proof

/-! ### COND by the classes of its operands -/

/-- A NaN operand, two infinities, an infinity and a finite value, or two finite values. -/
theorem operand_classes (a b : Quad) :
    (isNaN a || isNaN b) = true ∨ (isInf a = true ∧ isInf b = true) ∨ (isInf a = true ∧ isFinite b = true) ∨
      (isFinite a = true ∧ isInf b = true) ∨ (isFinite a = true ∧ isFinite b = true) := by
  have ha := isNaN_or_isInf_or_isFinite a
  have hb := isNaN_or_isInf_or_isFinite b
  rw [Bool.or_eq_true]
  tauto

theorem condOf_nan {a b : Quad} (rc : Rounding) (h : (isNaN a || isNaN b) = true) :
    condOf a b rc = ⟨if isNaN a then quiet a else quiet b, isSNaN a || isSNaN b, false, false, false, false⟩ := by
  rw [condOf, if_pos h]

theorem condOf_inf_inf {a b : Quad} (rc : Rounding) (ha : isInf a = true) (hb : isInf b = true) :
    condOf a b rc = if signOf a = signOf b then ⟨qnanIndefinite, true, false, false, false, false⟩
      else .plain a false := by
  simp [condOf, ha, hb, isNaN_of_isInf]

theorem condOf_inf_finite {a b : Quad} (rc : Rounding) (ha : isInf a = true) (hb : isFinite b = true) :
    condOf a b rc = .plain a (isDen b) := by
  simp [condOf, ha, isNaN_of_isInf, isNaN_of_isFinite hb, isInf_of_isFinite hb,
    isDen_of_not_isFinite (isFinite_of_isInf ha)]

theorem condOf_finite_inf {a b : Quad} (rc : Rounding) (ha : isFinite a = true) (hb : isInf b = true) :
    condOf a b rc = .plain (negate b) (isDen a) := by
  simp [condOf, hb, isNaN_of_isInf, isNaN_of_isFinite ha, isInf_of_isFinite ha,
    isDen_of_not_isFinite (isFinite_of_isInf hb)]

theorem condOf_finite {a b : Quad} (rc : Rounding) (ha : isFinite a = true) (hb : isFinite b = true) :
    condOf a b rc =
      roundDifference (intValue a - intValue b) (signOf a) (signOf b) rc (isDen a || isDen b) := by
  simp [condOf, isNaN_of_isFinite, isInf_of_isFinite, ha, hb]

/-- The NaN operand that decides the result (R148). -/
theorem isNaN_chosen {a b : Quad} (h : (isNaN a || isNaN b) = true) : isNaN (if isNaN a then a else b) = true := by
  split
  case isTrue ha => exact ha
  case isFalse ha => simpa [ha] using h

/-- Only finite operands give a finite result. -/
theorem isFinite_condOf_of_special {a b : Quad} (rc : Rounding) (h : ¬ (isFinite a = true ∧ isFinite b = true)) :
    isFinite (condOf a b rc).r = false := by
  rcases operand_classes a b with hnan | ⟨ha, hb⟩ | ⟨ha, hb⟩ | ⟨ha, hb⟩ | hfin
  · rw [condOf_nan rc hnan, ← apply_ite quiet, isFinite_quiet]
    exact isFinite_of_isNaN (isNaN_chosen hnan)
  · rw [condOf_inf_inf rc ha hb]
    split
    · decide
    · exact isFinite_of_isInf ha
  · rw [condOf_inf_finite rc ha hb]
    exact isFinite_of_isInf ha
  · rw [condOf_finite_inf rc ha hb]
    exact (isFinite_negate b).trans (isFinite_of_isInf hb)
  · exact absurd hfin h

theorem condOf_tiny_of_isDen {a b : Quad} {rc : Rounding} (hden : isDen (condOf a b rc).r = true) :
    (condOf a b rc).tiny = true := by
  have hfin : isFinite a = true ∧ isFinite b = true := by
    by_contra hspecial
    rw [isDen_of_not_isFinite (isFinite_condOf_of_special rc hspecial)] at hden
    cases hden
  rw [condOf_finite rc hfin.1 hfin.2] at hden ⊢
  exact (roundDifference_rounds ..).tiny_of_isDen hden

/-! ### From COND to FSUB64 -/

theorem masked_of_not_tiny {c : Cond} (ftz : Bool) (h : c.tiny = false) :
    c.masked ftz = (c.r, ⟨c.inv, c.den, c.ovf, false, c.ovf || c.inx⟩) := by
  simp [Cond.masked, h]

theorem masked_false (c : Cond) : c.masked false = (c.r, ⟨c.inv, c.den, c.ovf, false, c.ovf || c.inx⟩) := by
  simp [Cond.masked]

theorem masked_flushed {c : Cond} (h : c.tiny = true) :
    c.masked true = (signedZero (signOf c.r), ⟨c.inv, c.den, c.ovf, true, true⟩) := by
  simp [Cond.masked, h]

theorem masked_plain (r : Quad) (den ftz : Bool) :
    (Cond.plain r den).masked ftz = (r, ⟨false, den, false, false, false⟩) := masked_of_not_tiny ftz rfl

theorem fsub64_eq (a b : Quad) (rc : Rounding) (daz ftz : Bool) :
    fsub64 a b rc daz ftz = (condOf (dazIn a daz) (dazIn b daz) rc).masked ftz := rfl

theorem fsub64_nan {a b : Quad} (rc : Rounding) (daz ftz : Bool) (h : (isNaN a || isNaN b) = true) :
    fsub64 a b rc daz ftz =
      (if isNaN a then quiet a else quiet b, ⟨isSNaN a || isSNaN b, false, false, false, false⟩) := by
  have hr : (if isNaN a then quiet (dazIn a daz) else quiet (dazIn b daz)) =
      if isNaN a then quiet a else quiet b := by
    split
    case isTrue ha => rw [dazIn_of_not_isFinite daz (isFinite_of_isNaN ha)]
    case isFalse ha =>
      have hb : isNaN b = true := by simpa [ha] using h
      rw [dazIn_of_not_isFinite daz (isFinite_of_isNaN hb)]
  rw [fsub64_eq, condOf_nan rc (by simpa using h), masked_of_not_tiny ftz rfl]
  simp [hr]

theorem fsub64_inf_inf {a b : Quad} (rc : Rounding) (daz ftz : Bool) (ha : isInf a = true) (hb : isInf b = true) :
    fsub64 a b rc daz ftz =
      if signOf a = signOf b then (qnanIndefinite, ⟨true, false, false, false, false⟩)
      else (a, FlagSet.empty) := by
  rw [fsub64_eq, dazIn_of_not_isFinite daz (isFinite_of_isInf ha), dazIn_of_not_isFinite daz (isFinite_of_isInf hb),
    condOf_inf_inf rc ha hb]
  split
  · exact masked_of_not_tiny ftz rfl
  · exact masked_plain a false ftz

theorem fsub64_inf_finite {a b : Quad} (rc : Rounding) (daz ftz : Bool) (ha : isInf a = true)
    (hb : isFinite b = true) :
    fsub64 a b rc daz ftz = (a, ⟨false, isDen b && !daz, false, false, false⟩) := by
  rw [fsub64_eq, dazIn_of_not_isFinite daz (isFinite_of_isInf ha),
    condOf_inf_finite rc ha (by rwa [isFinite_dazIn]), masked_plain, isDen_dazIn]

theorem fsub64_finite_inf {a b : Quad} (rc : Rounding) (daz ftz : Bool) (ha : isFinite a = true)
    (hb : isInf b = true) :
    fsub64 a b rc daz ftz = (negate b, ⟨false, isDen a && !daz, false, false, false⟩) := by
  rw [fsub64_eq, dazIn_of_not_isFinite daz (isFinite_of_isInf hb),
    condOf_finite_inf rc (by rwa [isFinite_dazIn]) hb, masked_plain, isDen_dazIn]

/-- For finite operands `COND` rounds the exact difference after denormals-are-zeros. -/
theorem cond_finite {a b : Quad} (rc : Rounding) (daz : Bool) (ha : isFinite a = true)
    (hb : isFinite b = true) :
    cond a b rc daz =
      roundDifference (intValue (dazIn a daz) - intValue (dazIn b daz)) (signOf a) (signOf b) rc
        (!daz && (isDen a || isDen b)) := by
  have hden : (isDen (dazIn a daz) || isDen (dazIn b daz)) = (!daz && (isDen a || isDen b)) := by
    rw [isDen_dazIn, isDen_dazIn, ← Bool.and_or_distrib_right, Bool.and_comm]
  rw [cond, condOf_finite rc (by rwa [isFinite_dazIn]) (by rwa [isFinite_dazIn]), signOf_dazIn, signOf_dazIn, hden]

theorem cond_rounds {a b : Quad} (rc : Rounding) (daz : Bool) (ha : isFinite a = true)
    (hb : isFinite b = true) :
    Rounds (intValue (dazIn a daz) - intValue (dazIn b daz)) rc (!daz && (isDen a || isDen b))
      (cond a b rc daz) := by
  rw [cond_finite rc daz ha hb]
  exact roundDifference_rounds ..

/-- A finite difference is no NaN, flushed or not. -/
theorem isNaN_fsub64_finite {a b : Quad} (rc : Rounding) (daz ftz : Bool) (ha : isFinite a = true)
    (hb : isFinite b = true) : isNaN (fsub64 a b rc daz ftz).1 = false := by
  rw [fsub64, Cond.masked]
  dsimp only
  split
  · exact isNaN_of_isFinite (isFinite_signedZero _)
  · exact (cond_rounds rc daz ha hb).isNaN_eq_false

/-! ### Special operands -/

/-- Settles O1: the result is the chosen NaN quieted. -/
theorem nanOperandResult : Obligations.NanOperandResult := by
  intro a b rc daz ftz h
  rw [fsub64_nan rc daz ftz h, ← apply_ite quiet]
  exact ⟨rfl, isQNaN_quiet (isNaN_chosen h), signOf_quiet _, extractLsb'_quiet _⟩

/-- Settles O2, by the cases of R147 step 2. -/
theorem infinityResult : Obligations.InfinityResult := by
  intro rc daz ftz
  have hpos : isInf plusInf = true := by decide
  have hneg : isInf (negate plusInf) = true := (isInf_negate plusInf).trans hpos
  have hsign : signOf plusInf ≠ signOf (negate plusInf) := by decide
  refine ⟨?_, ?_, ?_, ?_, fun x y hx hy =>
    ⟨fsub64_inf_finite rc daz ftz hx hy, fsub64_finite_inf rc daz ftz hy hx⟩⟩
  · rw [fsub64_inf_inf rc daz ftz hpos hpos, if_pos rfl]
  · rw [fsub64_inf_inf rc daz ftz hneg hneg, if_pos rfl]
  · rw [fsub64_inf_inf rc daz ftz hpos hneg, if_neg hsign]
  · rw [fsub64_inf_inf rc daz ftz hneg hpos, if_neg hsign.symm]

/-- Settles O3: R147 step 4. -/
theorem exactZeroResult : Obligations.ExactZeroResult := by
  intro a b rc daz ftz ha hb heq
  rw [fsub64, cond_finite rc daz ha hb, heq, sub_self, roundDifference_zero, masked_plain]
  refine ⟨?_, rfl⟩
  by_cases hsign : signOf a = !signOf b
  · rw [if_pos hsign, if_pos hsign]
  · rw [if_neg hsign, if_neg hsign]
    by_cases hrc : rc = .rd
    · rw [if_pos hrc, decide_eq_true hrc]
    · rw [if_neg hrc, decide_eq_false hrc]

/-! ### The conditions and the flags -/

/-- R155: the conditions exclude one another. -/
structure ConditionsExclude (c : Cond) : Prop where
  inv : c.inv = true → c.den = false ∧ c.ovf = false ∧ c.tiny = false ∧ c.inx = false
  ovf : c.ovf = true → c.tiny = false
  tiny : c.tiny = true → c.inx = false

theorem conditionsExclude_plain (r : Quad) (den : Bool) : ConditionsExclude (.plain r den) :=
  ⟨nofun, nofun, nofun⟩

theorem conditionsExclude_of_inv (r : Quad) (inv : Bool) : ConditionsExclude ⟨r, inv, false, false, false, false⟩ :=
  ⟨fun _ => ⟨rfl, rfl, rfl, rfl⟩, nofun, nofun⟩

theorem Rounds.conditionsExclude {d : Int} {rc : Rounding} {den : Bool} {c : Cond} (h : Rounds d rc den c) :
    ConditionsExclude c where
  inv hinv := absurd (h.inv.symm.trans hinv) Bool.false_ne_true
  ovf := h.not_tiny_of_ovf
  tiny ht := (h.exact_of_tiny ht).1

theorem condOf_conditionsExclude (a b : Quad) (rc : Rounding) : ConditionsExclude (condOf a b rc) := by
  rcases operand_classes a b with h | ⟨ha, hb⟩ | ⟨ha, hb⟩ | ⟨ha, hb⟩ | ⟨ha, hb⟩
  · rw [condOf_nan rc h]
    exact conditionsExclude_of_inv _ _
  · rw [condOf_inf_inf rc ha hb]
    split
    · exact conditionsExclude_of_inv _ _
    · exact conditionsExclude_plain _ _
  · rw [condOf_inf_finite rc ha hb]
    exact conditionsExclude_plain _ _
  · rw [condOf_finite_inf rc ha hb]
    exact conditionsExclude_plain _ _
  · rw [condOf_finite rc ha hb]
    exact (roundDifference_rounds ..).conditionsExclude

/-- Conditions that exclude one another leave nine flag sets. -/
theorem ConditionsExclude.flags_mem {c : Cond} (h : ConditionsExclude c) (ftz : Bool) :
    (c.masked ftz).2 ∈ ([⟨false, false, false, false, false⟩, ⟨true, false, false, false, false⟩,
      ⟨false, true, false, false, false⟩, ⟨false, false, false, false, true⟩,
      ⟨false, true, false, false, true⟩, ⟨false, false, true, false, true⟩,
      ⟨false, true, true, false, true⟩, ⟨false, false, false, true, true⟩,
      ⟨false, true, false, true, true⟩] : List FlagSet) := by
  obtain ⟨r, inv, den, ovf, tiny, inx⟩ := c
  obtain ⟨hinv, hovf, htiny⟩ := h
  revert ftz inv den ovf tiny inx
  simp only [Cond.masked]
  decide

/-- Settles O4: the exclusions hold in every case of `COND`, and leave nine flag sets. -/
theorem laneFlagSets : Obligations.LaneFlagSets := by
  intro a b rc daz ftz
  have h : ConditionsExclude (cond a b rc daz) := condOf_conditionsExclude _ _ rc
  exact ⟨h.inv, h.ovf, h.tiny, h.flags_mem ftz⟩

/-- Settles O9, by the classes of the operands. -/
theorem nanResultIff : Obligations.NanResultIff := by
  intro a b rc daz ftz
  dsimp only
  rcases operand_classes a b with h | ⟨ha, hb⟩ | ⟨ha, hb⟩ | ⟨ha, hb⟩ | ⟨ha, hb⟩
  · have hquiet := isQNaN_quiet (isNaN_chosen h)
    have hinf : (isInf a && isInf b) = false := by
      rw [← Bool.not_eq_true, Bool.and_eq_true]
      rintro ⟨ha, hb⟩
      rw [isNaN_of_isInf ha, isNaN_of_isInf hb] at h
      cases h
    rw [fsub64_nan rc daz ftz h, ← apply_ite quiet, isSNaN_of_isQNaN hquiet, isNaN, hquiet, h, hinf]
    simp
  · have hna := isNaN_of_isInf ha
    have hnb := isNaN_of_isInf hb
    rw [fsub64_inf_inf rc daz ftz ha hb]
    by_cases hs : signOf a = signOf b
    · have hindef : isNaN qnanIndefinite = true ∧ isSNaN qnanIndefinite = false := by decide
      simp [hs, ha, hb, hna, hnb, hindef, isSNaN_of_isNaN]
    · simp [hs, ha, hb, hna, hnb, isSNaN_of_isNaN, FlagSet.empty]
  · rw [fsub64_inf_finite rc daz ftz ha hb]
    simp [isNaN_of_isInf ha, isNaN_of_isFinite hb, isInf_of_isFinite hb, isSNaN_of_isNaN]
  · have hneg := isNaN_of_isInf ((isInf_negate b).trans hb)
    rw [fsub64_finite_inf rc daz ftz ha hb]
    simp [isNaN_of_isInf hb, isNaN_of_isFinite ha, isInf_of_isFinite ha, isSNaN_of_isNaN, hneg]
  · have hr := isNaN_fsub64_finite rc daz ftz ha hb
    have hie : (fsub64 a b rc daz ftz).2.ie = false := (cond_rounds rc daz ha hb).inv
    simp [hr, hie, isSNaN_of_isNaN, isNaN_of_isFinite, ha, hb, isInf_of_isFinite]

/-- Settles O14, by the classes of the operands. -/
theorem denormalFlagIff : Obligations.DenormalFlagIff := by
  intro a b rc daz ftz
  have hinfDen : ∀ {x}, isInf x = true → isDen x = false := fun h => isDen_of_not_isFinite (isFinite_of_isInf h)
  rcases operand_classes a b with h | ⟨ha, hb⟩ | ⟨ha, hb⟩ | ⟨ha, hb⟩ | ⟨ha, hb⟩
  · rw [fsub64_nan rc daz ftz h, h, Bool.not_true, Bool.and_false]
  · rw [fsub64_inf_inf rc daz ftz ha hb, hinfDen ha, hinfDen hb]
    split <;> simp [FlagSet.empty]
  · rw [fsub64_inf_finite rc daz ftz ha hb, hinfDen ha, isNaN_of_isInf ha, isNaN_of_isFinite hb]
    simp [Bool.and_comm]
  · rw [fsub64_finite_inf rc daz ftz ha hb, hinfDen hb, isNaN_of_isInf hb, isNaN_of_isFinite ha]
    simp [Bool.and_comm]
  · have hde : (fsub64 a b rc daz ftz).2.de = (!daz && (isDen a || isDen b)) := (cond_rounds rc daz ha hb).den
    simp [hde, isNaN_of_isFinite, ha, hb]

/-- Settles O10: what is not flushed is no denormal. -/
theorem flushedNeverDenormal : Obligations.FlushedNeverDenormal := by
  intro a b rc daz
  rw [fsub64]
  cases ht : (cond a b rc daz).tiny with
  | false =>
    rw [masked_of_not_tiny true ht, ← Bool.not_eq_true]
    exact fun hden => Bool.false_ne_true (ht.symm.trans (condOf_tiny_of_isDen hden))
  | true =>
    rw [masked_flushed ht]
    exact isDen_signedZero _

end Sys2Proof.Machine
end

