-- ==== Sys2Proof/Proofs/FiniteLanes.lean ====
section
/-! SUPPORT. `FSUB64` on finite operands (spec/40_numerics.md R144, R151, R152, R160): exact differences, rounding
and overflow, each read off `Rounds`. -/

namespace Sys2Proof.Machine

open Sys2Proof

/-- `cond_rounds` without denormals-are-zeros. -/
theorem cond_rounds_false {a b : Quad} (rc : Rounding) (ha : isFinite a = true) (hb : isFinite b = true) :
    Rounds (intValue a - intValue b) rc (isDen a || isDen b) (cond a b rc false) := by
  simpa using cond_rounds rc false ha hb

theorem fsub64_false (a b : Quad) (rc : Rounding) (daz : Bool) :
    fsub64 a b rc daz false =
      ((cond a b rc daz).r, ⟨(cond a b rc daz).inv, (cond a b rc daz).den, (cond a b rc daz).ovf, false,
        (cond a b rc daz).ovf || (cond a b rc daz).inx⟩) := masked_false _

theorem intValue_fsub64 {a b : Quad} {rc : Rounding} (ha : isFinite a = true) (hb : isFinite b = true)
    (hovf : (cond a b rc false).ovf = false) :
    intValue (fsub64 a b rc false false).1 = roundedValue rc (intValue a - intValue b) := by
  rw [fsub64_false]
  exact (cond_rounds_false rc ha hb).value hovf

/-! ### Exact differences -/

/-- Settles O5: with no bit dropped the rounded value is the difference. -/
theorem exactWhenNotInexact : Obligations.ExactWhenNotInexact := by
  intro a b rc ha hb hinx hovf
  have h := cond_rounds_false rc ha hb
  rw [fsub64_false]
  exact ⟨h.finite hovf, h.intValue_of_exact hinx hovf⟩

/-- Settles O11: a tiny difference is exact, so only the flush changes it. -/
theorem tinyResult : Obligations.TinyResult := by
  intro a b rc daz ftz ha hb d hd hlt
  have h : Rounds d rc _ (cond a b rc daz) := cond_rounds rc daz ha hb
  have htiny := h.tiny_iff.mpr ⟨hd, hlt⟩
  obtain ⟨hinx, hovf⟩ := h.exact_of_tiny htiny
  have hval := h.intValue_of_exact hinx hovf
  refine ⟨htiny, ?_, ?_⟩
  · rintro rfl
    rw [fsub64_false, hinx, hovf]
    refine ⟨isDen_iff.mpr ?_, hval, rfl, rfl⟩
    rw [← natAbs_intValue, hval]
    exact ⟨Int.natAbs_ne_zero.mpr hd, hlt⟩
  · rintro rfl
    rw [fsub64, masked_flushed htiny, signOf_eq_of_intValue_ne_zero (hval ▸ hd), hval]
    exact ⟨rfl, rfl, rfl⟩

/-- A difference of 53 significant bits, no greater than a finite value can be. -/
theorem fsub64_exact {a b : Quad} (rc : Rounding) (daz : Bool) (ha : isFinite a = true) (hb : isFinite b = true)
    (hfits : Fits53 (intValue (dazIn a daz) - intValue (dazIn b daz)).natAbs)
    (hlt : (intValue (dazIn a daz) - intValue (dazIn b daz)).natAbs < overflowBound) :
    intValue (fsub64 a b rc daz false).1 = intValue (dazIn a daz) - intValue (dazIn b daz) ∧
    (fsub64 a b rc daz false).2 = ⟨false, !daz && (isDen a || isDen b), false, false, false⟩ := by
  have h := cond_rounds rc daz ha hb
  obtain ⟨hinx, hovf⟩ := h.exact_of_fits53 hfits hlt
  rw [fsub64_false, h.inv, h.den, hinx, hovf]
  exact ⟨h.intValue_of_exact hinx hovf, rfl⟩

/-- Settles O12: the difference of close operands is no greater than either. -/
theorem sterbenzExact : Obligations.SterbenzExact := by
  intro a b rc ha hb hsign hba hab
  rw [natAbs_intValue, natAbs_intValue] at hba hab
  have hdiff : (intValue a - intValue b).natAbs ≤ magnitude a ∧
      (intValue a - intValue b).natAbs ≤ magnitude b := by
    rw [intValue, intValue, hsign]
    split <;> omega
  have hfits := fits53_sub hdiff.1 hdiff.2
  have hlt := hdiff.1.trans_lt (magnitude_lt_overflowBound ha)
  have h := fsub64_exact rc false ha hb (by rwa [dazIn_false, dazIn_false]) (by rwa [dazIn_false, dazIn_false])
  rw [dazIn_false, dazIn_false] at h
  rw [h.2]
  exact ⟨h.1, rfl, rfl⟩

/-! ### Subtracting a zero, and from one -/

theorem isFinite_zero : isFinite 0 = true := by decide

theorem intValue_zero : intValue 0 = 0 := by decide

/-- What an operand is after denormals-are-zeros needs no rounding. -/
theorem intValue_dazIn_exact {x : Quad} (daz : Bool) (hx : isFinite x = true) :
    Fits53 (intValue (dazIn x daz)).natAbs ∧ (intValue (dazIn x daz)).natAbs < overflowBound := by
  rw [natAbs_intValue]
  exact ⟨fits53_magnitude _, magnitude_lt_overflowBound (by rwa [isFinite_dazIn])⟩

theorem fsub64_zero_right {x : Quad} (rc : Rounding) (daz : Bool) (hx : isFinite x = true) :
    intValue (fsub64 x 0 rc daz false).1 = intValue (dazIn x daz) ∧
      (fsub64 x 0 rc daz false).2 = ⟨false, isDen x && !daz, false, false, false⟩ := by
  obtain ⟨hfits, hlt⟩ := intValue_dazIn_exact daz hx
  have hdiff : intValue (dazIn x daz) - intValue (dazIn 0 daz) = intValue (dazIn x daz) := by
    rw [dazIn_zero, intValue_zero, sub_zero]
  have hflag : (!daz && (isDen x || isDen 0)) = (isDen x && !daz) := by
    rw [show isDen 0 = false by decide, Bool.or_false, Bool.and_comm]
  have h := fsub64_exact rc daz hx isFinite_zero (by rwa [hdiff]) (by rwa [hdiff])
  rwa [hdiff, hflag] at h

theorem fsub64_zero_left {x : Quad} (rc : Rounding) (daz : Bool) (hx : isFinite x = true) :
    intValue (fsub64 0 x rc daz false).1 = -intValue (dazIn x daz) ∧
      (fsub64 0 x rc daz false).2 = ⟨false, isDen x && !daz, false, false, false⟩ := by
  obtain ⟨hfits, hlt⟩ := intValue_dazIn_exact daz hx
  have hdiff : intValue (dazIn 0 daz) - intValue (dazIn x daz) = -intValue (dazIn x daz) := by
    rw [dazIn_zero, intValue_zero, zero_sub]
  have hflag : (!daz && (isDen 0 || isDen x)) = (isDen x && !daz) := by
    rw [show isDen 0 = false by decide, Bool.false_or, Bool.and_comm]
  have h := fsub64_exact rc daz isFinite_zero hx (by rwa [hdiff, Int.natAbs_neg])
    (by rwa [hdiff, Int.natAbs_neg])
  rwa [hdiff, hflag] at h

/-- Subtracting `+0` gives the operand; a zero keeps its sign, but `+0` becomes `-0` in RD (R150). -/
theorem fsub64_zero_right_fst {x : Quad} (rc : Rounding) (daz : Bool) (hx : isFinite x = true) :
    (fsub64 x 0 rc daz false).1 = if dazIn x daz = 0 ∧ rc = .rd then signedZero true else dazIn x daz := by
  by_cases h0 : intValue (dazIn x daz) = 0
  · have hzero : dazIn x daz = signedZero (signOf x) := by
      have h := isZero_iff_eq_signedZero.mp (intValue_eq_zero_iff.mp h0)
      rwa [signOf_dazIn] at h
    have heq : intValue (dazIn x daz) = intValue (dazIn 0 daz) := by rw [h0, dazIn_zero, intValue_zero]
    have hsign0 : signOf 0 = false := by decide
    rw [(exactZeroResult x 0 rc daz false hx isFinite_zero heq).1, hzero, hsign0, Bool.not_false]
    cases signOf x with
    | false =>
      have hplus : signedZero false = 0 := by decide
      simp only [hplus, Bool.false_eq_true, true_and, if_false]
    | true =>
      have hminus : signedZero true ≠ 0 := by decide
      simp only [hminus, false_and, if_true, if_false]
  · have hne : dazIn x daz ≠ 0 := fun h => h0 (by rw [h, intValue_zero])
    have hval := (fsub64_zero_right rc daz hx).1
    rw [if_neg (fun h => hne h.1)]
    exact eq_of_intValue_eq hval (hval ▸ h0)

/-- Settles O13: the difference is the other operand up to sign, and a non-zero value has one encoding. -/
theorem subtractZero : Obligations.SubtractZero := by
  intro x rc daz hnan
  rcases isNaN_or_isInf_or_isFinite x with h | hinf | hfin
  · exact absurd (hnan.symm.trans h) Bool.false_ne_true
  · have hden := isDen_of_not_isFinite (isFinite_of_isInf hinf)
    have hne : x ≠ 0 := by
      rintro rfl
      exact absurd hinf (by decide)
    rw [fsub64_inf_finite rc daz false hinf isFinite_zero, fsub64_finite_inf rc daz false isFinite_zero hinf,
      dazIn_of_not_isDen daz hden, hden, if_neg (fun h => hne h.1)]
    exact ⟨rfl, fun _ _ => rfl, rfl, rfl⟩
  · obtain ⟨hval, hflags⟩ := fsub64_zero_left rc daz hfin
    refine ⟨fsub64_zero_right_fst rc daz hfin, fun hzero hden => ?_, (fsub64_zero_right rc daz hfin).2, hflags⟩
    have h0 : intValue x ≠ 0 := by
      rw [Ne, intValue_eq_zero_iff, hzero]
      exact Bool.false_ne_true
    rw [dazIn_eq, hden, if_neg Bool.false_ne_true] at hval
    exact eq_of_intValue_eq (hval.trans (intValue_negate x).symm) (hval ▸ neg_ne_zero.mpr h0)

/-! ### Rounding -/

/-- Settles O6: rounding crosses no double, and each mode keeps to its side. -/
theorem directedRoundingIsTight : Obligations.DirectedRoundingIsTight := by
  intro a b rc ha hb hovf
  dsimp only
  rw [intValue_fsub64 ha hb hovf]
  cases rc with
  | rd => exact ⟨roundedValue_rd_le _, fun x _ => intValue_le_roundedValue .rd⟩
  | ru => exact ⟨le_roundedValue_ru _, fun x _ => roundedValue_le_intValue .ru⟩
  | rz =>
    refine ⟨natAbs_roundedValue_rz_le _, roundedValue_mul_nonneg _ _, fun x _ hx => ?_⟩
    rw [natAbs_intValue] at hx
    rw [natAbs_intValue, natAbs_roundedValue]
    exact (fits53_magnitude x).le_roundedMag _ _ hx
  | rn => trivial

/-- Settles O7, by the nearness of the rounded value; the fraction has the parity of the rounded units. -/
theorem nearestRounding : Obligations.NearestRounding := by
  intro a b ha hb hovf
  have h := cond_rounds_false .rn ha hb
  dsimp only
  rw [fsub64_false, h.value hovf, h.parity hovf]
  exact ⟨h.finite hovf, fun x _ => roundedValue_rn_nearest _ x⟩

/-- Settles O8, at the bound `2^53 * 2^2045`, where half a unit is `2^2044`. -/
theorem fsub64_overflowResult : Obligations.OverflowResult := by
  intro a b rc daz ftz ha hb d maxf
  have h : Rounds d rc _ (cond a b rc daz) := cond_rounds rc daz ha hb
  refine ⟨?_, fun hovf => ?_⟩
  · rw [h.ovf_iff.trans (le_roundedMag_iff_roundsPast (j := 2045) d rc rfl)]
    cases rc <;> exact Iff.rfl
  · rw [fsub64, masked_of_not_tiny ftz (h.not_tiny_of_ovf hovf), h.overflow hovf, hovf]
    refine ⟨?_, rfl, rfl⟩
    generalize decide (d < 0) = s
    cases rc <;> cases s <;> rfl

/-! ### Swapping -/

/-- A result with its sign inverted, under the same conditions. -/
def Cond.negated (c : Cond) : Cond := { c with r := negate c.r }

theorem masked_negated (c : Cond) (ftz : Bool) :
    c.negated.masked ftz = (negate (c.masked ftz).1, (c.masked ftz).2) := by
  rw [Cond.masked, Cond.masked, Cond.negated, signOf_negate, ← negate_signedZero, ← apply_ite negate]

theorem cond_eq_negated {c c' : Cond} (hr : c'.r = negate c.r) (hinv : c'.inv = c.inv) (hden : c'.den = c.den)
    (hovf : c'.ovf = c.ovf) (htiny : c'.tiny = c.tiny) (hinx : c'.inx = c.inx) : c' = c.negated := by
  cases c
  cases c'
  simp_all [Cond.negated]

theorem overflowResult_not {rc : Rounding} (h : rc = .rn ∨ rc = .rz) (s : Bool) :
    overflowResult rc (!s) = negate (overflowResult rc s) := by
  rcases h with rfl | rfl <;> revert s <;> decide

/-- In RN and RZ the opposite of a difference is delivered as the opposite result. -/
theorem Rounds.negated {d : Int} {rc : Rounding} {den : Bool} {c c' : Cond} (h : Rounds d rc den c)
    (h' : Rounds (-d) rc den c') (hd : d ≠ 0) (hrc : rc = .rn ∨ rc = .rz) : c' = c.negated := by
  have hsign : decide (-d < 0) = !decide (d < 0) := by
    rw [← decide_not, decide_eq_decide]
    omega
  have hovf : c'.ovf = c.ovf := by
    rw [h.ovf, h'.ovf, Int.natAbs_neg, roundedMag_of_symmetric hrc _ (decide (d < 0))]
  have htiny : c'.tiny = c.tiny := by
    rw [Bool.eq_iff_iff, h.tiny_iff, h'.tiny_iff, Int.natAbs_neg, neg_ne_zero]
  have hinx : c'.inx = c.inx := by rw [h.inx, h'.inx, Int.natAbs_neg]
  refine cond_eq_negated ?_ (h'.inv.trans h.inv.symm) (h'.den.trans h.den.symm) hovf htiny hinx
  cases hc : c.ovf with
  | false =>
    have hneg : intValue c'.r = intValue (negate c.r) := by
      rw [h'.value (hovf.trans hc), intValue_negate, h.value hc, roundedValue_neg hd hrc]
    refine eq_of_intValue_eq hneg ?_
    rw [hneg, intValue_negate, h.value hc]
    exact neg_ne_zero.mpr (roundedValue_ne_zero rc hd)
  | true => rw [h.overflow hc, h'.overflow (hovf.trans hc), hsign, overflowResult_not hrc]

/-- Settles O15: the swapped difference is the opposite one. -/
theorem swapNegates : Obligations.SwapNegates := by
  intro a b rc daz ftz ha hb hne hrc
  have h := cond_rounds rc daz ha hb
  have h' := cond_rounds rc daz hb ha
  rw [← neg_sub, Bool.or_comm] at h'
  rw [fsub64, h.negated h' (sub_ne_zero.mpr hne) hrc, masked_negated]
  exact ⟨rfl, rfl⟩

end Sys2Proof.Machine
end

/-! SUPPORT. A packed subtraction whose lanes are quiet raises nothing and delivers the flags of `FSUB64`
(spec/60_exceptions.md R212, R213); so SUBPD, once enabled and its second source read, completes
(spec/41_subpd_sse.md R170, R171). -/

namespace Sys2Proof.Machine

open Sys2Proof

/-! ### Sets of flags -/

theorem FlagSet.union_union_union_comm (f g h k : FlagSet) :
    (f.union g).union (h.union k) = (f.union h).union (g.union k) := by
  simp only [FlagSet.union, Bool.or_assoc, Bool.or_left_comm]

theorem FlagSet.nonempty_union (f g : FlagSet) : (f.union g).nonempty = (f.nonempty || g.nonempty) := by
  simp only [FlagSet.nonempty, FlagSet.union]
  ac_rfl

theorem unmasked_union (m : BitVec 32) (f g : FlagSet) :
    unmasked m (f.union g) = (unmasked m f).union (unmasked m g) := by
  simp only [unmasked, FlagSet.union, Bool.and_or_distrib_right]

/-- No flag of a union is unmasked when none of either part is. -/
theorem unmasked_union_eq_false {m : BitVec 32} {f g : FlagSet} :
    (unmasked m (f.union g)).nonempty = false ↔
      (unmasked m f).nonempty = false ∧ (unmasked m g).nonempty = false := by
  rw [unmasked_union, FlagSet.nonempty_union, Bool.or_eq_false_iff]

theorem unmasked_unions_eq_false {m : BitVec 32} {fs : List FlagSet} :
    (unmasked m (FlagSet.unions fs)).nonempty = false ↔ ∀ f ∈ fs, (unmasked m f).nonempty = false := by
  induction fs with
  | nil => simp [FlagSet.unions, FlagSet.empty, unmasked, FlagSet.nonempty]
  | cons f fs ih => rw [unions_cons, unmasked_union_eq_false, ih, List.forall_mem_cons]

/-- The unions of both phases are the union of what each lane has in both. -/
theorem unions_map_union (cs : List Cond) (p q : Cond → FlagSet) :
    (FlagSet.unions (cs.map p)).union (FlagSet.unions (cs.map q)) =
      FlagSet.unions (cs.map fun c => (p c).union (q c)) := by
  induction cs with
  | nil => rfl
  | cons c cs ih =>
    simp only [List.map_cons, unions_cons]
    rw [FlagSet.union_union_union_comm, ih]

/-! ### Quiet lanes -/

/-- A lane is quiet when each phase of R213 is. -/
theorem quietLane_iff {s : State} {c : Cond} :
    QuietLane s c ↔ (unmasked s.mxcsr c.pre).nonempty = false ∧
      (unmasked s.mxcsr (c.post s.mxcsr)).nonempty = false :=
  unmasked_union_eq_false

/-- A quiet lane overflows only with `OM` set and is tiny only with `UM` set (R212). -/
theorem masks_of_quietLane {s : State} {c : Cond} (h : QuietLane s c) :
    (c.ovf = true → mxOM s.mxcsr = true) ∧ (c.tiny = true → mxUM s.mxcsr = true) := by
  have hpost := (quietLane_iff.mp h).2
  simp only [FlagSet.nonempty, unmasked, Cond.post, Bool.or_eq_false_iff] at hpost
  obtain ⟨⟨⟨-, hoe⟩, hue⟩, -⟩ := hpost
  constructor
  · intro hovf
    simpa [hovf] using hoe
  · intro htiny
    by_contra hum
    simp [htiny, hum] at hue

/-- With overflow and underflow masked wherever they occur, the two phases set the flags of the masked
response (R147, R213). -/
theorem pre_union_post_of_quietLane {s : State} {c : Cond} (h : QuietLane s c) :
    c.pre.union (c.post s.mxcsr) = (c.masked (mxFTZ s.mxcsr)).2 := by
  obtain ⟨hom, hum⟩ := masks_of_quietLane h
  have hovf : (c.ovf && mxOM s.mxcsr) = c.ovf := Bool.and_eq_left_iff_imp.mpr hom
  have hunmasked : (c.tiny && !mxUM s.mxcsr) = false := by simpa using hum
  have hmasked : (c.tiny && mxUM s.mxcsr) = c.tiny := Bool.and_eq_left_iff_imp.mpr hum
  have hue : (c.tiny && (!mxUM s.mxcsr || mxFTZ s.mxcsr)) = (c.tiny && mxFTZ s.mxcsr) := by
    rw [Bool.and_or_distrib_left, hunmasked, Bool.false_or]
  have hpe : (c.tiny && mxFTZ s.mxcsr && mxUM s.mxcsr) = (c.tiny && mxFTZ s.mxcsr) := by
    rw [Bool.and_right_comm, hmasked]
  simp [FlagSet.union, Cond.pre, Cond.post, Cond.masked, hovf, hue, hpe, Bool.or_comm c.inx]

/-! ### Packed subtraction -/

theorem packedFlags_of_quiet {s : State} {cs : List Cond} (h : ∀ c ∈ cs, QuietLane s c) :
    packedFlags s cs = .ok (orFlags s.mxcsr
      (FlagSet.unions (cs.map fun c => (c.masked (mxFTZ s.mxcsr)).2))) := by
  have hpre : (unmasked s.mxcsr (FlagSet.unions (cs.map Cond.pre))).nonempty = false :=
    unmasked_unions_eq_false.mpr
      (List.forall_mem_map.mpr fun c hc => (quietLane_iff.mp (h c hc)).1)
  have hpost : (unmasked s.mxcsr (FlagSet.unions (cs.map fun c => c.post s.mxcsr))).nonempty = false :=
    unmasked_unions_eq_false.mpr
      (List.forall_mem_map.mpr fun c hc => (quietLane_iff.mp (h c hc)).2)
  have hflags : cs.map (fun c => c.pre.union (c.post s.mxcsr)) =
      cs.map fun c => (c.masked (mxFTZ s.mxcsr)).2 :=
    List.map_congr_left fun c hc => pre_union_post_of_quietLane (h c hc)
  rw [← hflags, ← unions_map_union]
  simp only [packedFlags, hpre, hpost, Bool.false_eq_true, if_false]

/-- R213, R156: quiet lanes raise nothing, and MXCSR is OR-ed with their flags. -/
theorem packedSub_of_quietLanes {s : State} {n : Nat} {a b : Nat → Quad} {active : Nat → Bool}
    {rc : Rounding} (h : QuietLanes s n a b active rc) :
    packedSub s n a b active rc false = .ok (flagsAfter s n a b active rc) := by
  have hquiet : ∀ c ∈ laneConds n a b active rc (mxDAZ s.mxcsr), QuietLane s c := by
    refine List.forall_mem_map.mpr fun j hj => ?_
    obtain ⟨hlt, hactive⟩ := List.mem_filter.mp hj
    exact h j (List.mem_range.mp hlt) hactive
  rw [packedSub, if_neg Bool.false_ne_true, packedFlags_of_quiet hquiet, laneConds, List.map_map]
  rfl

/-! ### SUBPD (R170, R171) -/

theorem legacySource_of_readable {s : State} {pre : List Prefix} {x b : Bool} {len : Nat} {rm : RmOperand}
    {sg : Seg} {la : Quad} (hm : rm.isMem = true) (hsrc : operandAddress s pre x b 1 len rm = (sg, la))
    (halign : la.toNat % 16 = 0) (hread : Readable s sg la 2 false allLanes) :
    legacySource s pre x b len rm = .ok (memLanes s la false) := by
  rw [legacySource_mem hm, hsrc, legacyAlignment_of_aligned halign]
  exact readLanes_of_readable hread

/-- The commit of the legacy lanes: two differences, the other lanes of the destination as they were. -/
theorem commit_legacyLanes_resultIs (s : State) (d : BitVec 5) (a b : Nat → Quad) (mx : BitVec 32)
    (len : Nat) :
    ResultIs s (commit s d (legacyLanes s d a b) mx len) (s.vreg d)
      (fun j => if j < 2 then plainResult s 2 a b j else regLanes s d j) mx len := by
  refine commit_resultIs fun j hj => ?_
  rw [if_pos hj]
  by_cases hlow : j < 2
  · simp only [if_pos hlow, plainResult, laneResult]
  · simp only [if_neg hlow]

/-- Whatever the second source is, once it is read: SUBPD completes when enabled and its lanes are quiet. -/
theorem subpd_completes_of_source {pre : List Prefix} {rex : Option Rex} {reg : BitVec 3} {rm : RmOperand}
    {s : State} {d : BitVec 5} {b : Nat → Quad} (hd : num5 false (rex.any Rex.r) reg = d)
    (henabled : Enabled .legacy s)
    (hsrc : legacySource s pre (rex.any Rex.x) (rex.any Rex.b) (Instr.subpd pre rex reg rm).length rm =
      .ok b)
    (hquiet : QuietLanes s 2 (regLanes s d) b allLanes (mxRC s.mxcsr)) :
    Completes (.subpd pre rex reg rm) s d
      (fun j => if j < 2 then plainResult s 2 (regLanes s d) b j else regLanes s d j)
      (flagsAfter s 2 (regLanes s d) b allLanes (mxRC s.mxcsr)) := by
  subst hd
  exact ⟨_, execSubpd_eq_next.mpr ⟨henabled, b, _, hsrc, packedSub_of_quietLanes hquiet, rfl⟩,
    commit_legacyLanes_resultIs ..⟩

/-- Settles O18: a register source is always read. -/
theorem subpdRegisterCompletes : Obligations.SubpdRegisterCompletes := by
  intro pre rex reg r s henabled d a b hquiet
  exact subpd_completes_of_source rfl henabled rfl hquiet

/-- Settles O19: an aligned readable operand is read as the lanes of memory at its address. -/
theorem subpdMemoryCompletes : Obligations.SubpdMemoryCompletes := by
  intro pre rex reg rm s hm henabled i d src a b halign hread hquiet
  exact subpd_completes_of_source rfl henabled (legacySource_of_readable hm rfl halign hread) hquiet

end Sys2Proof.Machine

/-! SUPPORT. A VEX form, once enabled and its second source read, completes when its lanes are quiet
(spec/42_vsubpd_vex.md R180, R181); beside SUBPD it differs in the upper lanes of the destination alone (R183,
spec/41_subpd_sse.md R171). -/

namespace Sys2Proof.Machine

open Sys2Proof

/-! ### The VEX forms (R180, R181) -/

theorem vexSource_of_readable {s : State} {pre : List Prefix} {x b : Bool} {lanes len : Nat} {rm : RmOperand}
    {sg : Seg} {la : Quad} (hm : rm.isMem = true) (hsrc : operandAddress s pre x b 1 len rm = (sg, la))
    (hread : Readable s sg la lanes false allLanes) :
    vexSource s pre x b lanes len rm = .ok (memLanes s la false) := by
  rw [vexSource_mem hm, hsrc]
  exact readLanes_of_readable hread

/-- What a VEX form that completes has done: its source read, nothing raised, and the commit. -/
theorem exec_vexForm_eq_next {i : Instr} {n : Nat} {pre : List Prefix} {d s1 : BitVec 5} {x b : Bool}
    {rm : RmOperand} {s t : State} (hi : VexForm i n pre d s1 x b rm) :
    exec i s = .next t ↔
      Enabled .vex s ∧ ∃ src mx, vexSource s pre x b n i.length rm = .ok src ∧
        packedSub s n (regLanes s s1) src allLanes (mxRC s.mxcsr) false = .ok mx ∧
        t = commit s d (plainLanes s n (regLanes s s1) src) mx i.length := by
  rw [exec_vexForm hi, outcome_eq_next]
  exact vexSub_eq_ok

/-- The commit of the lanes of a VEX form: the differences, and zeros above them. -/
theorem commit_plainLanes_resultIs (s : State) (d : BitVec 5) (n : Nat) (a b : Nat → Quad) (mx : BitVec 32)
    (len : Nat) :
    ResultIs s (commit s d (plainLanes s n a b) mx len) (s.vreg d) (plainResult s n a b) mx len :=
  commit_resultIs fun _ _ => rfl

/-- Whatever the second source is, once it is read: a VEX form completes when enabled and its lanes are quiet. -/
theorem vexForm_completes_of_source {i : Instr} {n : Nat} {pre : List Prefix} {d s1 : BitVec 5} {x b : Bool}
    {rm : RmOperand} {s : State} {src : Nat → Quad} (hi : VexForm i n pre d s1 x b rm)
    (henabled : Enabled .vex s) (hsrc : vexSource s pre x b n i.length rm = .ok src)
    (hquiet : QuietLanes s n (regLanes s s1) src allLanes (mxRC s.mxcsr)) :
    Completes i s d (plainResult s n (regLanes s s1) src)
      (flagsAfter s n (regLanes s s1) src allLanes (mxRC s.mxcsr)) :=
  ⟨_, (exec_vexForm_eq_next hi).mpr ⟨henabled, src, _, hsrc, packedSub_of_quietLanes hquiet, rfl⟩,
    commit_plainLanes_resultIs ..⟩

/-- Settles O20: a register source is always read. -/
theorem vexRegisterCompletes : Obligations.VexRegisterCompletes := by
  intro i n pre d s1 x bb r s hi henabled a b hquiet
  exact vexForm_completes_of_source hi henabled rfl hquiet

/-- Settles O21: a readable operand is read as the lanes of memory at its address, with no check of its
alignment. -/
theorem vexMemoryCompletes : Obligations.VexMemoryCompletes := by
  intro i n pre d s1 x bb rm s hi hm henabled src a b hread hquiet
  exact vexForm_completes_of_source hi henabled (vexSource_of_readable hm rfl hread) hquiet

/-! ### SUBPD and VEX.128 (R183) -/

/-- Two outcomes of one state agree elsewhere. -/
theorem SameElsewhere.of_common {s t u : State} (ht : SameElsewhere s t) (hu : SameElsewhere s u) :
    SameElsewhere t u where
  k := hu.k.trans ht.k.symm
  x := hu.x.trans ht.x.symm
  seg := hu.seg.trans ht.seg.symm
  rflags := hu.rflags.trans ht.rflags.symm
  cr0 := hu.cr0.trans ht.cr0.symm
  cr2 := hu.cr2.trans ht.cr2.symm
  cr4 := hu.cr4.trans ht.cr4.symm
  xcr0 := hu.xcr0.trans ht.xcr0.symm
  efer := hu.efer.trans ht.efer.symm
  mode := hu.mode.trans ht.mode.symm
  cpl := hu.cpl.trans ht.cpl.symm
  mem := hu.mem.trans ht.mem.symm
  bytes a := (hu.bytes a).trans (ht.bytes a).symm
  access := hu.access.trans ht.access.symm
  params := hu.params.trans ht.params.symm

/-- The memory operand of SUBPD, where it is read, is read by VEX.128 too: the legacy form asks for alignment
besides (R65). -/
theorem vexSource_of_legacySource {s : State} {pre pre' : List Prefix} {x x' b b' : Bool} {len len' : Nat}
    {rm rm' : RmOperand} {src : Nat → Quad} (hm : rm.isMem = true) (hm' : rm'.isMem = true)
    (haddr : operandAddress s pre x b 1 len rm = operandAddress s pre' x' b' 1 len' rm')
    (h : legacySource s pre x b len rm = .ok src) : vexSource s pre' x' b' 2 len' rm' = .ok src := by
  rw [legacySource_mem hm, haddr] at h
  rw [vexSource_mem hm']
  cases halign : legacyAlignment s (operandAddress s pre' x' b' 1 len' rm').1
      (operandAddress s pre' x' b' 1 len' rm').2 with
  | error st => simp [halign] at h
  | ok _ => simpa only [halign] using h

/-- Settles O55: both forms commit the lanes of one source, SUBPD with the old upper lanes, VEX.128 without. -/
theorem subpdAgreesWithVex : Obligations.SubpdAgreesWithVex := by
  intro i' pre pre' rex reg rm rm' x bb s t i d hi' hsame henabled h
  obtain ⟨-, src, mx, hread, hmx, rfl⟩ := execSubpd_eq_next.mp h
  have hread' : vexSource s pre' x bb 2 i'.length rm' = .ok src := by
    rcases hsame with ⟨r, r', rfl, rfl, hreg⟩ | ⟨hm, hm', haddr⟩
    · exact (congrArg (fun q => Except.ok (regLanes s q)) hreg.symm).trans hread
    · exact vexSource_of_legacySource hm hm' haddr hread
  have ht := commit_legacyLanes_resultIs s d (regLanes s d) src mx i.length
  have hu := commit_plainLanes_resultIs s d 2 (regLanes s d) src mx i'.length
  refine ⟨_, (exec_vexForm_eq_next hi').mpr ⟨henabled, src, mx, hread', hmx, rfl⟩, rfl, rfl,
    ht.elsewhere.of_common hu.elsewhere, fun n hn => (hu.others n hn).trans (ht.others n hn).symm,
    fun j hj => ?_⟩
  have hlanes := ht.lanes j hj
  rw [hu.lanes j hj]
  by_cases hlow : j < 2
  · rw [if_pos hlow] at hlanes ⊢
    exact hlanes.symm
  · rw [if_neg hlow] at hlanes ⊢
    refine ⟨by rw [plainResult, if_neg hlow, ite_self], fun hmax => ?_⟩
    rw [if_pos hmax] at hlanes
    exact hlanes

end Sys2Proof.Machine

/-! SUPPORT. An EVEX form, once enabled and its second source read, completes under its writemask
(spec/43_vsubpd_evex.md R193, R194): with quiet lanes, or with embedded rounding whatever its lanes are (R198).
Without a writemask it commits what the VEX form does (R199 item 10). -/

namespace Sys2Proof.Machine

open Sys2Proof

/-! ### The EVEX forms (R193) -/

theorem evexSource_of_readable {s : State} {pre : List Prefix} {x b bcst : Bool} {lanes len : Nat}
    {active : Nat → Bool} {rm : RmOperand} {sg : Seg} {la : Quad} (hm : rm.isMem = true)
    (hsrc : operandAddress s pre x b (dispFactor lanes bcst) len rm = (sg, la))
    (hread : Readable s sg la lanes bcst active) :
    evexSource s pre x b lanes bcst active len rm = .ok (memLanes s la bcst) := by
  rw [evexSource_mem hm, hsrc]
  exact readLanes_of_readable hread

/-- The commit of the lanes of an EVEX form: the masked result, and zeros above the length. -/
theorem commit_maskedLanes_resultIs (s : State) (n : Nat) (e : Evex) (d : BitVec 5) (rc : Rounding)
    (a b : Nat → Quad) (mx : BitVec 32) (len : Nat) :
    ResultIs s (commit s d (maskedLanes s n e d rc a b) mx len) (s.vreg d) (maskedResult s n e d rc a b) mx
      len :=
  commit_resultIs fun _ _ => rfl

/-- Whatever the second source is, once it is read: an instruction that runs `evexSub`, with or without embedded
rounding, completes when enabled and its packed subtraction raises nothing. -/
theorem evexSub_completes {i : Instr} {n : Nat} {pre : List Prefix} {e : Evex} {bcst : Bool}
    {er : Option Rounding} {reg : BitVec 3} {rm : RmOperand} {s : State} {src : Nat → Quad} {mx : BitVec 32}
    {rc : Rounding} (hrc : er.getD (mxRC s.mxcsr) = rc)
    (hexec : exec i s = outcome (evexSub n pre e bcst er reg i.length rm s))
    (henabled : Enabled (.evex (64 * n)) s)
    (hsrc : evexSource s pre e.x e.b n bcst (activeLane s e.aaa) i.length rm = .ok src)
    (hmx : packedSub s n (regLanes s (vvvvNum e.v2 e.vvvv)) src (activeLane s e.aaa) rc er.isSome = .ok mx) :
    Completes i s (num5 e.r2 e.r reg)
      (maskedResult s n e (num5 e.r2 e.r reg) rc (regLanes s (vvvvNum e.v2 e.vvvv)) src) mx := by
  subst hrc
  exact ⟨_, hexec.trans (outcome_eq_next.mpr (evexSub_eq_ok.mpr ⟨henabled, src, mx, hsrc, hmx, rfl⟩)),
    commit_maskedLanes_resultIs ..⟩

/-- A form without embedded rounding completes when its computed lanes are quiet. -/
theorem evexForm_completes_of_source {i : Instr} {n : Nat} {pre : List Prefix} {e : Evex} {bcst : Bool}
    {reg : BitVec 3} {rm : RmOperand} {s : State} {src : Nat → Quad} (hi : EvexForm i n pre e bcst reg rm)
    (henabled : Enabled i.cls s)
    (hsrc : evexSource s pre e.x e.b n bcst (activeLane s e.aaa) i.length rm = .ok src)
    (hquiet : QuietLanes s n (regLanes s (vvvvNum e.v2 e.vvvv)) src (activeLane s e.aaa) (mxRC s.mxcsr)) :
    Completes i s (num5 e.r2 e.r reg)
      (maskedResult s n e (num5 e.r2 e.r reg) (mxRC s.mxcsr) (regLanes s (vvvvNum e.v2 e.vvvv)) src)
      (flagsAfter s n (regLanes s (vvvvNum e.v2 e.vvvv)) src (activeLane s e.aaa) (mxRC s.mxcsr)) := by
  obtain ⟨hexec, hcls⟩ := exec_evexForm hi s
  rw [hcls] at henabled
  exact evexSub_completes rfl hexec henabled hsrc (packedSub_of_quietLanes hquiet)

/-- Settles O22: a register source is always read. -/
theorem evexRegisterCompletes : Obligations.EvexRegisterCompletes := by
  intro i n pre e reg r s hi henabled d a b hquiet
  exact evexForm_completes_of_source hi henabled rfl hquiet

/-- Settles O23: of a memory operand only the bytes that computed lanes need have to be readable. -/
theorem evexMemoryCompletes : Obligations.EvexMemoryCompletes := by
  intro i n pre e bcst reg rm s hi hm henabled d src a b hread hquiet
  exact evexForm_completes_of_source hi henabled (evexSource_of_readable hm rfl hread) hquiet

/-- Suppress-all-exceptions (R198): no lane raises anything, and MXCSR is kept. -/
theorem packedSub_suppressed (s : State) (n : Nat) (a b : Nat → Quad) (active : Nat → Bool)
    (rc : Rounding) : packedSub s n a b active rc true = .ok s.mxcsr := rfl

/-- Settles O24: with embedded rounding the packed subtraction is suppressed, so no lane has to be quiet. -/
theorem embeddedRoundingCompletes : Obligations.EmbeddedRoundingCompletes := by
  intro pre e rc reg r s henabled d
  have hexec : exec (.vsubpdEvex512er pre e rc reg r) s = outcome (evexSub 8 pre e false (some rc) reg
      (Instr.vsubpdEvex512er pre e rc reg r).length (.reg r) s) := rfl
  exact evexSub_completes rfl hexec henabled rfl (packedSub_suppressed ..)

/-! ### Every lane masked off (R199 item 1) -/

section

variable {s : State} {n : Nat} {active : Nat → Bool}

theorem filter_range_eq_nil (hoff : ∀ j, j < n → active j = false) : (List.range n).filter active = [] := by
  simpa [List.filter_eq_nil_iff] using hoff

theorem neededBytes_eq_nil (la : Nat) (bcst : Bool) (hoff : ∀ j, j < n → active j = false) :
    neededBytes la n bcst active = [] := by
  have hany : (List.range n).any active = false := by simpa using hoff
  cases bcst
  · simp [neededBytes, filter_range_eq_nil hoff]
  · simp [neededBytes, hany]

/-- Where no byte is needed and only needed bytes are checked, any operand is readable (R195). -/
theorem readable_of_all_masked (sg : Seg) (la : Quad) (bcst : Bool) (hscope : s.params.suppressScope = .all)
    (hoff : ∀ j, j < n → active j = false) : Readable s sg la n bcst active := by
  have hnone := neededBytes_eq_nil la.toNat bcst hoff
  refine ⟨fun a ha => ?_, fun hpf => ?_, fun hneeded => absurd hnone hneeded⟩
  · rw [hnone] at ha
    cases ha
  · rw [hscope] at hpf
    cases hpf

theorem quietLanes_of_all_masked (a b : Nat → Quad) (rc : Rounding)
    (hoff : ∀ j, j < n → active j = false) : QuietLanes s n a b active rc := by
  intro j hj hactive
  rw [hoff j hj] at hactive
  cases hactive

theorem flagsAfter_of_all_masked (a b : Nat → Quad) (rc : Rounding)
    (hoff : ∀ j, j < n → active j = false) : flagsAfter s n a b active rc = s.mxcsr := by
  rw [flagsAfter, filter_range_eq_nil hoff]
  exact orFlags_empty s.mxcsr

/-- Nothing is computed: zeroing clears the low lanes, merging keeps them (R194). -/
theorem maskedResult_of_all_masked {e : Evex} (d : BitVec 5) (rc : Rounding) (a b : Nat → Quad)
    (hoff : ∀ j, j < n → activeLane s e.aaa j = false) :
    maskedResult s n e d rc a b = fun j => if j < n ∧ e.z = false then regLanes s d j else 0 := by
  funext j
  by_cases hj : j < n
  · cases hz : e.z <;> simp [maskedResult, hj, hoff j hj, hz, regLanes]
  · simp [maskedResult, hj]

end

/-- Settles O25: the case of O23 in which no lane is computed, so that no byte is needed. -/
theorem allMaskedOffCompletes : Obligations.AllMaskedOffCompletes := by
  intro i n pre e bcst reg rm s hi hm henabled hscope hoff d
  have h := evexMemoryCompletes i n pre e bcst reg rm s hi hm henabled
    (readable_of_all_masked _ _ bcst hscope hoff) (quietLanes_of_all_masked _ _ _ hoff)
  rwa [maskedResult_of_all_masked _ _ _ _ hoff, flagsAfter_of_all_masked _ _ _ hoff] at h

/-! ### EVEX without a writemask and VEX (R199 item 10) -/

/-- `aaa` = 0 names no writemask: every lane is computed (R194). -/
theorem activeLane_zero (s : State) : activeLane s 0 = allLanes := rfl

theorem maskedLanes_of_aaa_eq_zero {e : Evex} (s : State) (n : Nat) (d : BitVec 5) (a b : Nat → Quad)
    (haaa : e.aaa = 0) : maskedLanes s n e d (mxRC s.mxcsr) a b = plainLanes s n a b := by
  rw [maskedLanes, haaa, activeLane_zero]
  rfl

/-- The same register, or memory at one address, is read alike by both forms when no lane is masked off. -/
theorem vexSource_eq_evexSource {s : State} {pre pre' : List Prefix} {x x' b b' : Bool} {n len len' : Nat}
    {rm rm' : RmOperand}
    (hsame : (∃ r r', rm = .reg r ∧ rm' = .reg r' ∧ num5 x b r = num5 false b' r') ∨
      (rm.isMem = true ∧ rm'.isMem = true ∧
        operandAddress s pre x b (dispFactor n false) len rm = operandAddress s pre' x' b' 1 len' rm')) :
    vexSource s pre' x' b' n len' rm' = evexSource s pre x b n false allLanes len rm := by
  rcases hsame with ⟨r, r', rfl, rfl, hreg⟩ | ⟨hm, hm', haddr⟩
  · exact congrArg (fun q => Except.ok (regLanes s q)) hreg.symm
  · rw [vexSource_mem hm', evexSource_mem hm, haddr]
    rfl

/-- Settles O54: both forms read one source, subtract every lane and commit the same lanes. -/
theorem evexAgreesWithVex : Obligations.EvexAgreesWithVex := by
  intro i i' n pre pre' e reg rm rm' x bb s t hi haaa hi' hsame henabled h
  rw [(exec_evexForm hi s).1, outcome_eq_next, evexSub_eq_ok] at h
  obtain ⟨-, src, mx, hread, hmx, rfl⟩ := h
  rw [haaa, activeLane_zero] at hread hmx
  refine (exec_vexForm_eq_next hi').mpr
    ⟨henabled, src, mx, (vexSource_eq_evexSource hsame).trans hread, hmx, ?_⟩
  rw [Option.getD_none, maskedLanes_of_aaa_eq_zero _ _ _ _ _ haaa]
  rfl

end Sys2Proof.Machine

/-! SUPPORT. What stops a step before or besides an instruction's meaning, and that every fault is precise
(spec/60_exceptions.md R216, R217, R221, R224, R228). -/

namespace Sys2Proof.Machine

open Sys2Proof

/-! ### The state a fault carries (R214, R221, R228) -/

/-- What R228 allows a fault raised at `s` to carry: `s` itself, but for MXCSR and CR2. -/
structure PreciseFault (s : State) (f : Fault) : Prop where
  frame : f.state = { s with mxcsr := f.state.mxcsr, cr2 := f.state.cr2 }
  sticky : ∃ fl, f.state.mxcsr = orFlags s.mxcsr fl
  mxcsr : f.vector = 19 ∨ f.vector = 6 ∨ f.state.mxcsr = s.mxcsr
  cr2 : f.state.cr2 = f.extra.getD s.cr2

/-- An exception taken at `s` changes CR2 at most, and that only as a page fault (R221). -/
theorem raise_precise (e : Exc) (s : State) : PreciseFault s (raise e s) := by
  have hmxcsr : (raise e s).state.mxcsr = s.mxcsr := by cases e <;> rfl
  exact {
    frame := by cases e <;> rfl
    sticky := ⟨FlagSet.empty, by rw [hmxcsr, orFlags_empty]⟩
    mxcsr := .inr (.inr hmxcsr)
    cr2 := by cases e <;> rfl }

/-- A floating-point exception is `#XM` or `#UD`, and sets flags alone (R214, R215). -/
theorem raise_simd_precise (s : State) (fl : FlagSet) :
    PreciseFault s
      (raise (if s.osxmmexcpt then .xm else .ud) { s with mxcsr := orFlags s.mxcsr fl }) := by
  cases s.osxmmexcpt with
  | true => exact ⟨rfl, ⟨fl, rfl⟩, .inl rfl, rfl⟩
  | false => exact ⟨rfl, ⟨fl, rfl⟩, .inr (.inl rfl), rfl⟩

theorem SourceStop.precise {s : State} {f : Fault} (h : SourceStop s (.fault f)) : PreciseFault s f := by
  cases h with
  | stack => exact raise_precise .ss s
  | protection => exact raise_precise .gp s
  | page code a => exact raise_precise (.pf code a) s
  | alignment => exact raise_precise .ac s

theorem ExecStop.precise {s : State} {f : Fault} (h : ExecStop s (.fault f)) : PreciseFault s f := by
  cases h with
  | ud => exact raise_precise .ud s
  | nm => exact raise_precise .nm s
  | source h => exact h.precise
  | simd fl => exact raise_simd_precise s fl

/-! ### The ways a step faults (R224) -/

theorem fetchCheck_eq_fault {s : State} {n : Nat} {f : Fault}
    (h : fetchCheck s n = .error (.fault f)) : ∃ e, f = raise e s := by
  unfold fetchCheck at h
  simp only at h
  split at h
  · cases h
  · split at h
    · cases h; exact ⟨_, rfl⟩
    · cases h; exact ⟨_, rfl⟩
    · cases h; exact ⟨_, rfl⟩
    · split at h <;> cases h

theorem Stop.outcome_eq_fault {st : Stop} {f : Fault} : st.outcome = .fault f ↔ st = .fault f := by
  cases st <;> simp [Stop.outcome]

/-- What follows decoding faults with the state as it was, or as the decoded instruction does. -/
theorem runDecoded_eq_fault {s : State} {d : Decoded} {f : Fault} (h : runDecoded s d = .fault f) :
    ExecStop s (.fault f) ∨ ∃ e, f = raise e s := by
  cases d with
  | instr i => exact .inl (exec_eq_fault h)
  | ud n => cases h; exact .inr ⟨.ud, rfl⟩
  | tooLong n => cases h; exact .inr ⟨.gp, rfl⟩
  | foreign why n => cases h
  | otherMode c n =>
    simp only [runDecoded] at h
    split at h
    · rename_i st hcheck
      rw [Stop.outcome_eq_fault.mp h] at hcheck
      exact .inl (enableCheck_stop hcheck)
    · cases h

/-- A step faults in its fetch checks or in what follows decoding. -/
theorem step_eq_fault {s : State} {f : Fault} (h : step s = .fault f) :
    ExecStop s (.fault f) ∨ ∃ e, f = raise e s := by
  unfold step stepOnce at h
  simp only at h
  split at h
  · rename_i st hcheck
    rw [Stop.outcome_eq_fault.mp h] at hcheck
    exact .inr (fetchCheck_eq_fault hcheck)
  · exact runDecoded_eq_fault h

/-- Settles O31: each way a step faults keeps the state. -/
theorem faultsArePrecise : Obligations.FaultsArePrecise := by
  intro s f h
  have hprecise : PreciseFault s f := by
    rcases step_eq_fault h with hstop | ⟨e, rfl⟩
    · exact hstop.precise
    · exact raise_precise e s
  exact ⟨hprecise.frame, hprecise.sticky, hprecise.mxcsr, hprecise.cr2⟩

/-! ### Fetchable bytes (R224 steps 3 and 4, R267) -/

/-- Settles O35: the fetch checks pass, and the instruction's meaning follows. -/
theorem stepRunsDecoded : Obligations.StepRunsDecoded := by
  intro s i hdecode hfetch
  exact step_of_fetchable hdecode hfetch

/-- Settles O32: the fetch checks pass, and the exception of the bytes follows. -/
theorem illegalEncodingFaults : Obligations.IllegalEncodingFaults := by
  intro s n hfetch
  exact ⟨fun hdecode => step_of_fetchable hdecode hfetch, fun hdecode => step_of_fetchable hdecode hfetch⟩

/-! ### The enable checks (R216, R217) -/

/-- Every meaning begins with the enable checks of its class, and ends there when they stop it. -/
theorem exec_of_enableCheck_error {i : Instr} {s : State} {st : Stop}
    (h : enableCheck i.cls s = .error st) : exec i s = st.outcome := by
  have vex : ∀ {n pre d s1 x b len rm}, enableCheck .vex s = .error st →
      outcome (vexSub n pre d s1 x b len rm s) = st.outcome :=
    fun h => congrArg outcome (bind_eq_error.mpr (.inl h))
  have evex : ∀ {n pre e b er reg len rm}, enableCheck (.evex (64 * n)) s = .error st →
      outcome (evexSub n pre e b er reg len rm s) = st.outcome :=
    fun h => congrArg outcome (bind_eq_error.mpr (.inl h))
  cases i with
  | subpd pre rex reg rm => exact congrArg outcome (bind_eq_error.mpr (.inl h))
  | vsubpdVex2x128 pre p reg rm => exact vex h
  | vsubpdVex3x128 pre p reg rm => exact vex h
  | vsubpdVex2x256 pre p reg rm => exact vex h
  | vsubpdVex3x256 pre p reg rm => exact vex h
  | vsubpdEvex128 pre e b reg rm => exact evex h
  | vsubpdEvex256 pre e b reg rm => exact evex h
  | vsubpdEvex512 pre e b reg rm => exact evex h
  | vsubpdEvex512er pre e rc reg rm => exact evex h

theorem is8086_eq_true {m : Mode} : Mode.is8086 m = true ↔ m = .real ∨ m = .virtual8086 := by
  cases m <;> decide

theorem usable_eq_false_of_is8086 {s : State} {c : FormClass} (hmode : Mode.is8086 s.mode = true)
    (hc : c ≠ .legacy) : s.usable c = false := by
  cases c with
  | legacy => exact absurd rfl hc
  | vex => simp [State.usable, hmode]
  | evex vl => simp [State.usable, hmode]

/-- Settles O26: a meaning ends with what its enable checks answer, in their order. -/
theorem enableChecks : Obligations.EnableChecks := by
  intro i s
  refine ⟨fun hno => ?unusable, fun husable hts => ?taskSwitched, fun hmode => ?other⟩
  case unusable =>
    exact exec_of_enableCheck_error (st := .fault (.invalidOpcode s)) (by simp [enableCheck, hno, raise])
  case taskSwitched =>
    exact exec_of_enableCheck_error (st := .fault (.deviceNotAvailable s))
      (by simp [enableCheck, husable, hts, raise])
  case other =>
    have h8086 := is8086_eq_true.mpr hmode
    refine ⟨usable_eq_false_of_is8086 h8086, fun hcls husable hts => ?_⟩
    rw [← hcls] at husable
    exact exec_of_enableCheck_error (st := .refuse .modeNotDescribed)
      (by simp [enableCheck, husable, hts, h8086])

/-! ### The error code of a page fault (R221) -/

/-- Settles O30: the code is put together from its bits, bit 0 last. -/
theorem pageFaultCodeBits : Obligations.PageFaultCodeBits := by
  intro b cpl kind i
  by_cases hi : i < 32
  · simp only [pageFaultCode, BitVec.getLsbD_append]
    interval_cases i
    all_goals simp
  · obtain ⟨k, rfl⟩ := Nat.exists_eq_add_of_le' (Nat.le_of_not_lt hi)
    exact BitVec.getLsbD_of_ge _ _ (Nat.le_add_left 32 k)

end Sys2Proof.Machine

/-! SUPPORT. A packed subtraction one of whose computed lanes is not quiet raises a floating-point exception
(spec/60_exceptions.md R212 to R215), and so does every form that subtracts such lanes. -/

namespace Sys2Proof.Machine

open Sys2Proof

/-! ### Sets of flags -/

theorem FlagSet.inter_inter_self_right (f g : FlagSet) : (f.inter g).inter f = f.inter g := by
  simp only [FlagSet.inter, Bool.and_right_comm, Bool.and_self]

theorem FlagSet.union_inter (f g h : FlagSet) : (f.union g).inter h = (f.inter h).union (g.inter h) := by
  simp only [FlagSet.inter, FlagSet.union, Bool.and_or_distrib_right]

/-- Unmasked flags of a set are flags of it. -/
theorem unmasked_inter_self (m : BitVec 32) (f : FlagSet) : (unmasked m f).inter f = unmasked m f := by
  simp only [unmasked, FlagSet.inter, Bool.and_right_comm, Bool.and_self]

/-- A part of the unmasked flags is unmasked. -/
theorem unmasked_of_inter_unmasked {m : BitVec 32} {f g : FlagSet} (h : g.inter (unmasked m f) = g) :
    unmasked m g = g := by
  rw [← h]
  simp only [unmasked, FlagSet.inter, Bool.and_assoc, Bool.and_self]

theorem FlagSet.lowest_inter_self (f : FlagSet) : f.lowest.inter f = f.lowest := by
  unfold FlagSet.lowest
  split_ifs with hie hde hoe hue
  all_goals simp [FlagSet.inter, *]

theorem FlagSet.nonempty_lowest {f : FlagSet} : f.lowest.nonempty = f.nonempty := by
  unfold FlagSet.lowest
  split_ifs with hie hde hoe hue
  all_goals simp [FlagSet.nonempty, *]

theorem FlagSet.inter_trans {f g h : FlagSet} (hfg : f.inter g = f) (hgh : g.inter h = g) :
    f.inter h = f := by
  rw [← hfg, ← hgh]
  simp only [FlagSet.inter, Bool.and_assoc, Bool.and_self]

/-- The loose reading takes some of the candidate flags (U8). -/
theorem looseFlags_inter (s : State) (candidates : FlagSet) :
    (looseFlags s candidates).inter candidates = looseFlags s candidates := by
  unfold looseFlags
  simp only
  split_ifs
  · exact FlagSet.inter_inter_self_right ..
  · have hlowest : (unmasked s.mxcsr candidates).lowest.inter candidates =
        (unmasked s.mxcsr candidates).lowest :=
      FlagSet.inter_trans (FlagSet.lowest_inter_self _) (unmasked_inter_self ..)
    rw [FlagSet.union_inter, FlagSet.inter_inter_self_right, hlowest]

/-- With an unmasked condition among the candidates, the loose reading sets the flag of one (U8). -/
theorem looseFlags_unmasked {s : State} {candidates : FlagSet}
    (h : (unmasked s.mxcsr candidates).nonempty = true) :
    (unmasked s.mxcsr (looseFlags s candidates)).nonempty = true := by
  unfold looseFlags
  simp only
  split_ifs with hpick
  · exact hpick
  · rw [unmasked_union, FlagSet.nonempty_union,
      unmasked_of_inter_unmasked (FlagSet.lowest_inter_self _), FlagSet.nonempty_lowest, h, Bool.or_true]

/-! ### Packed subtraction -/

/-- Without suppression `PACKED_SUB` is its two phases (R213). -/
theorem packedSub_eq_phases (s : State) (n : Nat) (a b : Nat → Quad) (active : Nat → Bool) (rc : Rounding) :
    packedSub s n a b active rc false =
      if (unmasked s.mxcsr (preFlags s n a b active rc)).nonempty then
        .error (raiseSimd s (preFlags s n a b active rc)
          ((preFlags s n a b active rc).union (postFlags s n a b active rc)))
      else if (unmasked s.mxcsr (postFlags s n a b active rc)).nonempty then
        .error (raiseSimd s ((preFlags s n a b active rc).union (postFlags s n a b active rc))
          ((preFlags s n a b active rc).union (postFlags s n a b active rc)))
      else .ok (orFlags s.mxcsr ((preFlags s n a b active rc).union (postFlags s n a b active rc))) := by
  simp only [packedSub, packedFlags, laneConds, List.map_map, Bool.false_eq_true, if_false]
  rfl

/-- The lanes are quiet exactly when neither phase has an unmasked flag (R213). -/
theorem quietLanes_iff {s : State} {n : Nat} {a b : Nat → Quad} {active : Nat → Bool} {rc : Rounding} :
    QuietLanes s n a b active rc ↔
      (unmasked s.mxcsr ((preFlags s n a b active rc).union (postFlags s n a b active rc))).nonempty =
        false := by
  rw [unmasked_union_eq_false, preFlags, postFlags, unmasked_unions_eq_false, unmasked_unions_eq_false]
  simp only [List.forall_mem_map, List.mem_filter, List.mem_range, and_imp, ← forall_and, QuietLanes,
    quietLane_iff]

/-- R213, R214: lanes that are not quiet raise, with the flags of the two-phase rule. -/
theorem packedSub_of_not_quietLanes {s : State} {n : Nat} {a b : Nat → Quad} {active : Nat → Bool}
    {rc : Rounding} (h : ¬ QuietLanes s n a b active rc) :
    packedSub s n a b active rc false = .error (raiseSimd s (raisedFlags s n a b active rc)
      ((preFlags s n a b active rc).union (postFlags s n a b active rc))) := by
  rw [packedSub_eq_phases, raisedFlags]
  by_cases hpre : (unmasked s.mxcsr (preFlags s n a b active rc)).nonempty = true
  · rw [if_pos hpre, if_pos hpre]
  · have hpost : (unmasked s.mxcsr (postFlags s n a b active rc)).nonempty = true := by
      rw [quietLanes_iff, unmasked_union_eq_false, not_and, Bool.not_eq_false] at h
      exact h (Bool.not_eq_true _ ▸ hpre)
    rw [if_neg hpre, if_neg hpre, if_pos hpost]

/-- Settles O16: quiet lanes give the flags of `FSUB64`, others a raise. -/
theorem packedCompletesIffQuiet : Obligations.PackedCompletesIffQuiet := by
  intro s n a b active rc mx
  by_cases hquiet : QuietLanes s n a b active rc
  · rw [packedSub_of_quietLanes hquiet, Except.ok.injEq, eq_comm, and_iff_right hquiet]
  · rw [packedSub_of_not_quietLanes hquiet]
    simp [hquiet]

/-! ### The raise of a form (R215) -/

/-- The raise of `PACKED_SUB` under the two-phase reading (R214, R215). -/
theorem outcome_raiseSimd_of_twoPhase {s : State} (h : s.params.xmFlags = .twoPhase)
    (twoPhase candidates : FlagSet) :
    outcome (.error (raiseSimd s twoPhase candidates)) = .fault (simdFault s twoPhase) := by
  rw [raiseSimd, h, simdFault, outcome_fault]
  cases s.osxmmexcpt <;> rfl

/-- The raise of `PACKED_SUB` under the loose reading (U8, R215). -/
theorem outcome_raiseSimd_of_loose {s : State} (h : s.params.xmFlags = .loose)
    (twoPhase candidates : FlagSet) :
    outcome (.error (raiseSimd s twoPhase candidates)) =
      .fault (simdFault s (looseFlags s candidates)) := by
  rw [raiseSimd, h, simdFault, outcome_fault]
  cases s.osxmmexcpt <;> rfl

/-- A form that ends with what its packed subtraction raises. -/
theorem raisesSimd_of_exec {i : Instr} {s : State} {n : Nat} {a b : Nat → Quad} {active : Nat → Bool}
    {rc : Rounding} (hnot : ¬ QuietLanes s n a b active rc)
    (hexec : exec i s = outcome (.error (raiseSimd s (raisedFlags s n a b active rc)
      ((preFlags s n a b active rc).union (postFlags s n a b active rc))))) :
    RaisesSimd i s n a b active rc := by
  unfold RaisesSimd
  cases hxm : s.params.xmFlags with
  | twoPhase => exact hexec.trans (outcome_raiseSimd_of_twoPhase hxm ..)
  | loose =>
    rw [quietLanes_iff, Bool.not_eq_false] at hnot
    exact ⟨_, hexec.trans (outcome_raiseSimd_of_loose hxm ..), looseFlags_unmasked hnot,
      looseFlags_inter ..⟩

/-- A computation of two steps that succeed and a third that stops. -/
theorem bind_eq_error_of_third {α β γ : Type} {x : Except Stop Unit} {y : Except Stop α}
    {z : α → Except Stop β} {k : α → β → Except Stop γ} {a : α} {st : Stop} (hx : x = .ok ())
    (hy : y = .ok a) (hz : z a = .error st) :
    (do x; let a ← y; let b ← z a; k a b) = .error st :=
  bind_eq_error.mpr (.inr ⟨(), hx, bind_eq_error.mpr (.inr ⟨a, hy, bind_eq_error.mpr (.inl hz)⟩)⟩)

/-- SUBPD, enabled and its second source read, raises when a lane is not quiet. -/
theorem subpd_raises_of_source {pre : List Prefix} {rex : Option Rex} {reg : BitVec 3} {rm : RmOperand}
    {s : State} {b : Nat → Quad} (henabled : Enabled .legacy s)
    (hsrc : legacySource s pre (rex.any Rex.x) (rex.any Rex.b) (Instr.subpd pre rex reg rm).length rm =
      .ok b)
    (hnot : ¬ QuietLanes s 2 (regLanes s (num5 false (rex.any Rex.r) reg)) b allLanes (mxRC s.mxcsr)) :
    RaisesSimd (.subpd pre rex reg rm) s 2 (regLanes s (num5 false (rex.any Rex.r) reg)) b allLanes
      (mxRC s.mxcsr) := by
  have hraise := packedSub_of_not_quietLanes hnot
  exact raisesSimd_of_exec hnot
    (congrArg outcome (bind_eq_error_of_third (enableCheck_eq_ok.mpr henabled) hsrc hraise))

theorem vexForm_raises_of_source {i : Instr} {n : Nat} {pre : List Prefix} {d s1 : BitVec 5} {x b : Bool}
    {rm : RmOperand} {s : State} {src : Nat → Quad} (hi : VexForm i n pre d s1 x b rm)
    (henabled : Enabled .vex s) (hsrc : vexSource s pre x b n i.length rm = .ok src)
    (hnot : ¬ QuietLanes s n (regLanes s s1) src allLanes (mxRC s.mxcsr)) :
    RaisesSimd i s n (regLanes s s1) src allLanes (mxRC s.mxcsr) := by
  have hsub : vexSub n pre d s1 x b i.length rm s = .error _ :=
    bind_eq_error_of_third (enableCheck_eq_ok.mpr henabled) hsrc (packedSub_of_not_quietLanes hnot)
  exact raisesSimd_of_exec hnot ((exec_vexForm hi s).trans (congrArg outcome hsub))

theorem evexForm_raises_of_source {i : Instr} {n : Nat} {pre : List Prefix} {e : Evex} {bcst : Bool}
    {reg : BitVec 3} {rm : RmOperand} {s : State} {src : Nat → Quad} (hi : EvexForm i n pre e bcst reg rm)
    (henabled : Enabled i.cls s)
    (hsrc : evexSource s pre e.x e.b n bcst (activeLane s e.aaa) i.length rm = .ok src)
    (hnot : ¬ QuietLanes s n (regLanes s (vvvvNum e.v2 e.vvvv)) src (activeLane s e.aaa)
      (mxRC s.mxcsr)) :
    RaisesSimd i s n (regLanes s (vvvvNum e.v2 e.vvvv)) src (activeLane s e.aaa) (mxRC s.mxcsr) := by
  obtain ⟨hexec, hcls⟩ := exec_evexForm hi s
  rw [hcls] at henabled
  have hsub : evexSub n pre e bcst none reg i.length rm s = .error _ :=
    bind_eq_error_of_third (enableCheck_eq_ok.mpr henabled) hsrc (packedSub_of_not_quietLanes hnot)
  exact raisesSimd_of_exec hnot (hexec.trans (congrArg outcome hsub))

/-- Settles O17: in each form a register source, and a readable memory source, is read. -/
theorem unmaskedConditionRaises : Obligations.UnmaskedConditionRaises := by
  intro s
  refine ⟨?subpdReg, ?subpdMem, ?vexReg, ?vexMem, ?evexReg, ?evexMem⟩
  case subpdReg =>
    intro pre rex reg r henabled a b hnot
    exact subpd_raises_of_source henabled rfl hnot
  case subpdMem =>
    intro pre rex reg rm hm henabled i src a b halign hread hnot
    exact subpd_raises_of_source henabled (legacySource_of_readable hm rfl halign hread) hnot
  case vexReg =>
    intro i n pre d s1 x bb r hi henabled a b hnot
    exact vexForm_raises_of_source hi henabled rfl hnot
  case vexMem =>
    intro i n pre d s1 x bb rm hi hm henabled src a b hread hnot
    exact vexForm_raises_of_source hi henabled (vexSource_of_readable hm rfl hread) hnot
  case evexReg =>
    intro i n pre e reg r hi henabled a b hnot
    exact evexForm_raises_of_source hi henabled rfl hnot
  case evexMem =>
    intro i n pre e bcst reg rm hi hm henabled src a b hread hnot
    exact evexForm_raises_of_source hi henabled (evexSource_of_readable hm rfl hread) hnot

end Sys2Proof.Machine

/-! SUPPORT. The memory faults of the forms: a misaligned operand of SUBPD, a checked byte outside the space or
its segment, a needed byte that paging refuses (spec/60_exceptions.md R218, R219, R221, R224). -/

namespace Sys2Proof.Machine

open Sys2Proof

/-! ### The top of the space (R60, R63) -/

theorem linearAddress_lt_spaceTop (s : State) (sg : Seg) (ea : Quad) :
    (linearAddress s sg ea).toNat < spaceTop s.mode := by
  unfold linearAddress truncAddr spaceTop
  by_cases hmode : s.mode = .long64
  · rw [if_pos hmode]
    exact BitVec.isLt _
  · simp only [hmode, if_false, decide_not, decide_false, Bool.not_false, if_true]
    exact (BitVec.toNat_setWidth_of_le (by decide)).trans_lt (BitVec.isLt _)

/-- A 16-byte aligned operand of 16 bytes does not run past the top. -/
theorem wholeBytes_lt_spaceTop_of_aligned {m : Mode} {la c : Nat} (hla : la < spaceTop m)
    (halign : la % 16 = 0) (hc : c ∈ wholeBytes la 2 false) : c < spaceTop m := by
  simp only [wholeBytes, mem_byteRange, Bool.false_eq_true, if_false] at hc
  unfold spaceTop at hla ⊢
  split_ifs at hla ⊢ <;> omega

/-! ### Data reads (R219, R221) -/

section Check

variable {s : State} {sg : Seg} {gp needed : List Nat}
  (hsub : ∀ a ∈ needed, a ∈ gp) (htop : ∀ a ∈ gp, a < spaceTop s.mode)
include hsub htop

theorem any_data_past_top_eq_false :
    ((gp ++ needed).any fun a => decide (spaceTop s.mode ≤ a)) = false := by
  simp only [List.any_eq_false, List.mem_append, decide_eq_true_eq, not_le]
  exact fun a ha => htop a (ha.elim id (hsub a))

theorem dataCheck_of_outside (hout : ∃ a ∈ gp, outside s .read sg a = true) :
    dataCheck s sg gp needed = .error (.fault (raise (outsideExc sg) s)) := by
  simp only [dataCheck, any_data_past_top_eq_false hsub htop, Bool.false_eq_true, if_false,
    if_pos (List.any_eq_true.mpr hout)]

theorem dataCheck_of_pageFault {e : Exc} (hin : ∀ a ∈ gp, outside s .read sg a = false)
    (hpage : pageFault? s .read sg needed = some e) :
    dataCheck s sg gp needed = .error (.fault (raise e s)) := by
  have hout : gp.any (outside s .read sg) = false := by simpa using hin
  simp only [dataCheck, any_data_past_top_eq_false hsub htop, hout, hpage, Bool.false_eq_true, if_false]

end Check

/-- The fault of a byte outside the space: `#SS(0)` through SS, else `#GP(0)` (R219). -/
theorem raise_outsideExc (sg : Seg) (s : State) :
    raise (outsideExc sg) s = if sg = .ss then .stackSegment s else .generalProtection s := by
  unfold outsideExc
  split <;> rfl

section Read

variable {s : State} {sg : Seg} {la : Quad} {lanes : Nat} {bcst : Bool} {active : Nat → Bool}

theorem readLanes_of_outside
    (htop : ∀ a ∈ checkedBytes s la.toNat lanes bcst active, a < spaceTop s.mode)
    (hout : ∃ a ∈ checkedBytes s la.toNat lanes bcst active, outside s .read sg a = true) :
    readLanes s sg la lanes bcst active =
      .error (.fault (if sg = .ss then .stackSegment s else .generalProtection s)) := by
  rw [← raise_outsideExc]
  exact readLanes_of_dataCheck_error
    (dataCheck_of_outside (fun _ => mem_checkedBytes_of_mem_neededBytes) htop hout)

/-- Where paging refuses a needed byte, the read reports a refused needed byte (U5). -/
theorem readLanes_of_refused
    (hinside : ∀ a ∈ checkedBytes s la.toNat lanes bcst active, Inside s sg a)
    (hrefused : ∃ a ∈ neededBytes la.toNat lanes bcst active, (pageDenial s .read sg a).isSome = true) :
    ∃ a ∈ neededBytes la.toNat lanes bcst active, ∃ bits, pageDenial s .read sg a = some bits ∧
      readLanes s sg la lanes bcst active =
        .error (.fault (.pageFault (pageFaultCode bits s.cpl .read) (BitVec.ofNat 64 a)
          { s with cr2 := BitVec.ofNat 64 a })) := by
  obtain ⟨a, ha, bits, hbits, hpage⟩ := exists_pageFault?_of_refused hrefused
  exact ⟨a, ha, bits, hbits, readLanes_of_dataCheck_error
    (dataCheck_of_pageFault (fun _ => mem_checkedBytes_of_mem_neededBytes)
      (fun a ha => (hinside a ha).1) (fun a ha => (hinside a ha).2) hpage)⟩

/-- `readLanes_of_outside` for an operand that is read whole. -/
theorem readLanes_allLanes_of_outside (htop : ∀ a ∈ wholeBytes la.toNat lanes false, a < spaceTop s.mode)
    (hout : ∃ a ∈ wholeBytes la.toNat lanes false, outside s .read sg a = true) :
    readLanes s sg la lanes false (fun _ => true) =
      .error (.fault (if sg = .ss then .stackSegment s else .generalProtection s)) :=
  readLanes_of_outside (by simpa only [mem_checkedBytes_allLanes] using htop)
    (by simpa only [mem_checkedBytes_allLanes] using hout)

/-- `readLanes_of_refused` for an operand that is read whole. -/
theorem readLanes_allLanes_of_refused (hinside : ∀ a ∈ wholeBytes la.toNat lanes false, Inside s sg a)
    (hrefused : ∃ a ∈ wholeBytes la.toNat lanes false, (pageDenial s .read sg a).isSome = true) :
    ∃ a ∈ wholeBytes la.toNat lanes false, ∃ bits, pageDenial s .read sg a = some bits ∧
      readLanes s sg la lanes false (fun _ => true) =
        .error (.fault (.pageFault (pageFaultCode bits s.cpl .read) (BitVec.ofNat 64 a)
          { s with cr2 := BitVec.ofNat 64 a })) := by
  simp only [← mem_checkedBytes_allLanes (s := s)] at hinside
  simp only [← mem_neededBytes_allLanes] at hrefused ⊢
  exact readLanes_of_refused hinside hrefused

end Read

/-! ### An enabled form whose memory operand is not read -/

theorem exec_subpd_of_readLanes_error {pre : List Prefix} {rex : Option Rex} {reg : BitVec 3}
    {rm : RmOperand} {s : State} {sg : Seg} {la : Quad} {st : Stop} (hm : rm.isMem = true)
    (he : Enabled .legacy s)
    (hsrc : operandAddress s pre (rex.any Rex.x) (rex.any Rex.b) 1 (Instr.subpd pre rex reg rm).length rm =
      (sg, la))
    (halign : la.toNat % 16 = 0) (hread : readLanes s sg la 2 false (fun _ => true) = .error st) :
    exec (.subpd pre rex reg rm) s = st.outcome := by
  refine exec_subpd_of_source_error he ?_
  rw [legacySource_mem hm, hsrc, legacyAlignment_of_aligned halign]
  exact hread

theorem exec_vexForm_of_readLanes_error {i : Instr} {n : Nat} {pre : List Prefix} {d s1 : BitVec 5}
    {x b : Bool} {rm : RmOperand} {s : State} {sg : Seg} {la : Quad} {st : Stop}
    (hf : VexForm i n pre d s1 x b rm) (hm : rm.isMem = true) (he : Enabled .vex s)
    (hsrc : operandAddress s pre x b 1 i.length rm = (sg, la))
    (hread : readLanes s sg la n false (fun _ => true) = .error st) : exec i s = st.outcome := by
  refine exec_vexForm_of_source_error hf he ?_
  rw [vexSource_mem hm, hsrc]
  exact hread

theorem exec_evexForm_of_readLanes_error {i : Instr} {n : Nat} {pre : List Prefix} {e : Evex} {bcst : Bool}
    {reg : BitVec 3} {rm : RmOperand} {s : State} {sg : Seg} {la : Quad} {st : Stop}
    (hf : EvexForm i n pre e bcst reg rm) (hm : rm.isMem = true) (he : Enabled i.cls s)
    (hsrc : operandAddress s pre e.x e.b (dispFactor n bcst) i.length rm = (sg, la))
    (hread : readLanes s sg la n bcst (activeLane s e.aaa) = .error st) : exec i s = st.outcome := by
  refine exec_evexForm_of_source_error hf he ?_
  rw [evexSource_mem hm, hsrc]
  exact hread

/-! ### The statements -/

/-- What the alignment check of the legacy form answers for a misaligned operand (R218, U7). -/
theorem legacyAlignment_of_misaligned {s : State} {sg : Seg} {la : Quad} (h : la.toNat % 16 ≠ 0) :
    legacyAlignment s sg la = .error (.fault (.generalProtection s)) ∨
    (s.mode = .long64 ∧ sg = .ss ∧
      (∃ a ∈ byteRange la.toNat 16, canonical s.params.law a = false) ∧
      legacyAlignment s sg la = .error (.fault (.stackSegment s))) := by
  unfold legacyAlignment
  rw [if_neg h]
  split_ifs with hstack
  · simp only [Bool.and_eq_true, decide_eq_true_eq, List.any_eq_true] at hstack
    obtain ⟨⟨⟨hmode, hsg⟩, a, ha, hout⟩, -⟩ := hstack
    have hcanonical : canonical s.params.law a = false := by simpa [outside, hmode] using hout
    exact .inr ⟨hmode, hsg, ⟨a, ha, hcanonical⟩, rfl⟩
  · exact .inl rfl

/-- Settles O27: the alignment check comes before the operand is read. -/
theorem subpdMisaligned : Obligations.SubpdMisaligned := by
  intro pre rex reg rm s hm he i src hmis
  have fault_of_alignment : ∀ {f : Fault}, legacyAlignment s src.1 src.2 = .error (.fault f) →
      exec i s = .fault f := by
    intro f h
    refine exec_subpd_of_source_error he (st := .fault f) ?_
    rw [legacySource_mem hm, h]
  rcases legacyAlignment_of_misaligned hmis with hgp | ⟨hmode, hsg, hbyte, hss⟩
  · exact .inl (fault_of_alignment hgp)
  · exact .inr ⟨hmode, hsg, hbyte, fault_of_alignment hss⟩

/-- Settles O28: a byte outside stops the data check, once no checked byte is past the top; an aligned operand of
SUBPD has none there. -/
theorem outsideOperandFaults : Obligations.OutsideOperandFaults := by
  refine ⟨?subpd, ?vex, ?evex⟩
  case subpd =>
    intro pre rex reg rm s hm he i src halign hout
    have htop : ∀ a ∈ wholeBytes src.2.toNat 2 false, a < spaceTop s.mode := fun a =>
      wholeBytes_lt_spaceTop_of_aligned (linearAddress_lt_spaceTop s _ _) halign
    exact exec_subpd_of_readLanes_error hm he rfl halign (readLanes_allLanes_of_outside htop hout)
  case vex =>
    intro i n pre d s1 x bb rm s hf hm he src htop hout
    exact exec_vexForm_of_readLanes_error hf hm he rfl (readLanes_allLanes_of_outside htop hout)
  case evex =>
    intro i n pre e bcst reg rm s hf hm he src needed checked htop hout
    exact exec_evexForm_of_readLanes_error hf hm he rfl (readLanes_of_outside htop hout)

/-- Settles O29: with the checked bytes inside, paging is what stops the data check. -/
theorem neededByteRefusedByPaging : Obligations.NeededByteRefusedByPaging := by
  refine ⟨?subpd, ?vex, ?evex⟩
  case subpd =>
    intro pre rex reg rm s hm he i src whole halign hinside hrefused
    obtain ⟨a, ha, bits, hbits, hread⟩ := readLanes_allLanes_of_refused hinside hrefused
    exact ⟨a, ha, bits, hbits, exec_subpd_of_readLanes_error hm he rfl halign hread⟩
  case vex =>
    intro i n pre d s1 x bb rm s hf hm he src whole hinside hrefused
    obtain ⟨a, ha, bits, hbits, hread⟩ := readLanes_allLanes_of_refused hinside hrefused
    exact ⟨a, ha, bits, hbits, exec_vexForm_of_readLanes_error hf hm he rfl hread⟩
  case evex =>
    intro i n pre e bcst reg rm s hf hm he src needed checked hinside hrefused
    obtain ⟨a, ha, bits, hbits, hread⟩ := readLanes_of_refused hinside hrefused
    exact ⟨a, ha, bits, hbits, exec_evexForm_of_readLanes_error hf hm he rfl hread⟩

end Sys2Proof.Machine

/-! SUPPORT. An instruction stored at the pc is what the next step runs; what a run of any length keeps; and
after `RESET#` or INIT no form executes (spec/20_memory.md R66, R79, spec/70_reset_and_hazards.md R260, R267). -/

namespace Sys2Proof.Machine

open Sys2Proof

/-! ### An instruction stored at the pc (R79, R114, R267) -/

/-- Bytes just written are read back in order. -/
theorem Memory.readBytes_writeBytes (m : Memory) (a : Nat) (bs : List Byte) (hwf : m.wf = true) :
    (Memory.writeBytes m a bs).readBytes a bs.length = bs := by
  apply List.ext_getElem (Memory.length_readBytes ..)
  intro i hread hi
  rw [Memory.getElem_readBytes, Memory.read_writeBytes_same m a i bs hwf hi]

@[simp] theorem fetchAddress_placeCode (s : State) (bs : List Byte) :
    fetchAddress (s.placeCode bs) = fetchAddress s := rfl

/-- Which bytes can be fetched does not depend on what they hold. -/
theorem fetchable_placeCode {s : State} {n : Nat} (bs : List Byte) (h : Fetchable s n) :
    Fetchable (s.placeCode bs) n := h

/-- Code that is no longer than the window stands at its beginning. -/
theorem fetchWindow_placeCode {s : State} {bs : List Byte} (hwf : s.mem.wf = true)
    (hlen : bs.length ≤ decodeWindow) : ∃ tail, fetchWindow (s.placeCode bs) = bs ++ tail := by
  obtain ⟨k, hk⟩ := Nat.exists_eq_add_of_le (hlen.trans (Nat.le_add_left _ (s.placeCode bs).mem.length))
  rw [fetchWindow, hk, Memory.readBytes_add, fetchAddress_placeCode, placeCode_mem,
    Memory.readBytes_writeBytes _ _ _ hwf]
  exact ⟨_, rfl⟩

/-- The decoder finds a well-formed instruction where it has been stored, whatever follows it in memory. -/
theorem decode_placeCode {s : State} {i : Instr} (hmem : s.mem.wf = true) (hwf : wellFormed s.mode i = true) :
    decode s.mode (fetchWindow (s.placeCode (encode i))) = .instr i := by
  obtain ⟨-, hlen, -⟩ := lengthBounds s.mode i hwf
  have hfits : (encode i).length ≤ decodeWindow := (length_encode i).trans_le (hlen.trans (by decide))
  obtain ⟨tail, hwindow⟩ := fetchWindow_placeCode hmem hfits
  rw [hwindow]
  exact decodeEncode s.mode i tail hwf

/-- Settles O36: the stored bytes decode to the instruction, and they are as fetchable as before. -/
theorem placedInstructionRuns : Obligations.PlacedInstructionRuns := by
  intro s i hmem hwf hfetch
  exact stepRunsDecoded _ i (decode_placeCode hmem hwf) (fetchable_placeCode _ hfetch)

/-! ### Runs (R267) -/

/-- What relates each state to itself, to the state of a fault its step raises, and to whatever its next state
is related to, relates the first state of a run to the one the run stops in. -/
theorem runProgram_induction {P : State → State → Prop} (stopped : ∀ s, P s s)
    (fault : ∀ s f, step s = .fault f → P s f.state)
    (next : ∀ s s' t, step s = .next s' → P s' t → P s t)
    {stop : Quad} {n : Nat} {s t : State} (h : (runProgram stop n s).state? = some t) : P s t := by
  induction n generalizing s with
  | zero =>
    unfold runProgram at h
    split at h
    · cases h; exact stopped _
    · cases h; exact stopped _
  | succ n ih =>
    unfold runProgram at h
    split at h
    · cases h; exact stopped _
    · split at h
      case h_1 s' hstep => exact next _ s' t hstep (ih h)
      case h_2 f hstep => cases h; exact fault _ f hstep
      case h_3 => cases h

theorem sameElsewhere_withMxcsr (s : State) (m : BitVec 32) : SameElsewhere s { s with mxcsr := m } :=
  ⟨rfl, rfl, rfl, rfl, rfl, rfl, rfl, rfl, rfl, rfl, rfl, rfl, fun _ => rfl, rfl, rfl⟩

theorem SameElsewhere.refl (s : State) : SameElsewhere s s := sameElsewhere_withMxcsr s s.mxcsr

theorem SameElsewhere.trans {s t u : State} (h : SameElsewhere s t) (h' : SameElsewhere t u) :
    SameElsewhere s u :=
  (h.of_common (.refl s)).of_common h'

theorem FlagSet.word_union (f g : FlagSet) : (f.union g).word = f.word ||| g.word := by
  apply BitVec.eq_of_getLsbD_eq
  intro i hi
  simp only [FlagSet.word, FlagSet.union, BitVec.getLsbD_or, BitVec.getLsbD_append]
  interval_cases i
  all_goals simp

/-- Flags set one set after the other are the union set at once: flags are sticky (R28, R156). -/
theorem orFlags_orFlags (m : BitVec 32) (f g : FlagSet) :
    orFlags (orFlags m f) g = orFlags m (f.union g) := by
  simp only [orFlags, FlagSet.word_union, BitVec.or_assoc, BitVec.setWidth_or]

/-- What a run from `s` that stops in `t` keeps: everything but vector registers, MXCSR, the pc and CR2; and in
MXCSR flags are only set. -/
structure RunKeeps (s t : State) : Prop where
  elsewhere : SameElsewhere s { t with cr2 := s.cr2 }
  sticky : ∃ f, t.mxcsr = orFlags s.mxcsr f

theorem RunKeeps.refl (s : State) : RunKeeps s s where
  elsewhere := SameElsewhere.refl s
  sticky := ⟨FlagSet.empty, (orFlags_empty _).symm⟩

/-- The state of a fault differs in MXCSR and CR2 alone, so with CR2 put back in MXCSR alone (R228). -/
theorem RunKeeps.of_fault {s : State} {f : Fault} (h : step s = .fault f) : RunKeeps s f.state := by
  obtain ⟨hframe, hsticky, -, -⟩ := faultsArePrecise s f h
  refine ⟨?_, hsticky⟩
  rw [hframe]
  exact sameElsewhere_withMxcsr s f.state.mxcsr

/-- A step before a run keeps what the run keeps, CR2 besides. -/
theorem RunKeeps.of_next {s s' t : State} (h : step s = .next s') (hrun : RunKeeps s' t) : RunKeeps s t := by
  obtain ⟨i, -, -, hsame, -, -, ⟨f, hf⟩, -, -, -⟩ := stepFrame s s' h
  obtain ⟨helse, g, hg⟩ := hrun
  refine ⟨?_, f.union g, ?_⟩
  · rw [hsame.cr2] at helse
    exact hsame.trans helse
  · rw [hg, hf, orFlags_orFlags]

/-- Settles O40: each step keeps these parts of the state, and so does the fault that ends a run. -/
theorem runKeepsMemory : Obligations.RunKeepsMemory := by
  intro stop n s t hrun
  have hkeeps : RunKeeps s t :=
    runProgram_induction .refl (fun _ _ => .of_fault) (fun _ _ _ => .of_next) hrun
  exact ⟨hkeeps.elsewhere, hkeeps.sticky⟩

/-! ### After `RESET#` and INIT (R260) -/

/-- In real-address mode with CR4 = 0 no class of forms is usable: the legacy one needs `CR4.OSFXSR`, the others
another mode (R36, R216). -/
theorem usable_eq_false_of_real {s : State} (hmode : s.mode = .real) (hcr4 : s.cr4 = 0) (c : FormClass) :
    s.usable c = false := by
  cases c with
  | legacy =>
    have hosfxsr : s.osfxsr = false := by rw [State.osfxsr, hcr4]; exact BitVec.getLsbD_zero
    simp only [State.usable, State.sseUsable, hosfxsr, Bool.and_false]
  | vex => exact usable_eq_false_of_is8086 (is8086_eq_true.mpr (.inl hmode)) nofun
  | evex vl => exact usable_eq_false_of_is8086 (is8086_eq_true.mpr (.inl hmode)) nofun

theorem exec_eq_ud_of_real {s : State} (hmode : s.mode = .real) (hcr4 : s.cr4 = 0) (i : Instr) :
    exec i s = .fault (.invalidOpcode s) := by
  obtain ⟨hunusable, -, -⟩ := enableChecks i s
  exact hunusable (usable_eq_false_of_real hmode hcr4 i.cls)

/-- Settles O59: reset is real-address mode with CR4 = 0. -/
theorem nothingRunsAtReset : Obligations.NothingRunsAtReset :=
  exec_eq_ud_of_real rfl rfl

/-- Settles O60: the values are fields of the state INIT gives, which is in real-address mode with CR4 = 0
too. -/
theorem warmResetKeeps : Obligations.WarmResetKeeps := fun s =>
  ⟨warmReset_v s, warmReset_k s, warmReset_mxcsr s, warmReset_xcr0 s, rfl, warmReset_mode s, rfl, rfl, rfl,
    exec_eq_ud_of_real (warmReset_mode s) rfl⟩

end Sys2Proof.Machine
